-- ==== Sys2Proof/Word.lean ====
section
/-! DEFINITION. The widths the spec gives: words, virtual and physical addresses, frame and sector
indexes, process ids (spec/00_scope.md R9, R11). Every value is an unsigned integer of its width. -/

namespace Sys2Proof

/-- A word of the FrameStore, of a sector, a page-table entry or a register: WORD_BITS = 32 (R9). -/
abbrev Word := BitVec 32

/-- A virtual address: VA_BITS = 24 (R9, R48). -/
abbrev VAddr := BitVec 24

/-- A physical word address: PA_BITS = 20 (R9, R36). -/
abbrev PAddr := BitVec 20

/-- A frame index: FRAME_BITS = 12 (R9). -/
abbrev Frame := BitVec 12

/-- A word's place inside a frame or a sector of FRAME_WORDS = 256 words (R9, R36, R37). -/
abbrev Offset := BitVec 8

/-- A process id and an owner tag: OWNER_BITS = 8 (R9, R19). -/
abbrev Pid := BitVec 8

/-- A sector index as a command word gives it: 13 bits (R73). -/
abbrev Sector := BitVec 13

end Sys2Proof
end

