-- ==== Sys2Proof/Config.lean ====
section
/-! DEFINITION. What an implementation fixes (spec/00_scope.md R9, R10, R33): the source's constants, and
`Params`, the parameters whose values are the spec's own decisions. No command changes any of them.
This hardware is the one machine `Config.params`, R9's values; the operations take a `Params` so that
the readings R9 lists beside the defaults are modelled too (log 9). -/

namespace Sys2Proof

namespace Config

/-- FRAME_WORDS (R9): words of a frame and of a sector. -/
@[simp] abbrev frameWords : Nat := 256

/-- NUM_FRAMES (R9). -/
@[simp] abbrev numFrames : Nat := 4096

/-- RESERVED_FRAMES (R9): frames 0..15 are reserved at INIT. -/
@[simp] abbrev reservedFrames : Nat := 16

/-- FIRST_FREE_FRAME (R9): the lowest frame index that is not reserved. -/
@[simp] abbrev firstFreeFrame : Frame := 16#12

/-- FBM_BASE (R9): first word of the free-frame bitmap. -/
@[simp] abbrev fbmBase : Nat := 0

/-- FBM_WORDS (R9): words of the free-frame bitmap. -/
@[simp] abbrev fbmWords : Nat := 128

/-- Words of the FrameStore: every address below this one is backed (R36). -/
@[simp] abbrev frameStoreWords : Nat := 1048576

/-- PERM_REQ = V|R|RW, the permission every access requires (R47). -/
@[simp] abbrev permReq : Word := 0x0000D000#32

/-- What a word that no entry of a memory list names reads as.
DESIGN CHOICE (log 1): a memory list leaves out its zero words. -/
@[simp] abbrev unlisted : Word := 0#32

end Config

/-- OWNER_LSB (R9, D8): the lowest bit of the owner tag in a PTE and in a registry entry. -/
inductive OwnerLsb where
  /-- The default: bits [31:24]. -/
  | at24
  /-- The alternative of D8: bits [23:16]. -/
  | at16
deriving DecidableEq, Repr

/-- The owner tag's lowest bit as a number (R9). -/
def OwnerLsb.lsb : OwnerLsb → Nat
  | .at24 => 24
  | .at16 => 16

/-- ALLOC_ORDER (R9, D44): how frame_scan and sector_scan choose among clear bits. -/
inductive AllocOrder where
  /-- The default: the lowest clear bit. -/
  | lowestFirst
  /-- Any clear bit: `choose` is given the clear bits in rising order and names one by its place in
  that list, taken modulo the list's length (log 13). -/
  | any (choose : List Nat → Nat)

/-- The parameters of R9 whose values are the spec's decisions, each with R9's value as its default. -/
structure Params where
  /-- OWNER_LSB (D8). -/
  ownerLsb : OwnerLsb := .at24
  /-- REG_BASE (D10): the first registry word. -/
  regBase : Nat := 256
  /-- REG_SLOTS (D10): registry words. -/
  regSlots : Nat := 3584
  /-- SWAP_BM_FRAME (D11): the frame that holds the swap mirror. -/
  swapBmFrame : Frame := 15#12
  /-- SWAP_BM_SECTOR (D11): the sector that persists the swap bitmap. -/
  swapBmSector : Sector := 0#13
  /-- SWAP_RESERVED_SECTORS (D13): bookkeeping sectors 0..SWAP_RESERVED_SECTORS-1. -/
  swapReservedSectors : Nat := 1
  /-- NUM_SECTORS (D12): sectors of the DiskStore, at most 8192. -/
  numSectors : Nat := 8192
  /-- ABORT_ON_INVALID_FLAGS (D15): the handler also aborts an entry with V = 0 or R = 0. -/
  abortOnInvalidFlags : Bool := false
  /-- ABORT_ON_MISMATCH (D32): the handler aborts every entry that fails entry_ok. -/
  abortOnMismatch : Bool := false
  /-- FIND_MISS_CLEARS (D19): a FIND miss also writes ACTIVE_DIR <- 0. -/
  findMissClears : Bool := false
  /-- PERSIST_ON_SFIND (D30): SFIND ends with persist_swap(). -/
  persistOnSfind : Bool := false
  /-- UNMAP_ZERO_IS_NOOP (D31): UNMAP of a zero Table entry changes nothing and ends OK. -/
  unmapZeroIsNoop : Bool := false
  /-- ALLOC_ORDER (D44). -/
  allocOrder : AllocOrder := .lowestFirst

/-- This hardware: every parameter at R9's value. "every parameter of rule R9 is fixed to the value given
there unless the rule names it as a model argument" (R3). -/
def Config.params : Params := {}

namespace Config

@[simp] theorem params_ownerLsb : params.ownerLsb = .at24 := rfl
@[simp] theorem params_regBase : params.regBase = 256 := rfl
@[simp] theorem params_regSlots : params.regSlots = 3584 := rfl
@[simp] theorem params_swapBmFrame : params.swapBmFrame = 15#12 := rfl
@[simp] theorem params_swapBmSector : params.swapBmSector = 0#13 := rfl
@[simp] theorem params_swapReservedSectors : params.swapReservedSectors = 1 := rfl
@[simp] theorem params_numSectors : params.numSectors = 8192 := rfl
@[simp] theorem params_abortOnInvalidFlags : params.abortOnInvalidFlags = false := rfl
@[simp] theorem params_abortOnMismatch : params.abortOnMismatch = false := rfl
@[simp] theorem params_findMissClears : params.findMissClears = false := rfl
@[simp] theorem params_persistOnSfind : params.persistOnSfind = false := rfl
@[simp] theorem params_unmapZeroIsNoop : params.unmapZeroIsNoop = false := rfl
@[simp] theorem params_allocOrder : params.allocOrder = .lowestFirst := rfl

end Config

end Sys2Proof
end

