-- ==== Sys2Proof/Syntax.lean ====
section
/-! DEFINITION. The twelve commands (spec/30_encoding.md R69), one constructor per row of
opcode_table.json, operands in the order of the assembler syntax (R80); and the types that decoding,
the opcode table and the assembler notation use. -/

namespace Sys2Proof

/-- A legal command. Operands have the width of their fields (R75). -/
inductive Instr where
  /-- READ va (R83). -/
  | read (va : VAddr)
  /-- WRITE va (R84); the data is in WDATA. -/
  | write (va : VAddr)
  /-- MAP va (R87). -/
  | map (va : VAddr)
  /-- UNMAP va (R90). -/
  | unmap (va : VAddr)
  /-- SWITCH pid (R93). -/
  | switch (pid : Pid)
  /-- FIND (R94). -/
  | find
  /-- FALLOC (R97). -/
  | falloc
  /-- FFREE frame (R98). -/
  | ffree (frame : Frame)
  /-- SFIND (R100). -/
  | sfind
  /-- DUMP frame, sector (R101). -/
  | dump (frame : Frame) (sector : Sector)
  /-- RESTORE sector, frame (R102). -/
  | restore (sector : Sector) (frame : Frame)
  /-- INIT (R104). -/
  | init
deriving DecidableEq, Repr

/-- Why a command word is illegal (R76). -/
inductive DecodeError where
  /-- OP is 0x0, 0xC, 0xD or 0xE. -/
  | reservedOpcode (op : BitVec 4)
  /-- A bit the command's format marks RSV is 1. -/
  | reservedBits
  /-- DUMP or RESTORE with SECTOR >= NUM_SECTORS. -/
  | sectorOutOfRange
deriving DecidableEq, Repr

/-- The mnemonics of R69. -/
inductive Mnemonic where
  | READ | WRITE | MAP | UNMAP | SWITCH | FIND | FALLOC | FFREE | SFIND | DUMP | RESTORE | INIT
deriving DecidableEq, Repr

/-- A row of opcode_table.json: the words `w` with `w &&& mask = pattern` are the mnemonic's (R78). -/
structure OpRow where
  mnemonic : Mnemonic
  pattern : Word
  mask : Word
deriving DecidableEq, Repr

/-- The host registers, each at its byte offset (R18, R26). -/
inductive HostReg where
  | cmd | wdata | rdata | status | ctx | fva | fent
deriving DecidableEq, Repr

/-- One line of a program in the host-side notation of R80 and R81. Numbers are as written, so an
operand may fail to fit its field. -/
inductive AsmLine where
  /-- `READ va` -/
  | READ (va : Nat)
  /-- `WRITE va`: the command alone -/
  | WRITE (va : Nat)
  /-- `WRITE va, data`: the pseudo-instruction of R81 -/
  | WRITEDATA (va data : Nat)
  /-- `MAP va` -/
  | MAP (va : Nat)
  /-- `UNMAP va` -/
  | UNMAP (va : Nat)
  /-- `SWITCH pid` -/
  | SWITCH (pid : Nat)
  /-- `FIND` -/
  | FIND
  /-- `FALLOC` -/
  | FALLOC
  /-- `FFREE frame` -/
  | FFREE (frame : Nat)
  /-- `SFIND` -/
  | SFIND
  /-- `DUMP frame, sector` -/
  | DUMP (frame sector : Nat)
  /-- `RESTORE sector, frame` -/
  | RESTORE (sector frame : Nat)
  /-- `INIT` -/
  | INIT
  /-- `wr REG, value` -/
  | wr (reg : HostReg) (value : Nat)
  /-- `rd REG` -/
  | rd (reg : HostReg)
deriving DecidableEq, Repr

end Sys2Proof
end

