-- ==== Sys2Proof/WellFormed.lean ====
section
/-! DEFINITION. Well-formed commands. Operand widths are in the types of `Instr`; what is left to check
is R76's sector condition, SECTOR < NUM_SECTORS, which depends on the parameter NUM_SECTORS. -/

namespace Sys2Proof

/-- The command is legal on a DiskStore of `c.numSectors` sectors (R76, R101, R102). -/
def Instr.wellFormedWith (c : Params) : Instr → Bool
  | .read _ | .write _ | .map _ | .unmap _ => true
  | .switch _ | .find | .falloc | .ffree _ | .sfind | .init => true
  | .dump _ sector => decide (sector.toNat < c.numSectors)
  | .restore sector _ => decide (sector.toNat < c.numSectors)

/-- The command is legal on this hardware. "At NUM_SECTORS = 8192 the sector condition never holds, since
SECTOR is 13 bits" (R76), so every command is. -/
def Instr.wellFormed (i : Instr) : Bool := i.wellFormedWith Config.params

end Sys2Proof
end

