-- ==== Sys2Proof/Decode.lean ====
section
/-! DEFINITION. Decoding of command words, total on 32-bit words and refusing the illegal ones by name
(spec/30_encoding.md R68 to R78), and after it the encoder and opcode_table.json's rows. -/

namespace Sys2Proof

/-- Bits [31:28] of a command word (R69). -/
def opcode (w : Word) : BitVec 4 := w.extractLsb' 28 4

/-- Format V (R70): RSV [27:24], VA [23:0]. -/
def decodeV (mk : VAddr → Instr) (w : Word) : Except DecodeError Instr :=
  if w.extractLsb' 24 4 = 0#4 then .ok (mk (w.extractLsb' 0 24)) else .error .reservedBits

/-- Format P (R71): RSV [27:8], PID [7:0]. -/
def decodeP (mk : Pid → Instr) (w : Word) : Except DecodeError Instr :=
  if w.extractLsb' 8 20 = 0#20 then .ok (mk (w.extractLsb' 0 8)) else .error .reservedBits

/-- Format F (R72): RSV [27:12], FRAME [11:0]. -/
def decodeF (mk : Frame → Instr) (w : Word) : Except DecodeError Instr :=
  if w.extractLsb' 12 16 = 0#16 then .ok (mk (w.extractLsb' 0 12)) else .error .reservedBits

/-- Format SF (R73): RSV [27:25], SECTOR [24:12], FRAME [11:0]; a sector that does not exist is illegal (R76). -/
def decodeSF (c : Params) (mk : Sector → Frame → Instr) (w : Word) : Except DecodeError Instr :=
  if w.extractLsb' 25 3 = 0#3 then
    if (w.extractLsb' 12 13).toNat < c.numSectors then
      .ok (mk (w.extractLsb' 12 13) (w.extractLsb' 0 12))
    else .error .sectorOutOfRange
  else .error .reservedBits

/-- Format N (R74): bits [27:0] must be 0. -/
def decodeN (i : Instr) (w : Word) : Except DecodeError Instr :=
  if w.extractLsb' 0 28 = 0#28 then .ok i else .error .reservedBits

/-- The command a word stands for, or why it is illegal (R69, R76, R77, R78). -/
def decodeWith (c : Params) (w : Word) : Except DecodeError Instr :=
  match opcode w with
  | 0x1#4 => decodeV .read w
  | 0x2#4 => decodeV .write w
  | 0x3#4 => decodeV .map w
  | 0x4#4 => decodeV .unmap w
  | 0x5#4 => decodeP .switch w
  | 0x6#4 => decodeN .find w
  | 0x7#4 => decodeN .falloc w
  | 0x8#4 => decodeF .ffree w
  | 0x9#4 => decodeN .sfind w
  | 0xA#4 => decodeSF c (fun sector frame => .dump frame sector) w
  | 0xB#4 => decodeSF c (fun sector frame => .restore sector frame) w
  | 0xF#4 => decodeN .init w
  | op => .error (.reservedOpcode op)

/-- This hardware's decoder. -/
def decode (w : Word) : Except DecodeError Instr := decodeWith Config.params w

/-- The word of a command, from the patterns of R70 to R74 and the table of R80. -/
def encode : Instr → Word
  | .read va => 0x1#4 ++ 0#4 ++ va
  | .write va => 0x2#4 ++ 0#4 ++ va
  | .map va => 0x3#4 ++ 0#4 ++ va
  | .unmap va => 0x4#4 ++ 0#4 ++ va
  | .switch pid => 0x5#4 ++ 0#20 ++ pid
  | .find => 0x6#4 ++ 0#28
  | .falloc => 0x7#4 ++ 0#28
  | .ffree frame => 0x8#4 ++ 0#16 ++ frame
  | .sfind => 0x9#4 ++ 0#28
  | .dump frame sector => 0xA#4 ++ 0#3 ++ sector ++ frame
  | .restore sector frame => 0xB#4 ++ 0#3 ++ sector ++ frame
  | .init => 0xF#4 ++ 0#28

/-- The rows of opcode_table.json: mnemonic, match, mask. -/
def opcodeTable : List OpRow :=
  [⟨.READ, 0x10000000#32, 0xFF000000#32⟩, ⟨.WRITE, 0x20000000#32, 0xFF000000#32⟩,
   ⟨.MAP, 0x30000000#32, 0xFF000000#32⟩, ⟨.UNMAP, 0x40000000#32, 0xFF000000#32⟩,
   ⟨.SWITCH, 0x50000000#32, 0xFFFFFF00#32⟩, ⟨.FIND, 0x60000000#32, 0xFFFFFFFF#32⟩,
   ⟨.FALLOC, 0x70000000#32, 0xFFFFFFFF#32⟩, ⟨.FFREE, 0x80000000#32, 0xFFFFF000#32⟩,
   ⟨.SFIND, 0x90000000#32, 0xFFFFFFFF#32⟩, ⟨.DUMP, 0xA0000000#32, 0xFE000000#32⟩,
   ⟨.RESTORE, 0xB0000000#32, 0xFE000000#32⟩, ⟨.INIT, 0xF0000000#32, 0xFFFFFFFF#32⟩]

/-- The row's words. -/
def OpRow.accepts (r : OpRow) (w : Word) : Bool := w &&& r.mask == r.pattern

/-- The command's row. -/
def Instr.mnemonic : Instr → Mnemonic
  | .read _ => .READ
  | .write _ => .WRITE
  | .map _ => .MAP
  | .unmap _ => .UNMAP
  | .switch _ => .SWITCH
  | .find => .FIND
  | .falloc => .FALLOC
  | .ffree _ => .FFREE
  | .sfind => .SFIND
  | .dump _ _ => .DUMP
  | .restore _ _ => .RESTORE
  | .init => .INIT

/-- The command that `decode` reads from an instruction of `nbits` bits whose bits are `w`. Every command
is one 32-bit word (R68), bit 0 its least significant (R11); a number that does not fit one word is
no command (log 14). -/
def decodeTableWord (nbits w : Nat) : Option Instr :=
  if nbits ≤ 32 ∧ w < 2 ^ 32 then (decode (BitVec.ofNat 32 w)).toOption else none

end Sys2Proof
end

