-- ==== Sys2Proof/Machine/State.lean ====
section
/-! DEFINITION. The state of the MMB as plain data (spec/10_state.md R18 to R34), with the types its
fields and the operations use, the reasons a step can stop, and the state after hardware reset. -/

namespace Sys2Proof.Machine

/-- The words of the FrameStore or of the DiskStore: (address, word) pairs with rising addresses, the
words equal to `Config.unlisted` left out. The spec's smallest addressable unit is the 32-bit word
(R36, R37, R39), so a cell holds a word (log 2). A FrameStore word is at its physical word address
(R36); word i of sector s is at 256 * s + i (R37, log 15). -/
abbrev Memory := List (Nat × Word)

/-- The status codes of R106, without their numbers. -/
inductive Status where
  | ok | alignmentError | invalidContext | invalidMapping | outOfFrames | outOfSectors
  | registryExhausted | fatalFault | absent | illegalCommand
deriving DecidableEq, Repr

/-- The level at which the walk logged a fault (R24, R57). -/
inductive Level where
  /-- 1: Directory -/
  | dir
  /-- 2: Table -/
  | tab
  /-- 3: context -/
  | ctx
deriving DecidableEq, Repr

/-- The fault handler's answer (R110). -/
inductive Verdict where
  | abort
  /-- `continue` -/
  | proceed
deriving DecidableEq, Repr

/-- The fields of a page-table entry (R46); bits [23:16] are no field. -/
structure Pte where
  owner : Pid
  v : Bool
  d : Bool
  r : Bool
  rw : Bool
  frame : Frame
deriving DecidableEq, Repr

/-- ACCESS's kind (R117). -/
inductive AccessKind where
  | read | write
deriving DecidableEq, Repr

/-- STRUCT's and RELEASE's role (R117). -/
inductive Role where
  | dir | table | data
deriving DecidableEq, Repr

/-- STRUCT's how (R117). -/
inductive How where
  | new | reused
deriving DecidableEq, Repr

/-- SWAPIO's kind (R117). -/
inductive SwapKind where
  | dump | restore
deriving DecidableEq, Repr

/-- The events of the observation trace (R117). -/
inductive Event where
  | access (kind : AccessKind) (va : VAddr) (pa : PAddr) (value : Word)
  | perm (va : VAddr) (level : Level) (entry : Word)
  | fatal (va : VAddr) (level : Level) (entry : Word)
  | struct (role : Role) (frame : Frame) (how : How)
  | release (role : Role) (frame : Frame)
  | swapio (kind : SwapKind) (frame : Frame) (sector : Sector)
deriving DecidableEq, Repr

/-- What the walk returns (R57). -/
inductive WalkResult where
  | ok (pa : PAddr)
  | fatal
deriving DecidableEq, Repr

/-- What the outside can do to the MMB (R26, R29, R34): a host write or read of `bits` bits at a byte
offset from the MMB's base, or hardware reset. -/
inductive HostInput where
  | write (offset : Nat) (bits : Nat) (value : Word)
  | read (offset : Nat) (bits : Nat)
  | hardwareReset
deriving DecidableEq, Repr

/-- The reasons the machine stops with a fault: none. Every command, legal or not, ends with a status
code and the next one runs normally (R105, R106, R108), so no meaning raises a `Fault` (log 18). -/
inductive Fault where
deriving DecidableEq, Repr

/-- The reasons a step is refused. -/
inductive Refusal where
  /-- Raised by `exec`'s arm of a command that has no meaning yet: a safe stop. No arm raises it now. -/
  | notModelled (mnemonic : String)
  /-- Raised by a host access that is not an aligned 32-bit one: "outside the model: a model refuses it
  (the MMB's behaviour for it is not specified)" (R29, D33). Safe (log 7). -/
  | hostAccessNotAlignedWord
  /-- Raised by a host access beyond offset 0x3F: "The MMB decodes offsets 0x00..0x3F only; what lies
  beyond is the platform's" (R26). Safe (log 8). -/
  | hostOffsetOutsideWindow
deriving DecidableEq, Repr

/-- The architectural state (R18), the observation trace (R30), and the model's own two fields: the
inputs that have not been taken yet (log 3) and the words host reads have returned (log 4). -/
structure State where
  /-- CUR_PID (R19). -/
  curPid : Pid
  /-- ACTIVE_DIR (R20). -/
  activeDir : Frame
  /-- WDATA (R21). -/
  wdata : Word
  /-- RDATA (R22). -/
  rdata : Word
  /-- STATUS (R23). -/
  status : Word
  /-- FVA (R24). -/
  fva : Word
  /-- FENT (R25). -/
  fent : Word
  /-- The FrameStore (R36). -/
  frames : Memory
  /-- The DiskStore (R37). -/
  disk : Memory
  /-- The observation trace (R30), oldest event first. -/
  trace : List Event
  /-- The model's own: what the outside has yet to do, oldest first. -/
  inputs : List HostInput
  /-- The model's own: what the host's reads returned, oldest first. -/
  hostReads : List Word
deriving DecidableEq, Repr

/-- The machine right after hardware reset with MEM_INIT and DISK_INIT the given contents (R10, R34,
R125), nothing yet asked of it by the outside. -/
def State.resetWith (memInit diskInit : Memory) : State where
  curPid := 0#8
  activeDir := 0#12
  wdata := 0#32
  rdata := 0#32
  status := 0#32
  fva := 0#32
  fent := 0#32
  frames := memInit
  disk := diskInit
  trace := []
  inputs := []
  hostReads := []

/-- The machine right after hardware reset. MEM_INIT and DISK_INIT are model arguments (R10); here both
are 0 everywhere, the contents the spec's own vectors start from. DESIGN CHOICE (log 1). -/
def State.reset : State := State.resetWith [] []

end Sys2Proof.Machine
end

