-- ==== Sys2Proof/Machine/Flags.lean ====
section
/-! DEFINITION. The layouts of STATUS, FVA and CTX, and the status codes' numbers (spec/10_state.md R23,
R24, R27; spec/60_exceptions.md R106). PFD and PFT are the only status flags (R32). -/

namespace Sys2Proof.Machine

/-- The number of a status code (R106). -/
def Status.code : Status → BitVec 4
  | .ok => 0x0#4
  | .alignmentError => 0x1#4
  | .invalidContext => 0x2#4
  | .invalidMapping => 0x3#4
  | .outOfFrames => 0x4#4
  | .outOfSectors => 0x5#4
  | .registryExhausted => 0x6#4
  | .fatalFault => 0x7#4
  | .absent => 0x8#4
  | .illegalCommand => 0x9#4

/-- STATUS as a command writes it: CODE [3:0], PFD [8], PFT [9], the rest 0 (R23). -/
def statusWord (st : Status) (pfd pft : Bool) : Word :=
  0#22 ++ BitVec.ofBool pft ++ BitVec.ofBool pfd ++ 0#4 ++ st.code

/-- STATUS.CODE (R23). -/
def statusCode (w : Word) : BitVec 4 := w.extractLsb' 0 4

/-- STATUS.PFD (R23). -/
def statusPfd (w : Word) : Bool := w.getLsbD 8

/-- STATUS.PFT (R23). -/
def statusPft (w : Word) : Bool := w.getLsbD 9

/-- The number of a level (R24, R57). -/
def Level.code : Level → BitVec 2
  | .dir => 1#2
  | .tab => 2#2
  | .ctx => 3#2

/-- FVA as log_fault writes it: {3'b0, fatal, 2'b0, level, va} (R57). -/
def faultWord (fatal : Bool) (level : Level) (va : VAddr) : Word :=
  0#3 ++ BitVec.ofBool fatal ++ 0#2 ++ level.code ++ va

/-- FVA[23:0], the virtual address (R24). -/
def fvaAddress (w : Word) : VAddr := w.extractLsb' 0 24

/-- FVA[25:24], the level (R24). -/
def fvaLevel (w : Word) : BitVec 2 := w.extractLsb' 24 2

/-- FVA[28], FATAL (R24). -/
def fvaFatal (w : Word) : Bool := w.getLsbD 28

/-- CTX: {12'b0, ACTIVE_DIR, CUR_PID} (R27). -/
def ctxWord (pid : Pid) (dir : Frame) : Word := 0#12 ++ dir ++ pid

end Sys2Proof.Machine
end

