-- ==== Sys2Proof/Machine/Operands.lean ====
section
/-! DEFINITION. The fields of virtual addresses, page-table entries and registry entries, and the
permission check (spec/20_memory.md R36, R45 to R48, R56). -/

namespace Sys2Proof.Machine

/-- va[23:16], the directory index (R48). -/
def dirIndex (va : VAddr) : Offset := va.extractLsb' 16 8

/-- va[15:8], the table index (R48). -/
def tabIndex (va : VAddr) : Offset := va.extractLsb' 8 8

/-- va[7:0], the word offset (R48). -/
def wordOffset (va : VAddr) : Offset := va.extractLsb' 0 8

/-- Frame-aligned: the word-offset field is zero (R16, R40). -/
def frameAligned (va : VAddr) : Bool := wordOffset va == 0#8

/-- pa = {frame[11:0], offset[7:0]} = FrameBase(frame) + offset (R13, R36). -/
def frameWord (f : Frame) (i : Offset) : PAddr := f ++ i

/-- FRAME = e[11:0], of a PTE and of a registry entry (R45, R46). -/
def entryFrame (e : Word) : Frame := e.extractLsb' 0 12

/-- OWNER, of a PTE and of a registry entry: e[31:24], or e[23:16] with OWNER_LSB = 16 (R9, R45, R46). -/
def entryOwner (c : Params) (e : Word) : Pid := e.extractLsb' c.ownerLsb.lsb 8

/-- pte_pack (R47). With OWNER_LSB = 16 (not this hardware) R9 and D8 give only the owner's place; that bits
[31:24] are then written 0 is a DESIGN CHOICE (log 9). -/
def ptePack (c : Params) (p : Pte) : Word :=
  let low : BitVec 16 :=
    BitVec.ofBool p.rw ++ BitVec.ofBool p.r ++ BitVec.ofBool p.d ++ BitVec.ofBool p.v ++ p.frame
  match c.ownerLsb with
  | .at24 => p.owner ++ 0#8 ++ low
  | .at16 => 0#8 ++ p.owner ++ low

/-- pte_unpack (R47). -/
def pteUnpack (c : Params) (e : Word) : Pte where
  owner := entryOwner c e
  v := e.getLsbD 12
  d := e.getLsbD 13
  r := e.getLsbD 14
  rw := e.getLsbD 15
  frame := entryFrame e

/-- The PTE MAP writes: pte_pack(CUR_PID, 1, 0, 1, 1, f) (R87). -/
def mapPte (c : Params) (pid : Pid) (f : Frame) : Word :=
  ptePack c { owner := pid, v := true, d := false, r := true, rw := true, frame := f }

/-- RegEntry(pid, f) = {pid, 12'b0, f} (R45). With OWNER_LSB = 16 (not this hardware) the owner is at [23:16] (R9,
D8); that bits [31:24] and [15:12] are then written 0 is a DESIGN CHOICE (log 9). -/
def regEntry (c : Params) (pid : Pid) (f : Frame) : Word :=
  match c.ownerLsb with
  | .at24 => pid ++ 0#12 ++ f
  | .at16 => 0#8 ++ pid ++ 0#4 ++ f

/-- entry_ok(e), the permission check at either level (R56, D14); D and bits [23:16] are not checked. -/
def entryOk (c : Params) (curPid : Pid) (e : Word) : Bool :=
  let p := pteUnpack c e
  p.v && p.r && p.rw && decide (Config.firstFreeFrame ≤ p.frame) && p.owner == curPid

end Sys2Proof.Machine
end

