-- ==== Sys2Proof/Machine/Ops.lean ====
section
/-! DEFINITION. The named operations the commands share: reading and writing the two stores, the bitmaps
and the registry (spec/20_memory.md R50 to R55), a command's end (spec/00_scope.md R14), and taking a
fault inside the walk (R57, spec/60_exceptions.md R110). -/

namespace Sys2Proof.Machine

/-! ### Memories -/

/-- The word at an address. -/
def Memory.read : Memory → Nat → Word
  | [], _ => Config.unlisted
  | (k, v) :: m, a => bif Nat.beq k a then v else Memory.read m a

/-- The memory with the addresses lo..lo+n-1 holding what `block` lists there and every other address as
it was. All writes go through it. -/
def Memory.splice (m : Memory) (lo n : Nat) (block : Memory) : Memory :=
  m.filter (fun cell => Nat.blt cell.1 lo) ++ block ++ m.filter (fun cell => Nat.ble (lo + n) cell.1)

/-- What a memory lists at lo..lo+n-1. -/
def Memory.slice (m : Memory) (lo n : Nat) : Memory :=
  m.filter fun cell => Nat.ble lo cell.1 && Nat.blt cell.1 (lo + n)

/-- One word written. -/
def Memory.write (m : Memory) (a : Nat) (v : Word) : Memory :=
  m.splice a 1 (if v = Config.unlisted then [] else [(a, v)])

/-- The words lo..lo+n-1 set to 0. -/
def Memory.zero (m : Memory) (lo n : Nat) : Memory :=
  m.splice lo n []

/-- Words src+0..src+n-1 of `from'` copied to dst+0..dst+n-1, as they stood before: the word loops of
DUMP, RESTORE and persist_swap, which the spec calls "each equivalent to one whole-sector transfer"
(R120; log 10). -/
def Memory.copy (m : Memory) (dst : Nat) (source : Memory) (src n : Nat) : Memory :=
  m.splice dst n ((source.slice src n).map fun cell => (dst + (cell.1 - src), cell.2))

/-- The canonical form: addresses rise and stay below `size`, and no listed word is the unlisted one. -/
def Memory.wf (size : Nat) (m : Memory) : Bool :=
  decide ((m.map Prod.fst).Pairwise (· < ·)) &&
    m.all fun cell => decide (cell.1 < size) && cell.2 != Config.unlisted

/-! ### Bitmaps in a memory: bit i is bit (i mod 32) of word base + (i div 32) (R43, R49) -/

/-- Bit i of the bitmap at `base`. -/
def Memory.testBit (m : Memory) (base i : Nat) : Bool :=
  (m.read (base + i / 32)).getLsbD (i % 32)

/-- Bit i set (R51, R55). -/
def Memory.setBit (m : Memory) (base i : Nat) : Memory :=
  m.write (base + i / 32) (m.read (base + i / 32) ||| 1#32 <<< (i % 32))

/-- Bit i cleared (R51, R55). -/
def Memory.clearBit (m : Memory) (base i : Nat) : Memory :=
  m.write (base + i / 32) (m.read (base + i / 32) &&& ~~~(1#32 <<< (i % 32)))

/-- The lowest clear bit of a word (R50: "for b in 0 .. 31"). -/
def lowestClear (w : Word) : Option Nat :=
  (List.range 32).find? fun b => !w.getLsbD b

/-- The first clear bit of a bitmap of `words` words, "word order then low-to-high bit order within a
word" (R50, R55). -/
def Memory.firstClear (m : Memory) (base words : Nat) : Option Nat :=
  (List.range words).findSome? fun w => (lowestClear (m.read (base + w))).map (32 * w + ·)

/-- A clear bit below `limit` of a bitmap of `words` words: the first one, or with ALLOC_ORDER = any the
one the parameter names (R9, D44). `none` when every bit below `limit` is set. -/
def Memory.scan (c : Params) (m : Memory) (base words limit : Nat) : Option Nat :=
  match c.allocOrder with
  | .lowestFirst => (m.firstClear base words).filter fun i => Nat.blt i limit
  | .any choose =>
    let clear := (List.range limit).filter fun i => !m.testBit base i
    clear[choose clear % clear.length]?

/-! ### State updates -/

/-- Mem[pa], MemRead(pa, 1) (R13). -/
def State.mem (s : State) (pa : PAddr) : Word := s.frames.read pa.toNat

/-- MemWrite(pa, 1, v) (R13). -/
def State.memWrite (s : State) (pa : PAddr) (v : Word) : State :=
  { s with frames := s.frames.write pa.toNat v }

/-- Where the DiskStore's memory holds word i of sector s (R37, log 15). -/
def diskAddr (sector : Nat) (i : Nat) : Nat := sector * Config.frameWords + i

/-- DiskRead(s, i) (R13, R120). -/
def State.diskRead (s : State) (sector : Sector) (i : Offset) : Word :=
  s.disk.read (diskAddr sector.toNat i.toNat)

/-- ACTIVE_DIR <- f. -/
def State.setActiveDir (s : State) (f : Frame) : State := { s with activeDir := f }

/-- emit E(...): E joins the trace and nothing else changes (R14, R30). -/
def State.emit (s : State) (e : Event) : State := { s with trace := s.trace ++ [e] }

/-- A command's end: STATUS written in full, and RDATA (R14, R22, R23, R105). -/
def State.complete (s : State) (st : Status) (pfd pft : Bool) (v : Word) : State :=
  { s with status := statusWord st pfd pft, rdata := v }

/-- finish(v) of a command that is no access: CODE <- OK, PFD = PFT = 0, RDATA <- v (R14, R105). -/
def State.finish (s : State) (v : Word) : State := s.complete .ok false false v

/-- raise of a command that is no access: its code, PFD = PFT = 0, RDATA <- 0 (R14, R105). What the
command changed before it stays. -/
def State.raise (s : State) (st : Status) : State := s.complete st false false 0#32

/-! ### Frames and the free-frame bitmap (R50, R51, R52) -/

/-- The free-frame bitmap's bit of frame f: 1 means allocated (R43). -/
def State.frameUsed (s : State) (f : Frame) : Bool := s.frames.testBit Config.fbmBase f.toNat

/-- frame_scan() (R50). It covers all 4096 bits, the reserved frames' among them. -/
def State.frameScan (c : Params) (s : State) : Option Frame :=
  (s.frames.scan c Config.fbmBase Config.fbmWords Config.numFrames).map (BitVec.ofNat 12)

/-- frame_set(f) (R51). -/
def State.frameSet (s : State) (f : Frame) : State :=
  { s with frames := s.frames.setBit Config.fbmBase f.toNat }

/-- frame_clear(f) (R51): no check of the old bit or of f. -/
def State.frameClear (s : State) (f : Frame) : State :=
  { s with frames := s.frames.clearBit Config.fbmBase f.toNat }

/-- zero_frame(f) (R52). -/
def State.zeroFrame (s : State) (f : Frame) : State :=
  { s with frames := s.frames.zero (f.toNat * Config.frameWords) Config.frameWords }

/-- frame_empty(f) (R52): every one of the 256 words is 0. -/
def State.frameEmpty (s : State) (f : Frame) : Bool :=
  let words := s.frames.slice (f.toNat * Config.frameWords) Config.frameWords
  (List.range Config.frameWords).all fun i => words.read (f.toNat * Config.frameWords + i) == 0#32

/-! ### The process directory registry (R44, R53, R54) -/

/-- The physical address of slot k (R44). -/
def slotAddr (c : Params) (k : Nat) : PAddr := BitVec.ofNat 20 (c.regBase + k)

/-- The registry's words, apart from the rest of the FrameStore. -/
def State.registry (c : Params) (s : State) : Memory := s.frames.slice c.regBase c.regSlots

/-- reg_find(pid): the lowest slot that is not 0 and carries the owner tag (R53). -/
def State.regFind (c : Params) (s : State) (pid : Pid) : Option Nat :=
  let reg := s.registry c
  (List.range c.regSlots).find? fun k =>
    let e := reg.read (c.regBase + k)
    e != 0#32 && entryOwner c e == pid

/-- reg_free_slot(): the lowest slot that is 0 (R54). -/
def State.regFreeSlot (c : Params) (s : State) : Option Nat :=
  let reg := s.registry c
  (List.range c.regSlots).find? fun k => reg.read (c.regBase + k) == 0#32

/-- The slots whose entry's frame is g. -/
def State.slotsNaming (c : Params) (s : State) (g : Frame) : List Nat :=
  let reg := s.registry c
  (List.range c.regSlots).filter fun k => entryFrame (reg.read (c.regBase + k)) == g

/-- UNMAP's last loop: every registry entry naming g set to 0 (R90). An iteration tests and writes its
own slot only, so the slots are found first (log 11). -/
def State.regRemove (c : Params) (s : State) (g : Frame) : State :=
  (s.slotsNaming c g).foldl (fun t k => t.memWrite (slotAddr c k) 0#32) s

/-! ### The swap mirror and the persisted swap bitmap (R49, R55) -/

/-- The first word of the swap mirror (R49). -/
def mirrorBase (c : Params) : Nat := c.swapBmFrame.toNat * Config.frameWords

/-- The mirror's bit of sector i: 1 means used (R49). -/
def State.sectorUsed (c : Params) (s : State) (i : Nat) : Bool := s.frames.testBit (mirrorBase c) i

/-- sector_scan() (R55). -/
def State.sectorScan (c : Params) (s : State) : Option Nat :=
  s.frames.scan c (mirrorBase c) Config.frameWords c.numSectors

/-- sector_set(s) (R55). -/
def State.sectorSet (c : Params) (s : State) (i : Nat) : State :=
  { s with frames := s.frames.setBit (mirrorBase c) i }

/-- sector_clear(s) (R55). -/
def State.sectorClear (c : Params) (s : State) (i : Nat) : State :=
  { s with frames := s.frames.clearBit (mirrorBase c) i }

/-- Frame f copied to the sector: DUMP's loop (R101). -/
def State.frameToSector (s : State) (f : Frame) (sector : Sector) : State :=
  { s with disk := s.disk.copy (diskAddr sector.toNat 0) s.frames (f.toNat * Config.frameWords) Config.frameWords }

/-- The sector copied to frame f: RESTORE's loop (R102). -/
def State.sectorToFrame (s : State) (sector : Sector) (f : Frame) : State :=
  { s with frames := s.frames.copy (f.toNat * Config.frameWords) s.disk (diskAddr sector.toNat 0) Config.frameWords }

/-- persist_swap() (R55): the mirror copied to sector SWAP_BM_SECTOR. -/
def State.persistSwap (c : Params) (s : State) : State :=
  s.frameToSector c.swapBmFrame c.swapBmSector

/-! ### Taking a fault inside the walk (R57, R110, R111) -/

/-- The built-in fault handler (R110): abort when the entry's FRAME is reserved, else continue. It writes
no state. The two other abort conditions are ABORT_ON_INVALID_FLAGS and ABORT_ON_MISMATCH (R9, D15, D32);
the walk calls it only with an entry that fails entry_ok. -/
def faultHandler (c : Params) (_va : VAddr) (_perm : Word) (e : Word) : Verdict :=
  if entryFrame e < Config.firstFreeFrame then .abort
  else if c.abortOnMismatch then .abort
  else if c.abortOnInvalidFlags && !((pteUnpack c e).v && (pteUnpack c e).r) then .abort
  else .proceed

/-- log_fault(va, level, e, fatal): FVA, FENT and one trace event (R24, R25, R57). -/
def State.logFault (s : State) (va : VAddr) (level : Level) (e : Word) (fatal : Bool) : State :=
  { s with fva := faultWord fatal level va, fent := e }.emit
    (if fatal then .fatal va level e else .perm va level e)

end Sys2Proof.Machine
end

