-- ==== Sys2Proof/Machine/Walk.lean ====
section
/-! DEFINITION. The two-level walk (spec/20_memory.md R57). -/

namespace Sys2Proof.Machine

/-- What the check of one level leaves: the state, the entry the walk goes on with (none when the handler
aborted), and whether a continued fault was logged (PFD or PFT). -/
structure LevelOut where
  state : State
  entry : Option Word
  logged : Bool
deriving DecidableEq, Repr

/-- What the walk leaves: the state, its result, and the flags pfd and pft. -/
structure WalkOut where
  state : State
  result : WalkResult
  pfd : Bool
  pft : Bool
deriving DecidableEq, Repr

/-- One level of the walk: read the entry at `ea`; if it fails entry_ok, ask the handler, log the fault,
and on a continue read the entry again (R57, R110, R112). -/
def walkLevel (c : Params) (va : VAddr) (level : Level) (ea : PAddr) (s : State) : LevelOut :=
  let e := s.mem ea
  if entryOk c s.curPid e then ⟨s, some e, false⟩
  else
    match faultHandler c va Config.permReq e with
    | .abort => ⟨s.logFault va level e true, none, false⟩
    | .proceed =>
      let t := s.logFault va level e false
      ⟨t, some (t.mem ea), true⟩

/-- walk(va) (R57). The context is checked before the first read (D16). -/
def walk (c : Params) (va : VAddr) (s : State) : WalkOut :=
  if s.activeDir < Config.firstFreeFrame then ⟨s.logFault va .ctx 0#32 true, .fatal, false, false⟩
  else
    let d := walkLevel c va .dir (frameWord s.activeDir (dirIndex va)) s
    match d.entry with
    | none => ⟨d.state, .fatal, false, false⟩
    | some de =>
      let t := walkLevel c va .tab (frameWord (entryFrame de) (tabIndex va)) d.state
      match t.entry with
      | none => ⟨t.state, .fatal, d.logged, false⟩
      | some te => ⟨t.state, .ok (frameWord (entryFrame te) (wordOffset va)), d.logged, t.logged⟩

end Sys2Proof.Machine
end

