-- ==== Sys2Proof/Machine/Access.lean ====
section
/-! DEFINITION. READ and WRITE (spec/40_translate.md R83 to R86). -/

namespace Sys2Proof.Machine

/-- READ va (R83). -/
def readCmd (c : Params) (va : VAddr) (s : State) : State :=
  let w := walk c va s
  match w.result with
  | .fatal => w.state.complete .fatalFault w.pfd w.pft 0#32
  | .ok pa =>
    let v := w.state.mem pa
    (w.state.emit (.access .read va pa v)).complete .ok w.pfd w.pft v

/-- WRITE va (R84): the data is WDATA, read at the start; on FatalFault nothing is stored (R108). -/
def writeCmd (c : Params) (va : VAddr) (s : State) : State :=
  let data := s.wdata
  let w := walk c va s
  match w.result with
  | .fatal => w.state.complete .fatalFault w.pfd w.pft 0#32
  | .ok pa =>
    ((w.state.memWrite pa data).emit (.access .write va pa data)).complete .ok w.pfd w.pft 0#32

/-- READ's meaning. -/
def execRead (va : VAddr) (s : State) : Host.Outcome State Fault Refusal :=
  .next (readCmd Config.params va s)

/-- WRITE's meaning. -/
def execWrite (va : VAddr) (s : State) : Host.Outcome State Fault Refusal :=
  .next (writeCmd Config.params va s)

end Sys2Proof.Machine
end

