-- ==== Sys2Proof/Machine/Context.lean ====
section
/-! DEFINITION. SWITCH and FIND (spec/42_registry_context.md R93 to R96). -/

namespace Sys2Proof.Machine

/-- SWITCH pid (R93): ACTIVE_DIR is not written (D21). -/
def switchCmd (pid : Pid) (s : State) : State :=
  if pid = 0#8 then s.raise .invalidContext
  else { s with curPid := pid }.finish 0#32

/-- FIND (R94). A miss leaves ACTIVE_DIR, or with FIND_MISS_CLEARS clears it (R9, D19). -/
def findCmd (c : Params) (s : State) : State :=
  if s.curPid = 0#8 then s.raise .invalidContext
  else
    match s.regFind c s.curPid with
    | none => (if c.findMissClears then s.setActiveDir 0#12 else s).raise .absent
    | some k =>
      let f := entryFrame (s.mem (slotAddr c k))
      (s.setActiveDir f).finish (f.setWidth 32)

/-- SWITCH's meaning. -/
def execSwitch (pid : Pid) (s : State) : Host.Outcome State Fault Refusal :=
  .next (switchCmd pid s)

/-- FIND's meaning. -/
def execFind (s : State) : Host.Outcome State Fault Refusal :=
  .next (findCmd Config.params s)

end Sys2Proof.Machine
end

