-- ==== Sys2Proof/Machine/Control.lean ====
section
/-! DEFINITION. INIT (spec/45_control.md R104), an illegal command's end (spec/30_encoding.md R76), and what
hardware reset does to a machine (spec/10_state.md R34). -/

namespace Sys2Proof.Machine

/-- INIT's FrameStore part up to the bookkeeping sectors (R104): frames 0..15 zeroed, their bits set. -/
def State.initFrames (s : State) : State :=
  let z : State := { s with frames := s.frames.zero 0 (Config.reservedFrames * Config.frameWords) }
  (List.range Config.reservedFrames).foldl (fun t f => t.frameSet (BitVec.ofNat 12 f)) z

/-- INIT's disk part (R104): the bookkeeping sectors marked used in the mirror, the mirror persisted,
sectors 1..SWAP_RESERVED_SECTORS-1 zeroed (none at the default of 1). -/
def State.initSwap (c : Params) (s : State) : State :=
  let t := (List.range c.swapReservedSectors).foldl (fun t i => t.sectorSet c i) s
  let t := t.persistSwap c
  { t with disk := t.disk.zero (diskAddr 1 0) ((c.swapReservedSectors - 1) * Config.frameWords) }

/-- INIT (R104): WDATA, the trace, frames 16..4095 and the other sectors are not written. -/
def initCmd (c : Params) (s : State) : State :=
  let t : State :=
    { s.initFrames with activeDir := 0#12, curPid := 0#8, fva := 0#32, fent := 0#32 }
  (t.initSwap c).finish 0#32

/-- INIT's meaning. -/
def execInit (s : State) : Host.Outcome State Fault Refusal :=
  .next (initCmd Config.params s)

/-- An illegal command word (R76): STATUS and RDATA, and nothing else. -/
def illegalCmd (s : State) : State := s.raise .illegalCommand

/-- Hardware reset of a machine whose stores hold MEM_INIT and DISK_INIT (R34): the registers and the
trace are reset and neither store is written. What the outside has yet to do, and what it has read, are
not the MMB's. DEDUCED for a machine that has already run (log 6). -/
def hardwareReset (s : State) : State :=
  { State.resetWith s.frames s.disk with inputs := s.inputs, hostReads := s.hostReads }

end Sys2Proof.Machine
end

