-- ==== Sys2Proof/Machine/FrameAlloc.lean ====
section
/-! DEFINITION. FALLOC and FFREE (spec/43_frame_bitmap.md R97 to R99). -/

namespace Sys2Proof.Machine

/-- FALLOC (R97): the frame's contents are not cleared. -/
def fallocCmd (c : Params) (s : State) : State :=
  match s.frameScan c with
  | none => s.raise .outOfFrames
  | some f => (s.frameSet f).finish (f.setWidth 32)

/-- FFREE frame (R98): no check of any kind. -/
def ffreeCmd (frame : Frame) (s : State) : State :=
  (s.frameClear frame).finish 0#32

/-- FALLOC's meaning. -/
def execFalloc (s : State) : Host.Outcome State Fault Refusal :=
  .next (fallocCmd Config.params s)

/-- FFREE's meaning. -/
def execFfree (frame : Frame) (s : State) : Host.Outcome State Fault Refusal :=
  .next (ffreeCmd frame s)

end Sys2Proof.Machine
end

