-- ==== Sys2Proof/Machine/Mapping.lean ====
section
/-! DEFINITION. MAP and UNMAP (spec/41_map_unmap.md R87 to R92). -/

namespace Sys2Proof.Machine

/-- MAP's Step 1 (R87): the Directory registered for CUR_PID, or a new one. Both checks run before any
write (D22, C2), so an error leaves the state as it was. -/
def mapDirectory (c : Params) (s : State) : Except Status State :=
  match s.regFind c s.curPid with
  | some k =>
    let f := entryFrame (s.mem (slotAddr c k))
    .ok ((s.setActiveDir f).emit (.struct .dir f .reused))
  | none =>
    match s.frameScan c with
    | none => .error .outOfFrames
    | some f =>
      match s.regFreeSlot c with
      | none => .error .registryExhausted
      | some k =>
        let t := ((s.frameSet f).zeroFrame f).setActiveDir f
        .ok ((t.memWrite (slotAddr c k) (regEntry c s.curPid f)).emit (.struct .dir f .new))

/-- MAP's Steps 2 and 3 (R87), "the identical locate-or-create policy": the frame that the entry at `ea`
names, or a new one when its FRAME is 0 (zero-filled if it is a Table, D23), and the entry written back.
An error leaves the state as it was. -/
def mapEntry (c : Params) (role : Role) (ea : PAddr) (s : State) : Except Status (State × Frame) :=
  let f := entryFrame (s.mem ea)
  if f = 0#12 then
    match s.frameScan c with
    | none => .error .outOfFrames
    | some f =>
      let t := s.frameSet f
      let t := if role = .table then t.zeroFrame f else t
      .ok ((t.emit (.struct role f .new)).memWrite ea (mapPte c s.curPid f), f)
  else
    .ok ((s.emit (.struct role f .reused)).memWrite ea (mapPte c s.curPid f), f)

/-- A MAP that began in `start` with every frame used needs a data frame in Step 3: the entry at `tpa` has
FRAME 0 (R88). -/
def mapExhausted (c : Params) (start s : State) (tpa : PAddr) : Bool :=
  entryFrame (s.mem tpa) == 0#12 && (start.frameScan c).isNone

/-- MAP va (R87). A later step's error keeps what the earlier steps did, but "with every frame used, a MAP that
needs a frame raises OutOfFrames and changes no FrameStore word" (R88, C4): then Step 2's rewrite of the
Directory entry does not stay (log 16). -/
def mapCmd (c : Params) (va : VAddr) (s : State) : State :=
  if !frameAligned va then s.raise .alignmentError
  else if s.curPid = 0#8 then s.raise .invalidContext
  else
    match mapDirectory c s with
    | .error e => s.raise e
    | .ok s1 =>
      match mapEntry c .table (frameWord s1.activeDir (dirIndex va)) s1 with
      | .error e => s1.raise e
      | .ok (s2, t) =>
        let tpa := frameWord t (tabIndex va)
        if mapExhausted c s s2 tpa then { s2 with frames := s.frames }.raise .outOfFrames
        else
          match mapEntry c .data tpa s2 with
          | .error e => s2.raise e
          | .ok (s3, d) => s3.finish (d.setWidth 32)

/-- UNMAP's cascade once the Table t and the data frame d are known (R90): free d and zero its entry; if
that empties the Table, free it and zero its entry; if that empties the Directory g, free it, remove
its registry entries and clear ACTIVE_DIR. -/
def unmapCascade (c : Params) (g : Frame) (dpa : PAddr) (t : Frame) (tpa : PAddr) (d : Frame)
    (s : State) : State :=
  let s1 := ((s.frameClear d).emit (.release .data d)).memWrite tpa 0#32
  if s1.frameEmpty t then
    let s2 := ((s1.frameClear t).emit (.release .table t)).memWrite dpa 0#32
    if s2.frameEmpty g then
      let s3 := (s2.frameClear g).emit (.release .dir g)
      (s3.regRemove c g).setActiveDir 0#12
    else s2
  else s1

/-- UNMAP va (R90). With UNMAP_ZERO_IS_NOOP a Table entry that is 0 ends it at once (R9, D31; log 12);
by default that entry frees frame 0's bit (R92). -/
def unmapCmd (c : Params) (va : VAddr) (s : State) : State :=
  if !frameAligned va then s.raise .alignmentError
  else if s.activeDir < Config.firstFreeFrame then s.raise .invalidContext
  else
    let g := s.activeDir
    let dpa := frameWord g (dirIndex va)
    let t := entryFrame (s.mem dpa)
    if t < Config.firstFreeFrame then s.raise .invalidMapping
    else
      let tpa := frameWord t (tabIndex va)
      let te := s.mem tpa
      if c.unmapZeroIsNoop && te == 0#32 then s.finish 0#32
      else (unmapCascade c g dpa t tpa (entryFrame te) s).finish 0#32

/-- MAP's meaning. -/
def execMap (va : VAddr) (s : State) : Host.Outcome State Fault Refusal :=
  .next (mapCmd Config.params va s)

/-- UNMAP's meaning. -/
def execUnmap (va : VAddr) (s : State) : Host.Outcome State Fault Refusal :=
  .next (unmapCmd Config.params va s)

end Sys2Proof.Machine
end

