-- ==== Sys2Proof/Machine/Swap.lean ====
section
/-! DEFINITION. SFIND, DUMP and RESTORE (spec/44_swap.md R100 to R103). -/

namespace Sys2Proof.Machine

/-- SFIND (R100): the mirror only, unless PERSIST_ON_SFIND (R9, D30). -/
def sfindCmd (c : Params) (s : State) : State :=
  match s.sectorScan c with
  | none => s.raise .outOfSectors
  | some i =>
    let t := s.sectorSet c i
    (if c.persistOnSfind then t.persistSwap c else t).finish (BitVec.ofNat 32 i)

/-- DUMP frame, sector (R101): no check; the swap bitmap is not looked at. -/
def dumpCmd (frame : Frame) (sector : Sector) (s : State) : State :=
  ((s.frameToSector frame sector).emit (.swapio .dump frame sector)).finish 0#32

/-- RESTORE sector, frame (R102), its steps in the rule's order. -/
def restoreCmd (c : Params) (sector : Sector) (frame : Frame) (s : State) : State :=
  let t := ((s.sectorToFrame sector frame).sectorClear c sector.toNat).persistSwap c
  (t.emit (.swapio .restore frame sector)).finish 0#32

/-- SFIND's meaning. -/
def execSfind (s : State) : Host.Outcome State Fault Refusal :=
  .next (sfindCmd Config.params s)

/-- DUMP's meaning. -/
def execDump (frame : Frame) (sector : Sector) (s : State) : Host.Outcome State Fault Refusal :=
  .next (dumpCmd frame sector s)

/-- RESTORE's meaning. -/
def execRestore (sector : Sector) (frame : Frame) (s : State) : Host.Outcome State Fault Refusal :=
  .next (restoreCmd Config.params sector frame s)

end Sys2Proof.Machine
end

