-- ==== Sys2Proof/Machine/Dispatch.lean ====
section
/-! DEFINITION. One arm per command. -/

namespace Sys2Proof.Machine

def exec (i : Instr) (s : State) : Host.Outcome State Fault Refusal :=
  match i with
  | .read va => Sys2Proof.Machine.execRead va s
  | .write va => Sys2Proof.Machine.execWrite va s
  | .map va => Sys2Proof.Machine.execMap va s
  | .unmap va => Sys2Proof.Machine.execUnmap va s
  | .switch pid => Sys2Proof.Machine.execSwitch pid s
  | .find => Sys2Proof.Machine.execFind s
  | .falloc => Sys2Proof.Machine.execFalloc s
  | .ffree frame => Sys2Proof.Machine.execFfree frame s
  | .sfind => Sys2Proof.Machine.execSfind s
  | .dump frame sector => Sys2Proof.Machine.execDump frame sector s
  | .restore sector frame => Sys2Proof.Machine.execRestore sector frame s
  | .init => Sys2Proof.Machine.execInit s

end Sys2Proof.Machine
end

