-- ==== Sys2Proof/Machine/HostPort.lean ====
section
/-! DEFINITION. The host port: the seven registers, a write to CMD running its command, and one input
taken from the outside (spec/10_state.md R18, R26 to R29, R34; spec/45_control.md R105). -/

namespace Sys2Proof.Machine

/-- The byte offset of a host register (R18). -/
def hostOffset : HostReg → Nat
  | .cmd => 0x00
  | .wdata => 0x04
  | .rdata => 0x08
  | .status => 0x0C
  | .ctx => 0x10
  | .fva => 0x14
  | .fent => 0x18

/-- What a host read of an aligned offset in 0x00..0x3F returns (R26, R27): CMD and 0x1C..0x3F read 0. -/
def State.hostRead (s : State) (offset : Nat) : Word :=
  match offset with
  | 0x04 => s.wdata
  | 0x08 => s.rdata
  | 0x0C => s.status
  | 0x10 => ctxWord s.curPid s.activeDir
  | 0x14 => s.fva
  | 0x18 => s.fent
  | _ => 0#32

/-- A word written to CMD (R26): a legal one runs its command, an illegal one ends IllegalCommand "before
anything else" (R76, R114). -/
def runCommand (w : Word) (s : State) : Host.Outcome State Fault Refusal :=
  match decode w with
  | .ok i => exec i s
  | .error _ => .next (illegalCmd s)

/-- A host write of an aligned word to an offset in 0x00..0x3F (R26): CMD starts a command, WDATA takes the
word, every other write is ignored. -/
def hostWrite (offset : Nat) (value : Word) (s : State) : Host.Outcome State Fault Refusal :=
  match offset with
  | 0x00 => runCommand value s
  | 0x04 => .next { s with wdata := value }
  | _ => .next s

/-- Why a host access is outside the model, if it is: it is not the MMB's (R26), or it is not an aligned
32-bit access (R29). -/
def accessRefusal (offset bits : Nat) : Option Refusal :=
  if 0x3F < offset then some .hostOffsetOutsideWindow
  else if bits ≠ 32 ∨ offset % 4 ≠ 0 then some .hostAccessNotAlignedWord
  else none

/-- One input from the outside (R26, R34). -/
def takeInput (input : HostInput) (s : State) : Host.Outcome State Fault Refusal :=
  match input with
  | .hardwareReset => .next (hardwareReset s)
  | .read offset bits =>
    match accessRefusal offset bits with
    | some r => .refused r
    | none => .next { s with hostReads := s.hostReads ++ [s.hostRead offset] }
  | .write offset bits value =>
    match accessRefusal offset bits with
    | some r => .refused r
    | none => hostWrite offset value s

/-- One step of the machine: the oldest input is taken; with none waiting the MMB is idle and "no state
changes while idle" (R105, R123; log 3). -/
def hostStep (s : State) : Host.Outcome State Fault Refusal :=
  match s.inputs with
  | [] => .next s
  | input :: rest => takeInput input { s with inputs := rest }

/-- The state with a word waiting to be written to CMD before anything else the outside will do (log 5). -/
def State.withCommand (s : State) (w : Word) : State :=
  { s with inputs := .write (hostOffset .cmd) 32 w :: s.inputs }

end Sys2Proof.Machine
end

