-- ==== Sys2Proof/Machine/Step.lean ====
section
/-! DEFINITION. The step, and a command placed where the next step takes it. -/

namespace Sys2Proof.Machine

/-- One step: the oldest input from the outside is taken (R8, R26). -/
def step (s : State) : Host.Outcome State Fault Refusal := hostStep s

/-- The state in which the next step runs the command word w. The MMB fetches nothing (R28): a command
runs when the host writes it to CMD, so the write is put first among the inputs (log 5). The word is the
low 32 bits of w; every command has 32 bits (R68). -/
def State.withFetchWord (s : State) (_nbits w : Nat) : State := s.withCommand (BitVec.ofNat 32 w)

end Sys2Proof.Machine
end

