-- ==== Sys2Proof/Machine/Assembler.lean ====
section
/-! DEFINITION. The assembler syntax and the host-side notation (spec/30_encoding.md R80, R81): what each
line of a program does on the host bus, and which lines an assembler refuses. -/

namespace Sys2Proof.Machine

/-- A number that fits a field of `bits` bits; "An assembler refuses an operand that does not fit its
field" (R80). -/
def fitsField (bits n : Nat) : Option (BitVec bits) :=
  if n < 2 ^ bits then some (BitVec.ofNat bits n) else none

/-- A sector operand: it fits its field and is below NUM_SECTORS (R80). -/
def fitsSector (c : Params) (n : Nat) : Option Sector :=
  if n < c.numSectors then fitsField 13 n else none

/-- `wr REG, value`: REG is WDATA or CMD (R81); a value that does not fit 32 bits is refused (log 17). -/
def assembleWr (reg : HostReg) (value : Nat) : Option (List HostInput) :=
  if reg = .wdata ∨ reg = .cmd then
    (fitsField 32 value).map fun v => [.write (hostOffset reg) 32 v]
  else none

/-- A command line stands for `wr CMD, <its encoding>` (R81). -/
def commandLine (i : Instr) : List HostInput := [.write (hostOffset .cmd) 32 (encode i)]

/-- The host accesses a line stands for, `none` where the assembler refuses it (R80, R81). -/
def assembleWith (c : Params) : AsmLine → Option (List HostInput)
  | .READ va => (fitsField 24 va).map fun va => commandLine (.read va)
  | .WRITE va => (fitsField 24 va).map fun va => commandLine (.write va)
  | .WRITEDATA va data => do
    let va ← fitsField 24 va
    let wr ← assembleWr .wdata data
    return wr ++ commandLine (.write va)
  | .MAP va => (fitsField 24 va).map fun va => commandLine (.map va)
  | .UNMAP va => (fitsField 24 va).map fun va => commandLine (.unmap va)
  | .SWITCH pid => (fitsField 8 pid).map fun pid => commandLine (.switch pid)
  | .FIND => some (commandLine .find)
  | .FALLOC => some (commandLine .falloc)
  | .FFREE frame => (fitsField 12 frame).map fun frame => commandLine (.ffree frame)
  | .SFIND => some (commandLine .sfind)
  | .DUMP frame sector => do
    let frame ← fitsField 12 frame
    let sector ← fitsSector c sector
    return commandLine (.dump frame sector)
  | .RESTORE sector frame => do
    let sector ← fitsSector c sector
    let frame ← fitsField 12 frame
    return commandLine (.restore sector frame)
  | .INIT => some (commandLine .init)
  | .wr reg value => assembleWr reg value
  | .rd reg => some [.read (hostOffset reg) 32]

/-- This hardware's assembler. -/
def assemble (line : AsmLine) : Option (List HostInput) := assembleWith Config.params line

/-- A program, line after line; refused if a line is. -/
def assembleProgram : List AsmLine → Option (List HostInput)
  | [] => some []
  | line :: rest => do
    let here ← assemble line
    let after ← assembleProgram rest
    return here ++ after

end Sys2Proof.Machine
end

