-- ==== Sys2Proof/Safety.lean ====
section
/-! DEFINITION. The terms claims are stated in: what the scans look for, said without a scan; the entries the
walk reads; the words MAP and UNMAP may store to; and the invariant of the machine. All at R9's values. -/

namespace Sys2Proof.Machine

/-! ### Frames, slots and sectors, said without a scan -/

/-- The frame of a physical address (R36). -/
def frameOf (pa : PAddr) : Frame := pa.extractLsb' 8 12

/-- The free-frame bitmap's word that holds frame f's bit (R43). -/
def bitmapWord (f : Frame) : PAddr := BitVec.ofNat 20 (f.toNat / 32)

/-- The swap mirror's word that holds sector i's bit (R49). -/
def mirrorWord (i : Nat) : PAddr := BitVec.ofNat 20 (0xF00 + i / 32)

/-- Every bit of the free-frame bitmap is 1. -/
def State.allFramesUsed (s : State) : Prop := ∀ f : Frame, s.frameUsed f = true

/-- The lowest frame whose bit is 0: what frame_scan looks for (R50). -/
def State.lowestFree (s : State) (f : Frame) : Prop :=
  s.frameUsed f = false ∧ ∀ g : Frame, g < f → s.frameUsed g = true

/-- The lowest frame above f whose bit is 0. -/
def State.nextFree (s : State) (f g : Frame) : Prop :=
  f < g ∧ s.frameUsed g = false ∧ ∀ h : Frame, f < h → h < g → s.frameUsed h = true

/-- Frames 0..15 are marked used, as INIT leaves them (R35, R42). -/
def State.reservedUsed (s : State) : Prop :=
  ∀ f : Frame, f < Config.firstFreeFrame → s.frameUsed f = true

/-- The registry's slot k (R44). -/
def State.slot (s : State) (k : Nat) : Word := s.mem (slotAddr Config.params k)

/-- Slot k is an entry that carries the tag (R44, R53). -/
def State.carries (s : State) (pid : Pid) (k : Nat) : Prop :=
  s.slot k ≠ 0#32 ∧ entryOwner Config.params (s.slot k) = pid

/-- Slot k is the lowest entry with the tag: what reg_find looks for (R53). -/
def State.registeredAt (s : State) (pid : Pid) (k : Nat) : Prop :=
  k < 3584 ∧ s.carries pid k ∧ ∀ j, j < k → ¬ s.carries pid j

/-- No slot carries the tag. -/
def State.unregistered (s : State) (pid : Pid) : Prop := ∀ k, k < 3584 → ¬ s.carries pid k

/-- Slot k is the lowest free slot: what reg_free_slot looks for (R54). -/
def State.lowestFreeSlot (s : State) (k : Nat) : Prop :=
  k < 3584 ∧ s.slot k = 0#32 ∧ ∀ j, j < k → s.slot j ≠ 0#32

/-- Sector i's bit in the swap mirror (R49). -/
def State.mirrorBit (s : State) (i : Sector) : Bool := s.sectorUsed Config.params i.toNat

/-! ### The words a walk reads (R57) -/

/-- The address of the Directory entry for va. -/
def State.dirEntryAddr (s : State) (va : VAddr) : PAddr := frameWord s.activeDir (dirIndex va)

/-- The Directory entry for va. -/
def State.dirEntry (s : State) (va : VAddr) : Word := s.mem (s.dirEntryAddr va)

/-- The address of the Table entry for va. -/
def State.tabEntryAddr (s : State) (va : VAddr) : PAddr :=
  frameWord (entryFrame (s.dirEntry va)) (tabIndex va)

/-- The Table entry for va. -/
def State.tabEntry (s : State) (va : VAddr) : Word := s.mem (s.tabEntryAddr va)

/-- Where va leads when both levels let the access through. -/
def State.dataAddr (s : State) (va : VAddr) : PAddr :=
  frameWord (entryFrame (s.tabEntry va)) (wordOffset va)

/-- The entry satisfies the permission check of R56 for the current process. -/
def State.permits (s : State) (e : Word) : Bool := entryOk Config.params s.curPid e

/-! ### Illegal command words -/

/-- The words R76 calls illegal: a reserved opcode, a reserved bit of the opcode's format that is 1, or a
sector that does not exist. -/
def illegalWord (w : Word) : Prop :=
  let op := w.extractLsb' 28 4
  (op = 0x0#4 ∨ op = 0xC#4 ∨ op = 0xD#4 ∨ op = 0xE#4) ∨
  ((op = 0x1#4 ∨ op = 0x2#4 ∨ op = 0x3#4 ∨ op = 0x4#4) ∧ w.extractLsb' 24 4 ≠ 0#4) ∨
  (op = 0x5#4 ∧ w.extractLsb' 8 20 ≠ 0#20) ∨
  (op = 0x8#4 ∧ w.extractLsb' 12 16 ≠ 0#16) ∨
  ((op = 0xA#4 ∨ op = 0xB#4) ∧
    (w.extractLsb' 25 3 ≠ 0#3 ∨ Config.params.numSectors ≤ (w.extractLsb' 12 13).toNat)) ∨
  ((op = 0x6#4 ∨ op = 0x7#4 ∨ op = 0x9#4 ∨ op = 0xF#4) ∧ w.extractLsb' 0 28 ≠ 0#28)

/-! ### What MAP and UNMAP may store to -/

/-- The addresses MAP's Step 1 stores to: with a new Directory f in slot k, f's bitmap word, f's words and
the slot. -/
def State.mapDirectoryStores (s : State) (pa : PAddr) : Bool :=
  match s.regFind Config.params s.curPid, s.frameScan Config.params, s.regFreeSlot Config.params with
  | none, some f, some k => pa == bitmapWord f || frameOf pa == f || pa == slotAddr Config.params k
  | _, _, _ => false

/-- The addresses MAP's Step 2 or 3 stores to: the entry at `ea`, and with a new frame f its bitmap word and,
for a Table, its words. -/
def State.mapEntryStores (s : State) (role : Role) (ea pa : PAddr) : Bool :=
  if entryFrame (s.mem ea) = 0#12 then
    match s.frameScan Config.params with
    | none => false
    | some f => pa == ea || pa == bitmapWord f || (role == .table && frameOf pa == f)
  else pa == ea

/-- The addresses MAP stores to, step by step, each step's in the state the steps before it left; none when it
began with every frame used and Step 3 needs one (R88). -/
def State.mapStores (s : State) (va : VAddr) (pa : PAddr) : Bool :=
  if !frameAligned va || s.curPid == 0#8 then false
  else
    match mapDirectory Config.params s with
    | .error _ => false
    | .ok s1 =>
      let dpa := frameWord s1.activeDir (dirIndex va)
      match mapEntry Config.params .table dpa s1 with
      | .error _ => s.mapDirectoryStores pa
      | .ok (s2, t) =>
        let tpa := frameWord t (tabIndex va)
        !mapExhausted Config.params s s2 tpa &&
          (s.mapDirectoryStores pa || s1.mapEntryStores .table dpa pa || s2.mapEntryStores .data tpa pa)

/-- The addresses UNMAP stores to: the data frame's bitmap word and the Table entry; once the Table is
empty, its bitmap word and the Directory entry; once the Directory is empty, its bitmap word and the
registry slots that name it. -/
def State.unmapStores (s : State) (va : VAddr) (pa : PAddr) : Bool :=
  let g := s.activeDir
  let t := entryFrame (s.dirEntry va)
  let d := entryFrame (s.tabEntry va)
  if !frameAligned va || decide (g < Config.firstFreeFrame) || decide (t < Config.firstFreeFrame) then
    false
  else
    let s1 := (s.frameClear d).memWrite (s.tabEntryAddr va) 0#32
    let s2 := (s1.frameClear t).memWrite (s.dirEntryAddr va) 0#32
    pa == bitmapWord d || pa == s.tabEntryAddr va ||
      s1.frameEmpty t && (pa == bitmapWord t || pa == s.dirEntryAddr va ||
        s2.frameEmpty g && (pa == bitmapWord g ||
          decide (0x100 ≤ pa.toNat ∧ pa.toNat < 0xF00) && entryFrame (s2.mem pa) == g))

/-! ### Frames in use by software (R66) -/

/-- f is a registered Directory. -/
def State.isDir (s : State) (f : Frame) : Prop :=
  ∃ k, k < 3584 ∧ s.slot k ≠ 0#32 ∧ entryFrame (s.slot k) = f

/-- f is the Table that entry i of the registered Directory g links. -/
def State.linksTable (s : State) (g : Frame) (i : Offset) (f : Frame) : Prop :=
  s.isDir g ∧ entryFrame (s.mem (frameWord g i)) = f ∧ f ≠ 0#12

/-- f is a Table of a registered Directory. -/
def State.isTable (s : State) (f : Frame) : Prop := ∃ g i, s.linksTable g i f

/-- f is the data frame that entry j of the Table t links. -/
def State.linksData (s : State) (t : Frame) (j : Offset) (f : Frame) : Prop :=
  s.isTable t ∧ entryFrame (s.mem (frameWord t j)) = f ∧ f ≠ 0#12

/-- f is a data frame of a Table. -/
def State.isData (s : State) (f : Frame) : Prop := ∃ t j, s.linksData t j f

/-- Frame conservation: "the set of frames marked used in FreeFrameBitmap equals exactly the reserved frames
and the frames reachable by walking every live Directory/Table/data structure" (R66). -/
def State.framesConserved (s : State) : Prop :=
  ∀ f, s.frameUsed f = true ↔
    f < Config.firstFreeFrame ∨ s.isDir f ∨ s.isTable f ∨ s.isData f

/-- The structures MAP builds are a forest: no reachable frame is reserved, none has two roles, and none is
linked from two places. -/
structure State.forest (s : State) : Prop where
  dir_free : ∀ f, s.isDir f → ¬ f < Config.firstFreeFrame
  table_free : ∀ f, s.isTable f → ¬ f < Config.firstFreeFrame
  data_free : ∀ f, s.isData f → ¬ f < Config.firstFreeFrame
  dir_not_table : ∀ f, s.isDir f → ¬ s.isTable f
  dir_not_data : ∀ f, s.isDir f → ¬ s.isData f
  table_not_data : ∀ f, s.isTable f → ¬ s.isData f
  dir_once : ∀ j k, j < 3584 → k < 3584 → s.slot j ≠ 0#32 → s.slot k ≠ 0#32 →
    entryFrame (s.slot j) = entryFrame (s.slot k) → j = k
  table_once : ∀ f g g' i i', s.linksTable g i f → s.linksTable g' i' f → g = g' ∧ i = i'
  data_once : ∀ f t t' j j', s.linksData t j f → s.linksData t' j' f → t = t' ∧ j = j'

/-! ### The invariant -/

/-- Both stores are in canonical form and inside their address spaces (R36, R37). -/
def State.storesWf (s : State) : Prop :=
  s.frames.wf Config.frameStoreWords = true ∧
    s.disk.wf (Config.params.numSectors * Config.frameWords) = true

/-- STATUS is a word R23 and R106 allow, and RDATA agrees with it: 0 with every code but OK (R22); PFD only
with OK or FatalFault, PFT only with OK, since those are the codes an access with a continued fault can
end with (R107, R113). -/
def State.statusLegal (s : State) : Prop :=
  ∃ (st : Status) (pfd pft : Bool), s.status = statusWord st pfd pft ∧
    (st ≠ .ok → s.rdata = 0#32) ∧ (pfd = true → st = .ok ∨ st = .fatalFault) ∧
    (pft = true → st = .ok)

/-- FVA and FENT record no fault, or one that R24, R25, R57 and R110 allow: a context fault is fatal with
FENT = 0; at the other levels the fault is fatal exactly when the entry's FRAME is below 16. -/
def State.faultRecordLegal (s : State) : Prop :=
  (s.fva = 0#32 ∧ s.fent = 0#32) ∨
    ∃ (fatal : Bool) (level : Level) (va : VAddr), s.fva = faultWord fatal level va ∧
      (level = .ctx → fatal = true ∧ s.fent = 0#32) ∧
      (level ≠ .ctx → (fatal = true ↔ entryFrame s.fent < Config.firstFreeFrame))

/-- The invariant every step keeps. -/
def State.Inv (s : State) : Prop := s.storesWf ∧ s.statusLegal ∧ s.faultRecordLegal

end Sys2Proof.Machine
end

