-- ==== Sys2Proof/Certificates/Slice0/Obligations.lean ====
section
/-! DEFINITION. What is claimed of the machine, from the numbered rules of spec/. Every claim about memory holds
whatever MEM_INIT and DISK_INIT are: it is about every state. -/

open Sys2Proof Sys2Proof.Machine

/-! ### Encoding -/

/-- Decoding the word of a legal command gives the command back, every operand at every value, for every
NUM_SECTORS (spec/30_encoding.md). -/
def Obligations.DecodeOfEncodeIsTheCommand : Prop :=
  ∀ (c : Params) (i : Instr), i.wellFormedWith c = true → decodeWith c (encode i) = .ok i

/-- A word that decodes is the word of the command it decodes to, and that command is well-formed. -/
def Obligations.EncodeOfDecodeIsTheWord : Prop :=
  ∀ (c : Params) (w : Word) (i : Instr), decodeWith c w = .ok i →
    encode i = w ∧ i.wellFormedWith c = true

/-- R78: decoding is total, a legal word matches exactly one row of opcode_table.json, its command's, and an
illegal word matches none. -/
def Obligations.OpcodeRowsPartitionTheLegalWords : Prop :=
  ∀ w : Word,
    (∀ i, decode w = .ok i →
      (opcodeTable.filter fun r => r.accepts w).map OpRow.mnemonic = [i.mnemonic]) ∧
    (∀ e, decode w = .error e → ∀ r ∈ opcodeTable, r.accepts w = false) ∧
    ((∃ i, decode w = .ok i) ∨ illegalWord w)

/-- R75: every operand is its unsigned field, taken as it is. -/
def Obligations.OperandsAreTheFieldsAsTheyStand : Prop :=
  ∀ (w : Word) (i : Instr), decode w = .ok i →
    match i with
    | .read va | .write va | .map va | .unmap va => va.toNat = w.toNat % 2 ^ 24
    | .switch pid => pid.toNat = w.toNat % 2 ^ 8
    | .ffree frame => frame.toNat = w.toNat % 2 ^ 12
    | .dump frame sector | .restore sector frame =>
      frame.toNat = w.toNat % 2 ^ 12 ∧ sector.toNat = w.toNat / 2 ^ 12 % 2 ^ 13
    | .find | .falloc | .sfind | .init => True

/-- R76: exactly the words the rule lists are illegal, and one written to CMD ends IllegalCommand with
nothing changed but STATUS and RDATA. -/
def Obligations.IllegalWordsEndIllegalCommand : Prop :=
  ∀ w : Word,
    (illegalWord w ↔ ∃ e, decode w = .error e) ∧
    (illegalWord w → ∀ (s : State) (rest : List HostInput), s.inputs = .write 0x00 32 w :: rest →
      step s = .next { s with inputs := rest, status := 0x9#32, rdata := 0#32 })

/-- Words of the spec's own vectors, one for each format and more, decode to their commands. -/
def Obligations.SampleWordsDecode : Prop :=
  decode 0x10000005#32 = .ok (.read 0x000005#24) ∧
  decode 0x20000005#32 = .ok (.write 0x000005#24) ∧
  decode 0x30010000#32 = .ok (.map 0x010000#24) ∧
  decode 0x40000100#32 = .ok (.unmap 0x000100#24) ∧
  decode 0x50000001#32 = .ok (.switch 0x01#8) ∧
  decode 0x60000000#32 = .ok .find ∧
  decode 0x80000010#32 = .ok (.ffree 16#12) ∧
  decode 0xA0001012#32 = .ok (.dump 18#12 1#13) ∧
  decode 0xB0001013#32 = .ok (.restore 1#13 19#12) ∧
  decode 0xF0000000#32 = .ok .init

/-! ### The host port -/

/-- A step runs the decoded command: a legal word the host writes to CMD is executed, in the state without
that input. The second clause is about the model's own withFetchWord (log 5, DESIGN CHOICE), which no rule of the
spec gives: it puts the low 32 bits of w where the next step takes them as such a write. -/
def Obligations.StepRunsTheDecodedCommand : Prop :=
  (∀ (s : State) (w : Word) (i : Instr) (rest : List HostInput),
    s.inputs = .write 0x00 32 w :: rest → decode w = .ok i → step s = exec i { s with inputs := rest }) ∧
  (∀ (s : State) (nbits w : Nat) (i : Instr),
    decode (BitVec.ofNat 32 w) = .ok i → step (s.withFetchWord nbits w) = exec i s)

/-- R27 and the register map of R18 and R26: what aligned 32-bit accesses inside 0x00..0x3F do. Reads return
the registers, CTX as R27 composes it, and 0 for CMD and for 0x1C..0x3F; a write to WDATA is taken, one to
any other offset but CMD is ignored. -/
def Obligations.HostPortFollowsTheRegisterMap : Prop :=
  ∀ (s : State) (rest : List HostInput) (offset : Nat), offset ≤ 0x3F → offset % 4 = 0 →
    (s.inputs = .read offset 32 :: rest →
      ∃ v : Word, step s = .next { s with inputs := rest, hostReads := s.hostReads ++ [v] } ∧
        (offset = 0x00 → v = 0#32) ∧ (offset = 0x04 → v = s.wdata) ∧ (offset = 0x08 → v = s.rdata) ∧
        (offset = 0x0C → v = s.status) ∧
        (offset = 0x10 → v.extractLsb' 0 8 = s.curPid ∧ v.extractLsb' 8 12 = s.activeDir ∧
          v.extractLsb' 20 12 = 0#12) ∧
        (offset = 0x14 → v = s.fva) ∧ (offset = 0x18 → v = s.fent) ∧ (0x1C ≤ offset → v = 0#32)) ∧
    (∀ v : Word, s.inputs = .write offset 32 v :: rest →
      (offset = 0x04 → step s = .next { s with inputs := rest, wdata := v }) ∧
      (offset ≠ 0x00 → offset ≠ 0x04 → step s = .next { s with inputs := rest }))

/-- R29: a host access of another width or alignment is refused, whatever the state. -/
def Obligations.UnalignedOrOddWidthAccessIsRefused : Prop :=
  ∀ (s : State) (rest : List HostInput) (offset bits : Nat) (v : Word),
    offset ≤ 0x3F → (bits ≠ 32 ∨ offset % 4 ≠ 0) →
    (s.inputs = .read offset bits :: rest ∨ s.inputs = .write offset bits v :: rest) →
    step s = .refused .hostAccessNotAlignedWord

/-- A step that runs no command: with no input waiting the machine is idle and its state does not change (R105,
R123; that a step then answers the same state is log 3's); and the hardware-reset input puts a machine in the
state after reset with what its stores hold as MEM_INIT and DISK_INIT (log 6's reading of R34). -/
def Obligations.StepWithoutACommand : Prop :=
  (∀ s : State, s.inputs = [] → step s = .next s) ∧
  ∀ (s : State) (rest : List HostInput), s.inputs = .hardwareReset :: rest →
    step s = .next { State.resetWith s.frames s.disk with inputs := rest, hostReads := s.hostReads }

/-- R34: the state after hardware reset, for every MEM_INIT and DISK_INIT. -/
def Obligations.HardwareResetState : Prop :=
  ∀ m d : Memory, let s := State.resetWith m d
    s.curPid = 0#8 ∧ s.activeDir = 0#12 ∧ s.wdata = 0#32 ∧ s.rdata = 0#32 ∧ s.status = 0#32 ∧
    s.fva = 0#32 ∧ s.fent = 0#32 ∧ s.trace = [] ∧
    (∀ pa, s.mem pa = m.read pa.toNat) ∧ ∀ k i, s.diskRead k i = d.read (diskAddr k.toNat i.toNat)

/-- The pseudo-instruction `WRITE va, data` (spec/30_encoding.md, R80, R81): its two host accesses, taken one step
each, put data in WDATA and run WRITE va; an operand that does not fit its field is refused. -/
def Obligations.WriteLineIsTwoHostAccesses : Prop :=
  ∀ (s : State) (va data : Nat),
    (va < 2 ^ 24 → data < 2 ^ 32 →
      ∃ (first second : HostInput) (t : State), assemble (.WRITEDATA va data) = some [first, second] ∧
        step { s with inputs := [first, second] } = .next t ∧
        step t = exec (.write (BitVec.ofNat 24 va)) { s with inputs := [], wdata := BitVec.ofNat 32 data }) ∧
    (2 ^ 24 ≤ va ∨ 2 ^ 32 ≤ data → assemble (.WRITEDATA va data) = none)

/-! ### Entries and the fault handler -/

/-- R56: entry_ok is V and R and RW and FRAME >= 16 and OWNER = CUR_PID; D and bits [23:16] play no part. -/
def Obligations.EntryCheckIsTheFiveConditions : Prop :=
  ∀ (pid : Pid) (e : Word), entryOk Config.params pid e = true ↔
    e.getLsbD 12 = true ∧ e.getLsbD 14 = true ∧ e.getLsbD 15 = true ∧
      16 ≤ (e.extractLsb' 0 12).toNat ∧ e.extractLsb' 24 8 = pid

/-- R110: the built-in handler aborts an entry whose FRAME is below FIRST_FREE_FRAME and lets every other
continue, whatever its flags and owner. -/
def Obligations.HandlerAbortsReservedFramesOnly : Prop :=
  ∀ (va : VAddr) (perm e : Word),
    ((e.extractLsb' 0 12).toNat < 16 → faultHandler Config.params va perm e = .abort) ∧
    (16 ≤ (e.extractLsb' 0 12).toNat → faultHandler Config.params va perm e = .proceed)

/-- R47: packing then unpacking gives the record back at either place of the owner tag; unpacking then packing
a word differs from it in bits [23:16] only; and PERM_REQ = V|R|RW is the flag set MAP writes. -/
def Obligations.PtePackingRoundTrips : Prop :=
  (∀ (c : Params) (p : Pte), pteUnpack c (ptePack c p) = p) ∧
  (∀ e : Word, ptePack Config.params (pteUnpack Config.params e) = e &&& 0xFF00FFFF#32) ∧
  (∀ (pid : Pid) (f : Frame), mapPte Config.params pid f = pid ++ 0x00#8 ++ 0xD#4 ++ f) ∧
  Config.permReq = 0x0000D000#32

/-! ### READ and WRITE -/

/-- READ completes on every va both of whose entries name frames that are not reserved (R57, R83, R86, R107):
RDATA is the word at the translated address; a level whose entry fails entry_ok is logged in STATUS, FVA,
FENT and the trace, the second log over the first; nothing else changes. -/
def Obligations.ReadReturnsTheTranslatedWord : Prop :=
  ∀ (s : State) (va : VAddr), 16 ≤ s.activeDir.toNat → 16 ≤ (entryFrame (s.dirEntry va)).toNat →
    16 ≤ (entryFrame (s.tabEntry va)).toNat →
    exec (.read va) s = .next { s with
      rdata := s.mem (s.dataAddr va)
      status := (if s.permits (s.dirEntry va) then 0x000#32 else 0x100#32) |||
        (if s.permits (s.tabEntry va) then 0x000#32 else 0x200#32)
      fva := if s.permits (s.tabEntry va) then
          if s.permits (s.dirEntry va) then s.fva else 0x01#8 ++ va
        else 0x02#8 ++ va
      fent := if s.permits (s.tabEntry va) then
          if s.permits (s.dirEntry va) then s.fent else s.dirEntry va
        else s.tabEntry va
      trace := s.trace ++
        (if s.permits (s.dirEntry va) then [] else [.perm va .dir (s.dirEntry va)]) ++
        (if s.permits (s.tabEntry va) then [] else [.perm va .tab (s.tabEntry va)]) ++
        [.access .read va (s.dataAddr va) (s.mem (s.dataAddr va))] }

/-- WRITE completes under the same conditions (R84, R86, R107): the translated word takes WDATA, every other
word is as it was, RDATA is 0, and the logs are READ's. -/
def Obligations.WriteStoresWdataAtTheTranslatedWord : Prop :=
  ∀ (s : State) (va : VAddr), 16 ≤ s.activeDir.toNat → 16 ≤ (entryFrame (s.dirEntry va)).toNat →
    16 ≤ (entryFrame (s.tabEntry va)).toNat →
    ∃ u : State, exec (.write va) s = .next u ∧
      (∀ pa, u.mem pa = if pa = s.dataAddr va then s.wdata else s.mem pa) ∧
      u = { s with
        frames := u.frames
        rdata := 0#32
        status := (if s.permits (s.dirEntry va) then 0x000#32 else 0x100#32) |||
          (if s.permits (s.tabEntry va) then 0x000#32 else 0x200#32)
        fva := if s.permits (s.tabEntry va) then
            if s.permits (s.dirEntry va) then s.fva else 0x01#8 ++ va
          else 0x02#8 ++ va
        fent := if s.permits (s.tabEntry va) then
            if s.permits (s.dirEntry va) then s.fent else s.dirEntry va
          else s.tabEntry va
        trace := s.trace ++
          (if s.permits (s.dirEntry va) then [] else [.perm va .dir (s.dirEntry va)]) ++
          (if s.permits (s.tabEntry va) then [] else [.perm va .tab (s.tabEntry va)]) ++
          [.access .write va (s.dataAddr va) s.wdata] }

/-- R108 and R111: a READ or WRITE whose walk aborts ends FatalFault, and the state is the state before it plus
exactly STATUS, RDATA = 0, the fault record and the trace events, at the context level, the Directory level
or the Table level; there PFD is set when the Directory level continued (R113). -/
def Obligations.AbortedAccessLeavesOnlyTheFaultRecord : Prop :=
  ∀ (s : State) (va : VAddr),
    (s.activeDir.toNat < 16 → ∀ i, i = .read va ∨ i = .write va →
      exec i s = .next { s with
        rdata := 0#32, status := 0x7#32, fva := 0x13#8 ++ va, fent := 0#32
        trace := s.trace ++ [.fatal va .ctx 0#32] }) ∧
    (16 ≤ s.activeDir.toNat → (entryFrame (s.dirEntry va)).toNat < 16 →
      ∀ i, i = .read va ∨ i = .write va →
      exec i s = .next { s with
        rdata := 0#32, status := 0x7#32, fva := 0x11#8 ++ va, fent := s.dirEntry va
        trace := s.trace ++ [.fatal va .dir (s.dirEntry va)] }) ∧
    (16 ≤ s.activeDir.toNat → 16 ≤ (entryFrame (s.dirEntry va)).toNat →
      (entryFrame (s.tabEntry va)).toNat < 16 → ∀ i, i = .read va ∨ i = .write va →
      exec i s = .next { s with
        rdata := 0#32
        status := if s.permits (s.dirEntry va) then 0x007#32 else 0x107#32
        fva := 0x12#8 ++ va, fent := s.tabEntry va
        trace := s.trace ++
          (if s.permits (s.dirEntry va) then [] else [.perm va .dir (s.dirEntry va)]) ++
          [.fatal va .tab (s.tabEntry va)] })

/-- The frame of READ and WRITE (R38, R59): READ stores nothing; WRITE stores at most the one word the walk's
own result names, so no PTE is touched by the walk. Neither changes the context, WDATA, the DiskStore or
the host's side. -/
def Obligations.AccessFrame : Prop :=
  ∀ (s u : State) (va : VAddr),
    (exec (.read va) s = .next u ∨ exec (.write va) s = .next u →
      u.curPid = s.curPid ∧ u.activeDir = s.activeDir ∧ u.wdata = s.wdata ∧ u.disk = s.disk ∧
        u.inputs = s.inputs ∧ u.hostReads = s.hostReads) ∧
    (exec (.read va) s = .next u → ∀ pa, u.mem pa = s.mem pa) ∧
    (exec (.write va) s = .next u →
      ∀ pa, (walk Config.params va s).result ≠ .ok pa → u.mem pa = s.mem pa)

/-- The stale Directory after SWITCH (spec/70_reset_and_hazards.md, R128): with both entries for va good for the
old process, a READ right after a SWITCH to another one walks the old Directory, reads the old process's
word, and reports PFD and PFT. -/
def Obligations.SwitchLeavesAStaleDirectory : Prop :=
  ∀ (s : State) (va : VAddr) (pid : Pid), pid ≠ 0#8 → pid ≠ s.curPid → 16 ≤ s.activeDir.toNat →
    s.permits (s.dirEntry va) = true → s.permits (s.tabEntry va) = true →
    ∃ u v : State, exec (.switch pid) s = .next u ∧ exec (.read va) u = .next v ∧
      v.curPid = pid ∧ v.activeDir = s.activeDir ∧ v.rdata = s.mem (s.dataAddr va) ∧
      v.status = 0x300#32

/-! ### MAP -/

/-- MAP's preconditions, in R114's order: a va that is not frame-aligned, then no current process. Only STATUS
and RDATA change. -/
def Obligations.MapChecksAlignmentThenContext : Prop :=
  ∀ (s : State) (va : VAddr),
    (va.extractLsb' 0 8 ≠ 0#8 → exec (.map va) s = .next { s with status := 0x1#32, rdata := 0#32 }) ∧
    (va.extractLsb' 0 8 = 0#8 → s.curPid = 0#8 →
      exec (.map va) s = .next { s with status := 0x2#32, rdata := 0#32 })

/-- MAP for a process with no Directory (R87, R99): the three lowest free frames become Directory, Table and
data frame, in that order. Said of every word outside the bitmap and of every frame's bit: the lowest free
slot takes the registry entry, the Directory and the Table are zero but for the two entries, and nothing
else changes, the data frame's words among it (R134). -/
def Obligations.MapBuildsAllThreeLevels : Prop :=
  ∀ (s : State) (va : VAddr) (f t d : Frame) (k : Nat),
    wordOffset va = 0#8 → s.curPid ≠ 0#8 → s.unregistered s.curPid → s.lowestFreeSlot k →
    s.lowestFree f → s.nextFree f t → s.nextFree t d → 16 ≤ f.toNat →
    ∃ u : State, exec (.map va) s = .next u ∧
      u = { s with
        frames := u.frames, activeDir := f, rdata := d.setWidth 32, status := 0#32
        trace := s.trace ++ [.struct .dir f .new, .struct .table t .new, .struct .data d .new] } ∧
      (∀ g, u.frameUsed g = (decide (g = f ∨ g = t ∨ g = d) || s.frameUsed g)) ∧
      (∀ pa : PAddr, 128 ≤ pa.toNat → u.mem pa =
        if pa = slotAddr Config.params k then s.curPid ++ 0#12 ++ f
        else if pa = frameWord f (dirIndex va) then s.curPid ++ 0x00#8 ++ 0xD#4 ++ t
        else if pa = frameWord t (tabIndex va) then s.curPid ++ 0x00#8 ++ 0xD#4 ++ d
        else if frameOf pa = f ∨ frameOf pa = t then 0#32
        else s.mem pa)

/-- MAP of a mapped address (R88): no frame is allocated, the two entries are rewritten with the same FRAMEs, the
current process as owner and flags 0xD, ACTIVE_DIR is the registered Directory, and RDATA the data frame.
It needs no free frame. -/
def Obligations.MapReusesAMappedAddress : Prop :=
  ∀ (s : State) (va : VAddr) (k : Nat) (g t d : Frame),
    wordOffset va = 0#8 → s.curPid ≠ 0#8 → s.registeredAt s.curPid k →
    g = entryFrame (s.slot k) →
    t = entryFrame (s.mem (frameWord g (dirIndex va))) → t ≠ 0#12 →
    d = entryFrame (s.mem (frameWord t (tabIndex va))) → d ≠ 0#12 →
    ∃ u : State, exec (.map va) s = .next u ∧
      u = { s with
        frames := u.frames, activeDir := g, rdata := d.setWidth 32, status := 0#32
        trace := s.trace ++ [.struct .dir g .reused, .struct .table t .reused, .struct .data d .reused] } ∧
      (∀ pa : PAddr, u.mem pa =
        if pa = frameWord t (tabIndex va) then s.curPid ++ 0x00#8 ++ 0xD#4 ++ d
        else if pa = frameWord g (dirIndex va) then s.curPid ++ 0x00#8 ++ 0xD#4 ++ t
        else s.mem pa)

/-- MAP of another page of a Table that exists (R88): a data frame only is allocated, the lowest free one. -/
def Obligations.MapAddsAPageToATable : Prop :=
  ∀ (s : State) (va : VAddr) (k : Nat) (g t d : Frame),
    wordOffset va = 0#8 → s.curPid ≠ 0#8 → s.registeredAt s.curPid k →
    g = entryFrame (s.slot k) → 16 ≤ g.toNat →
    t = entryFrame (s.mem (frameWord g (dirIndex va))) → 16 ≤ t.toNat →
    entryFrame (s.mem (frameWord t (tabIndex va))) = 0#12 → s.lowestFree d →
    ∃ u : State, exec (.map va) s = .next u ∧
      u = { s with
        frames := u.frames, activeDir := g, rdata := d.setWidth 32, status := 0#32
        trace := s.trace ++ [.struct .dir g .reused, .struct .table t .reused, .struct .data d .new] } ∧
      (∀ f, u.frameUsed f = (decide (f = d) || s.frameUsed f)) ∧
      (∀ pa : PAddr, 128 ≤ pa.toNat → u.mem pa =
        if pa = frameWord t (tabIndex va) then s.curPid ++ 0x00#8 ++ 0xD#4 ++ d
        else if pa = frameWord g (dirIndex va) then s.curPid ++ 0x00#8 ++ 0xD#4 ++ t
        else s.mem pa)

/-- MAP of a page in another Directory slot (R88): a Table, zero-filled, and a data frame are allocated. -/
def Obligations.MapAddsATableToADirectory : Prop :=
  ∀ (s : State) (va : VAddr) (k : Nat) (g t d : Frame),
    wordOffset va = 0#8 → s.curPid ≠ 0#8 → s.registeredAt s.curPid k →
    g = entryFrame (s.slot k) → 16 ≤ g.toNat → s.frameUsed g = true →
    entryFrame (s.mem (frameWord g (dirIndex va))) = 0#12 →
    s.lowestFree t → s.nextFree t d → 16 ≤ t.toNat →
    ∃ u : State, exec (.map va) s = .next u ∧
      u = { s with
        frames := u.frames, activeDir := g, rdata := d.setWidth 32, status := 0#32
        trace := s.trace ++ [.struct .dir g .reused, .struct .table t .new, .struct .data d .new] } ∧
      (∀ f, u.frameUsed f = (decide (f = t ∨ f = d) || s.frameUsed f)) ∧
      (∀ pa : PAddr, 128 ≤ pa.toNat → u.mem pa =
        if pa = frameWord t (tabIndex va) then s.curPid ++ 0x00#8 ++ 0xD#4 ++ d
        else if frameOf pa = t then 0#32
        else if pa = frameWord g (dirIndex va) then s.curPid ++ 0x00#8 ++ 0xD#4 ++ t
        else s.mem pa)

/-- MAP with every frame used (R88, R114, C4), wherever it first needs a frame, ends OutOfFrames and changes no
FrameStore word. With no Directory it changes only STATUS and RDATA; with one, ACTIVE_DIR and the trace besides.
At Step 3 too the Directory entry stays as it was, whatever its owner and flags (log 16). -/
def Obligations.MapWithEveryFrameUsed : Prop :=
  ∀ (s : State) (va : VAddr), wordOffset va = 0#8 → s.curPid ≠ 0#8 → s.allFramesUsed →
    (s.unregistered s.curPid →
      exec (.map va) s = .next { s with status := 0x4#32, rdata := 0#32 }) ∧
    (∀ (k : Nat) (g : Frame), s.registeredAt s.curPid k → g = entryFrame (s.slot k) →
      entryFrame (s.mem (frameWord g (dirIndex va))) = 0#12 →
      exec (.map va) s = .next { s with
        status := 0x4#32, rdata := 0#32, activeDir := g
        trace := s.trace ++ [.struct .dir g .reused] }) ∧
    (∀ (k : Nat) (g t : Frame), s.registeredAt s.curPid k → g = entryFrame (s.slot k) →
      t = entryFrame (s.mem (frameWord g (dirIndex va))) → t ≠ 0#12 →
      entryFrame (s.mem (frameWord t (tabIndex va))) = 0#12 →
      exec (.map va) s = .next { s with
        status := 0x4#32, rdata := 0#32, activeDir := g
        trace := s.trace ++ [.struct .dir g .reused, .struct .table t .reused] })

/-- A MAP that runs out of frames part way keeps what it built (R88, R136). With no Directory for the process and
one frame free it keeps the Directory and its registry entry; with two free, also the Table, empty and linked.
With a registered Directory whose entry is empty and one frame free it keeps the Table, empty and linked. -/
def Obligations.PartialMapIsNotRolledBack : Prop :=
  ∀ (s : State) (va : VAddr) (f : Frame) (k : Nat),
    wordOffset va = 0#8 → s.curPid ≠ 0#8 → s.frameUsed f = false → 16 ≤ f.toNat →
    (s.unregistered s.curPid → s.lowestFreeSlot k → (∀ g, g ≠ f → s.frameUsed g = true) →
      ∃ u : State, exec (.map va) s = .next u ∧
        u = { s with
          frames := u.frames, status := 0x4#32, rdata := 0#32, activeDir := f
          trace := s.trace ++ [.struct .dir f .new] } ∧
        u.allFramesUsed ∧
        ∀ pa : PAddr, 128 ≤ pa.toNat → u.mem pa =
          if pa = slotAddr Config.params k then s.curPid ++ 0#12 ++ f
          else if frameOf pa = f then 0#32 else s.mem pa) ∧
    (∀ t, s.unregistered s.curPid → s.lowestFreeSlot k → f < t → s.frameUsed t = false →
      (∀ g, g ≠ f → g ≠ t → s.frameUsed g = true) →
      ∃ u : State, exec (.map va) s = .next u ∧
        u = { s with
          frames := u.frames, status := 0x4#32, rdata := 0#32, activeDir := f
          trace := s.trace ++ [.struct .dir f .new, .struct .table t .new] } ∧
        u.allFramesUsed ∧
        ∀ pa : PAddr, 128 ≤ pa.toNat → u.mem pa =
          if pa = slotAddr Config.params k then s.curPid ++ 0#12 ++ f
          else if pa = frameWord f (dirIndex va) then s.curPid ++ 0x00#8 ++ 0xD#4 ++ t
          else if frameOf pa = f ∨ frameOf pa = t then 0#32 else s.mem pa) ∧
    (∀ g, s.registeredAt s.curPid k → g = entryFrame (s.slot k) → g ≠ 0#12 → g ≠ f →
      entryFrame (s.mem (frameWord g (dirIndex va))) = 0#12 → (∀ h, h ≠ f → s.frameUsed h = true) →
      ∃ u : State, exec (.map va) s = .next u ∧
        u = { s with
          frames := u.frames, status := 0x4#32, rdata := 0#32, activeDir := g
          trace := s.trace ++ [.struct .dir g .reused, .struct .table f .new] } ∧
        u.allFramesUsed ∧
        ∀ pa : PAddr, 128 ≤ pa.toNat → u.mem pa =
          if pa = frameWord g (dirIndex va) then s.curPid ++ 0x00#8 ++ 0xD#4 ++ f
          else if frameOf pa = f then 0#32 else s.mem pa)

/-- MAP that needs a new Directory, has a frame for it and finds the registry full changes only STATUS and RDATA
(R87, R106, C2). -/
def Obligations.MapWithAFullRegistry : Prop :=
  ∀ (s : State) (va : VAddr) (f : Frame), wordOffset va = 0#8 → s.curPid ≠ 0#8 →
    s.unregistered s.curPid → s.frameUsed f = false → (∀ k, k < 3584 → s.slot k ≠ 0#32) →
    exec (.map va) s = .next { s with status := 0x6#32, rdata := 0#32 }

/-- The frame of MAP (R38): every word is as it was but those its steps store to, computed by the steps
themselves; CUR_PID, WDATA, the fault registers and the DiskStore never change. -/
def Obligations.MapFrame : Prop :=
  ∀ (s u : State) (va : VAddr), exec (.map va) s = .next u →
    (u.curPid = s.curPid ∧ u.wdata = s.wdata ∧ u.fva = s.fva ∧ u.fent = s.fent ∧ u.disk = s.disk ∧
      u.inputs = s.inputs ∧ u.hostReads = s.hostReads) ∧
    ∀ pa, s.mapStores va pa = false → u.mem pa = s.mem pa

/-! ### UNMAP -/

/-- UNMAP's checks, in R114's order: alignment, context, mapping. Only STATUS and RDATA change. -/
def Obligations.UnmapChecksAlignmentContextMapping : Prop :=
  ∀ (s : State) (va : VAddr),
    (va.extractLsb' 0 8 ≠ 0#8 → exec (.unmap va) s = .next { s with status := 0x1#32, rdata := 0#32 }) ∧
    (va.extractLsb' 0 8 = 0#8 → s.activeDir.toNat < 16 →
      exec (.unmap va) s = .next { s with status := 0x2#32, rdata := 0#32 }) ∧
    (va.extractLsb' 0 8 = 0#8 → 16 ≤ s.activeDir.toNat → (entryFrame (s.dirEntry va)).toNat < 16 →
      exec (.unmap va) s = .next { s with status := 0x3#32, rdata := 0#32 })

/-- UNMAP in a Table with another entry (R90, R91): the data frame's bit is cleared, its Table entry zeroed, and
nothing else changes, the data frame's words among it. It holds of any Table entry, a zero one too (R92). -/
def Obligations.UnmapKeepsATableInUse : Prop :=
  ∀ (s : State) (va : VAddr) (j : Offset) (d : Frame),
    wordOffset va = 0#8 → 16 ≤ s.activeDir.toNat → 16 ≤ (entryFrame (s.dirEntry va)).toNat →
    d = entryFrame (s.tabEntry va) → j ≠ tabIndex va →
    s.mem (frameWord (entryFrame (s.dirEntry va)) j) ≠ 0#32 →
    ∃ u : State, exec (.unmap va) s = .next u ∧
      u = { s with
        frames := u.frames, rdata := 0#32, status := 0#32, trace := s.trace ++ [.release .data d] } ∧
      (∀ f, u.frameUsed f = (!decide (f = d) && s.frameUsed f)) ∧
      (∀ pa : PAddr, 128 ≤ pa.toNat → u.mem pa = if pa = s.tabEntryAddr va then 0#32 else s.mem pa)

/-- UNMAP of the last page of a Table in a Directory with another entry (R90): the Table goes too. -/
def Obligations.UnmapFreesAnEmptyTable : Prop :=
  ∀ (s : State) (va : VAddr) (i : Offset) (t d : Frame),
    wordOffset va = 0#8 → 16 ≤ s.activeDir.toNat → t = entryFrame (s.dirEntry va) → 16 ≤ t.toNat →
    t ≠ s.activeDir → d = entryFrame (s.tabEntry va) →
    (∀ j, j ≠ tabIndex va → s.mem (frameWord t j) = 0#32) →
    i ≠ dirIndex va → s.mem (frameWord s.activeDir i) ≠ 0#32 →
    ∃ u : State, exec (.unmap va) s = .next u ∧
      u = { s with
        frames := u.frames, rdata := 0#32, status := 0#32
        trace := s.trace ++ [.release .data d, .release .table t] } ∧
      (∀ f, u.frameUsed f = (!decide (f = d ∨ f = t) && s.frameUsed f)) ∧
      (∀ pa : PAddr, 128 ≤ pa.toNat → u.mem pa =
        if pa = s.tabEntryAddr va ∨ pa = s.dirEntryAddr va then 0#32 else s.mem pa)

/-- UNMAP of the last page of a process (R90, R91): Table and Directory go, every registry entry naming the
Directory is zeroed whatever its owner, and ACTIVE_DIR is cleared. -/
def Obligations.UnmapFreesAnEmptyDirectory : Prop :=
  ∀ (s : State) (va : VAddr) (g t d : Frame),
    wordOffset va = 0#8 → g = s.activeDir → 16 ≤ g.toNat → t = entryFrame (s.dirEntry va) →
    16 ≤ t.toNat → t ≠ g → d = entryFrame (s.tabEntry va) →
    (∀ j, j ≠ tabIndex va → s.mem (frameWord t j) = 0#32) →
    (∀ i, i ≠ dirIndex va → s.mem (frameWord g i) = 0#32) →
    ∃ u : State, exec (.unmap va) s = .next u ∧
      u = { s with
        frames := u.frames, activeDir := 0#12, rdata := 0#32, status := 0#32
        trace := s.trace ++ [.release .data d, .release .table t, .release .dir g] } ∧
      (∀ f, u.frameUsed f = (!decide (f = d ∨ f = t ∨ f = g) && s.frameUsed f)) ∧
      (∀ pa : PAddr, 128 ≤ pa.toNat → u.mem pa =
        if pa = s.tabEntryAddr va ∨ pa = s.dirEntryAddr va then 0#32
        else if 0x100 ≤ pa.toNat ∧ pa.toNat < 0xF00 ∧ entryFrame (s.mem pa) = g then 0#32
        else s.mem pa)

/-- The bit-0 hazard (R92, R129): UNMAP of an address whose Table entry is 0, whether or not the Table and the
Directory are then freed, ends OK and clears frame 0's bit, so the next FALLOC hands out frame 0. -/
def Obligations.UnmapOfAZeroEntryFreesFrameZero : Prop :=
  ∀ (s : State) (va : VAddr),
    wordOffset va = 0#8 → 16 ≤ s.activeDir.toNat → 16 ≤ (entryFrame (s.dirEntry va)).toNat →
    s.tabEntry va = 0#32 →
    ∃ u v : State, exec (.unmap va) s = .next u ∧ u.status = 0#32 ∧ u.frameUsed 0#12 = false ∧
      exec .falloc u = .next v ∧ v.status = 0#32 ∧ v.rdata = 0#32

/-- The frame of UNMAP (R38): every word is as it was but those the cascade stores to, computed by its own tests;
CUR_PID, WDATA, the fault registers and the DiskStore never change. -/
def Obligations.UnmapFrame : Prop :=
  ∀ (s u : State) (va : VAddr), exec (.unmap va) s = .next u →
    (u.curPid = s.curPid ∧ u.wdata = s.wdata ∧ u.fva = s.fva ∧ u.fent = s.fent ∧ u.disk = s.disk ∧
      u.inputs = s.inputs ∧ u.hostReads = s.hostReads) ∧
    ∀ pa, s.unmapStores va pa = false → u.mem pa = s.mem pa

/-! ### What MAP, UNMAP, READ and WRITE promise together -/

/-- Round trip (property E1 of spec/95_test_vectors.md): for a process with no Directory, in a machine whose
reserved frames are marked used, a MAP that ends OK, then a WRITE and a READ anywhere in the page, give
back the word written, with no fault logged. -/
def Obligations.MapWriteReadGivesTheWordBack : Prop :=
  ∀ (s u : State) (va wa : VAddr) (x : Word),
    s.unregistered s.curPid → s.reservedUsed → exec (.map va) s = .next u → u.status = 0#32 →
    wa.extractLsb' 8 16 = va.extractLsb' 8 16 →
    ∃ v w : State, exec (.write wa) { u with wdata := x } = .next v ∧ exec (.read wa) v = .next w ∧
      v.status = 0#32 ∧ w.status = 0#32 ∧ w.rdata = x

/-- Cascading free (property E3): for a process with no Directory, in a machine whose reserved frames are marked
used and whose registered Directories are, a MAP that ends OK and then UNMAP of the same address give back
every bit of the bitmap, every registry slot and a cleared ACTIVE_DIR. -/
def Obligations.MapThenUnmapRestoresTheAllocator : Prop :=
  ∀ (s u : State) (va : VAddr),
    s.unregistered s.curPid → s.reservedUsed →
    (∀ k, k < 3584 → s.slot k ≠ 0#32 → s.frameUsed (entryFrame (s.slot k)) = true) →
    exec (.map va) s = .next u → u.status = 0#32 →
    ∃ v : State, exec (.unmap va) u = .next v ∧ v.status = 0#32 ∧ v.activeDir = 0#12 ∧
      (∀ f, v.frameUsed f = s.frameUsed f) ∧ (∀ k, k < 3584 → v.slot k = s.slot k)

/-- Isolation (property E4): two processes with no Directory that MAP the same address, in a machine whose
reserved frames are marked used, get distinct Directories and distinct data frames, and both are registered. -/
def Obligations.TwoProcessesGetDistinctFrames : Prop :=
  ∀ (s u v w : State) (va : VAddr) (pid : Pid),
    pid ≠ s.curPid → s.unregistered s.curPid → s.unregistered pid → s.reservedUsed →
    exec (.map va) s = .next u → u.status = 0#32 → exec (.switch pid) u = .next v → v.status = 0#32 →
    exec (.map va) v = .next w → w.status = 0#32 →
    w.rdata ≠ u.rdata ∧ w.activeDir ≠ u.activeDir ∧
    (∃ j, w.registeredAt s.curPid j ∧ entryFrame (w.slot j) = u.activeDir) ∧
    (∃ k, w.registeredAt pid k ∧ entryFrame (w.slot k) = w.activeDir)

/-- R66 for MAP: in a forest, MAP keeps frame conservation and the forest, whatever status it ends with. -/
def Obligations.MapKeepsFramesConserved : Prop :=
  ∀ (s u : State) (va : VAddr), s.forest → s.framesConserved → exec (.map va) s = .next u →
    u.forest ∧ u.framesConserved

/-- R66 for UNMAP: in a forest, UNMAP through a registered Directory of an address whose Table entry is not empty
keeps frame conservation and the forest. -/
def Obligations.UnmapKeepsFramesConserved : Prop :=
  ∀ (s u : State) (va : VAddr), s.forest → s.framesConserved → s.isDir s.activeDir →
    entryFrame (s.tabEntry va) ≠ 0#12 → exec (.unmap va) s = .next u → u.forest ∧ u.framesConserved

/-! ### SWITCH and FIND -/

/-- R93: SWITCH sets CUR_PID and nothing else, ACTIVE_DIR included; SWITCH 0 ends InvalidContext. -/
def Obligations.SwitchSelectsTheProcess : Prop :=
  ∀ (s : State) (pid : Pid),
    (pid ≠ 0#8 → exec (.switch pid) s = .next { s with curPid := pid, status := 0#32, rdata := 0#32 }) ∧
    (pid = 0#8 → exec (.switch pid) s = .next { s with status := 0x2#32, rdata := 0#32 })

/-- R94 (with R53): FIND makes the Directory of the lowest entry with CUR_PID's tag active and returns it; with
no such entry it ends Absent, with no current process InvalidContext, and then changes nothing else. -/
def Obligations.FindLooksUpTheLowestEntry : Prop :=
  ∀ s : State,
    (s.curPid = 0#8 → exec .find s = .next { s with status := 0x2#32, rdata := 0#32 }) ∧
    (s.curPid ≠ 0#8 → s.unregistered s.curPid →
      exec .find s = .next { s with status := 0x8#32, rdata := 0#32 }) ∧
    (∀ k, s.curPid ≠ 0#8 → s.registeredAt s.curPid k →
      exec .find s = .next { s with
        activeDir := entryFrame (s.slot k), rdata := (entryFrame (s.slot k)).setWidth 32
        status := 0#32 })

/-- Who writes which register (R19, R20, R21, R24, R25), over all commands: CUR_PID only SWITCH and INIT;
ACTIVE_DIR only MAP, UNMAP, FIND and INIT; FVA and FENT only READ, WRITE and INIT; WDATA none. -/
def Obligations.RegistersHaveTheirWriters : Prop :=
  ∀ (i : Instr) (s u : State), exec i s = .next u →
    (u.curPid ≠ s.curPid → (∃ pid, i = .switch pid) ∨ i = .init) ∧
    (u.activeDir ≠ s.activeDir → (∃ va, i = .map va ∨ i = .unmap va) ∨ i = .find ∨ i = .init) ∧
    (u.fva ≠ s.fva ∨ u.fent ≠ s.fent → (∃ va, i = .read va ∨ i = .write va) ∨ i = .init) ∧
    u.wdata = s.wdata

/-! ### FALLOC and FFREE -/

/-- R97 (with R50): FALLOC returns the lowest frame whose bit is 0 and sets that bit; with every bit 1 it ends
OutOfFrames and changes no other state. Only the frame's bitmap word is stored to. -/
def Obligations.FallocTakesTheLowestFreeFrame : Prop :=
  ∀ s : State,
    (∀ f, s.lowestFree f →
      ∃ u : State, exec .falloc s = .next u ∧
        u = { s with frames := u.frames, rdata := f.setWidth 32, status := 0#32 } ∧
        (∀ g, u.frameUsed g = (decide (g = f) || s.frameUsed g)) ∧
        (∀ pa, pa ≠ bitmapWord f → u.mem pa = s.mem pa)) ∧
    (s.allFramesUsed → exec .falloc s = .next { s with status := 0x4#32, rdata := 0#32 })

/-- R98: FFREE clears the frame's bit, whatever it was and whatever the frame, ends OK, and stores to that bitmap
word only. -/
def Obligations.FfreeClearsTheBit : Prop :=
  ∀ (s : State) (f : Frame), ∃ u : State, exec (.ffree f) s = .next u ∧
    u = { s with frames := u.frames, rdata := 0#32, status := 0#32 } ∧
    (∀ g, u.frameUsed g = (!decide (g = f) && s.frameUsed g)) ∧
    (∀ pa, pa ≠ bitmapWord f → u.mem pa = s.mem pa)

/-- FALLOC and then FFREE of the frame it returned leave the FrameStore exactly as it was. -/
def Obligations.FallocThenFfreeRestoresTheFrameStore : Prop :=
  ∀ (s u : State), s.storesWf → exec .falloc s = .next u → u.status = 0#32 →
    ∃ v : State, exec (.ffree (u.rdata.setWidth 12)) u = .next v ∧ v.frames = s.frames

/-- Whatever ALLOC_ORDER is (R9, D44), each scan names a clear bit below its limit, and none exactly when there is
none (for the sectors, with NUM_SECTORS at most 8192, R9's bound). ALLOC_ORDER = any is a choice function on the
clear bits, the model's own form of it (log 13, DESIGN CHOICE). -/
def Obligations.AnyAllocationOrderNamesAClearBit : Prop :=
  ∀ (c : Params) (s : State),
    (∀ f, s.frameScan c = some f → s.frameUsed f = false) ∧
    (s.frameScan c = none ↔ s.allFramesUsed) ∧
    (∀ i, s.sectorScan c = some i → i < c.numSectors ∧ s.sectorUsed c i = false) ∧
    (c.numSectors ≤ 8192 →
      (s.sectorScan c = none ↔ ∀ i, i < c.numSectors → s.sectorUsed c i = true))

/-! ### SFIND, DUMP and RESTORE -/

/-- R100 (with R55): SFIND returns the lowest sector whose mirror bit is 0 and sets that bit in the mirror only,
the DiskStore unchanged; with every bit 1 it ends OutOfSectors and changes no other state. -/
def Obligations.SfindTakesTheLowestFreeSector : Prop :=
  ∀ s : State,
    (∀ i : Sector, s.mirrorBit i = false → (∀ j : Sector, j < i → s.mirrorBit j = true) →
      ∃ u : State, exec .sfind s = .next u ∧
        u = { s with frames := u.frames, rdata := i.setWidth 32, status := 0#32 } ∧
        (∀ j, u.mirrorBit j = (decide (j = i) || s.mirrorBit j)) ∧
        (∀ pa, pa ≠ mirrorWord i.toNat → u.mem pa = s.mem pa)) ∧
    ((∀ j : Sector, s.mirrorBit j = true) →
      exec .sfind s = .next { s with status := 0x5#32, rdata := 0#32 })

/-- R101: DUMP copies the frame to the sector word for word, whatever frame, sector and swap bitmap; no other
sector and no FrameStore word changes. -/
def Obligations.DumpCopiesTheFrame : Prop :=
  ∀ (s : State) (f : Frame) (k : Sector), ∃ u : State, exec (.dump f k) s = .next u ∧
    u = { s with
      disk := u.disk, rdata := 0#32, status := 0#32, trace := s.trace ++ [.swapio .dump f k] } ∧
    ∀ (k' : Sector) (i : Offset),
      u.diskRead k' i = if k' = k then s.mem (frameWord f i) else s.diskRead k' i

/-- R102: RESTORE copies the sector to the frame, then clears the sector's mirror bit, then persists the mirror to
sector 0, in this order; no other word of either store changes. -/
def Obligations.RestoreCopiesFreesAndPersists : Prop :=
  ∀ (s : State) (f : Frame) (k : Sector), ∃ u : State, exec (.restore k f) s = .next u ∧
    u = { s with
      frames := u.frames, disk := u.disk, rdata := 0#32, status := 0#32
      trace := s.trace ++ [.swapio .restore f k] } ∧
    (∀ pa, pa ≠ mirrorWord k.toNat →
      u.mem pa = if frameOf pa = f then s.diskRead k (pa.extractLsb' 0 8) else s.mem pa) ∧
    (u.mem (mirrorWord k.toNat) =
      (if f = 15#12 then s.diskRead k ((mirrorWord k.toNat).extractLsb' 0 8)
        else s.mem (mirrorWord k.toNat)) &&& ~~~(1#32 <<< (k.toNat % 32))) ∧
    (∀ (k' : Sector) (i : Offset),
      u.diskRead k' i = if k' = 0#13 then u.mem (frameWord 15#12 i) else s.diskRead k' i)

/-- Disk round trip (property E5): DUMP of f to a sector and RESTORE of it into f2 make f2 the copy of f, word for
word, and the mirror marks the sector free. Frame 15, the mirror itself, is the one target that differs, in
that bit. -/
def Obligations.DumpThenRestoreCopiesTheFrame : Prop :=
  ∀ (s u v : State) (f f2 : Frame) (k : Sector),
    exec (.dump f k) s = .next u → exec (.restore k f2) u = .next v →
    v.mirrorBit k = false ∧
    ∀ i, (f2 ≠ 15#12 ∨ frameWord f2 i ≠ mirrorWord k.toNat) →
      v.mem (frameWord f2 i) = s.mem (frameWord f i)

/-- The persisted bitmap (R103): RESTORE and INIT leave sector 0 equal to the mirror; SFIND sets one mirror bit
and leaves sector 0 as it was. -/
def Obligations.SwapBitmapIsPersistedByRestoreAndInit : Prop :=
  ∀ (s u : State),
    (∀ i, (∃ k f, i = .restore k f) ∨ i = .init → exec i s = .next u →
      ∀ o, u.diskRead 0#13 o = u.mem (frameWord 15#12 o)) ∧
    (exec .sfind s = .next u → u.status = 0#32 →
      u.mirrorBit (u.rdata.setWidth 13) = true ∧ s.mirrorBit (u.rdata.setWidth 13) = false ∧
      ∀ k o, u.diskRead k o = s.diskRead k o)

/-! ### INIT and boot -/

/-- R35: the state INIT leaves, from any state: frames 0..15 zero but for the two bitmap words, the context and
the fault registers cleared, sector 0 a copy of frame 15; WDATA, frames 16..4095, the other sectors and the
trace as they were. -/
def Obligations.InitLeavesTheBootState : Prop :=
  ∀ s : State, ∃ u : State, exec .init s = .next u ∧
    u = { s with
      frames := u.frames, disk := u.disk, activeDir := 0#12, curPid := 0#8, fva := 0#32, fent := 0#32
      rdata := 0#32, status := 0#32 } ∧
    (∀ pa : PAddr, u.mem pa =
      if pa = 0x00000#20 then 0x0000FFFF#32 else if pa = 0x00F00#20 then 0x00000001#32
      else if pa.toNat < 0x1000 then 0#32 else s.mem pa) ∧
    (∀ (k : Sector) (i : Offset),
      u.diskRead k i = if k = 0#13 then u.mem (frameWord 15#12 i) else s.diskRead k i)

/-- Boot (R99, R126, R127): from hardware reset with any MEM_INIT and DISK_INIT, INIT, SWITCH to any process but 0
and MAP of any frame-aligned address take frames 16, 17 and 18 and end OK. -/
def Obligations.BootThenFirstMap : Prop :=
  ∀ (m d : Memory) (pid : Pid) (va : VAddr), pid ≠ 0#8 → wordOffset va = 0#8 →
    ∃ s1 s2 s3 : State, exec .init (State.resetWith m d) = .next s1 ∧ exec (.switch pid) s1 = .next s2 ∧
      exec (.map va) s2 = .next s3 ∧ s3.status = 0#32 ∧ s3.rdata = 18#32 ∧ s3.activeDir = 16#12 ∧
      (∀ f, s3.frameUsed f = decide (f.toNat ≤ 18)) ∧ s3.slot 0 = pid ++ 0#12 ++ 16#12 ∧
      (∀ k, 0 < k → k < 3584 → s3.slot k = 0#32)

/-! ### The whole machine -/

/-- R105 (with R22, R23): every legal command ends, in one step, with one status code; STATUS is written in full,
PFD and PFT are 0 but for READ and WRITE, and RDATA is 0 with every code but OK. -/
def Obligations.EveryCommandEndsWithOneStatus : Prop :=
  ∀ (i : Instr) (s : State), ∃ (u : State) (st : Status) (pfd pft : Bool),
    exec i s = .next u ∧
    u.status = 0#22 ++ BitVec.ofBool pft ++ BitVec.ofBool pfd ++ 0#4 ++ st.code ∧
    (st ≠ .ok → u.rdata = 0#32) ∧
    (pfd = true ∨ pft = true → ∃ va, i = .read va ∨ i = .write va) ∧
    u.inputs = s.inputs ∧ u.hostReads = s.hostReads

/-- The invariant holds after hardware reset, for every MEM_INIT and DISK_INIT in canonical form. -/
def Obligations.ResetMeetsTheInvariant : Prop :=
  State.reset.Inv ∧
  ∀ m d : Memory, m.wf Config.frameStoreWords = true →
    d.wf (Config.params.numSectors * Config.frameWords) = true → (State.resetWith m d).Inv

/-- Every step keeps the invariant: both stores canonical and inside their address spaces (R36, R37), STATUS and
RDATA legal (R22, R23, R107), the fault record legal (R24, R25, R110). -/
def Obligations.StepKeepsTheInvariant : Prop :=
  ∀ s u : State, s.Inv → step s = .next u → u.Inv

/-- The trace is observation only (R30): no command's effect depends on it, and each only appends. -/
def Obligations.TraceIsNeverRead : Prop :=
  ∀ (i : Instr) (s u : State), exec i s = .next u →
    ∃ events : List Event, u.trace = s.trace ++ events ∧
      ∀ old : List Event, exec i { s with trace := old } = .next { u with trace := old ++ events }

/-- Only DUMP, RESTORE and INIT reach the DiskStore (R37): every other command leaves it as it was and does the
same whatever it holds. -/
def Obligations.OnlyThreeCommandsReachTheDisk : Prop :=
  ∀ (i : Instr) (s u : State), exec i s = .next u →
    (∃ f k, i = .dump f k ∨ i = .restore k f) ∨ i = .init ∨
    (u.disk = s.disk ∧ ∀ d : Memory, exec i { s with disk := d } = .next { u with disk := d })

/-- At most one registry entry per process (R67): UNMAP keeps it, and MAP keeps it where no reserved frame is free
and no registered Directory or its entries name a reserved frame. -/
def Obligations.RegistryKeepsOneEntryPerProcess : Prop :=
  ∀ (s u : State) (va : VAddr),
    (∀ pid j k, j < 3584 → k < 3584 → s.carries pid j → s.carries pid k → j = k) →
    (exec (.unmap va) s = .next u ∨
      exec (.map va) s = .next u ∧ s.reservedUsed ∧
        (∀ k, k < 3584 → s.slot k ≠ 0#32 → 16 ≤ (entryFrame (s.slot k)).toNat ∧
          ∀ i, entryFrame (s.mem (frameWord (entryFrame (s.slot k)) i)) = 0#12 ∨
            16 ≤ (entryFrame (s.mem (frameWord (entryFrame (s.slot k)) i))).toNat)) →
    ∀ pid j k, j < 3584 → k < 3584 → u.carries pid j → u.carries pid k → j = k
end

