-- ==== Sys2Proof/Laws/Encoding.lean ====
section
/-! SUPPORT. The fields of command words, entries, STATUS, FVA and CTX as numbers, and what decoding finds in each
format's word. -/

namespace Sys2Proof

/-- A concatenation as a number. -/
theorem toNat_append_add {m n : Nat} (a : BitVec m) (b : BitVec n) :
    (a ++ b).toNat = a.toNat * 2 ^ n + b.toNat := by
  rw [BitVec.toNat_append, Nat.shiftLeft_eq, Nat.mul_comm, ← Nat.two_pow_add_eq_or_of_lt b.isLt]

/-- A field as a number. -/
theorem toNat_field {m : Nat} (w : BitVec m) (lo n : Nat) :
    (w.extractLsb' lo n).toNat = w.toNat / 2 ^ lo % 2 ^ n := by
  rw [BitVec.extractLsb'_toNat, Nat.shiftRight_eq_div_pow]

/-- Two words are equal when they are equal as numbers. -/
theorem word_ext {n : Nat} (a b : BitVec n) (h : a.toNat = b.toNat) : a = b := BitVec.eq_of_toNat_eq h

section formats
variable (op : BitVec 4)

theorem opcode_formatV (va : VAddr) : opcode (op ++ 0#4 ++ va) = op := by
  apply word_ext
  simp only [opcode, toNat_field, toNat_append_add, BitVec.toNat_ofNat]
  omega

theorem opcode_formatP (pid : Pid) : opcode (op ++ 0#20 ++ pid) = op := by
  apply word_ext
  simp only [opcode, toNat_field, toNat_append_add, BitVec.toNat_ofNat]
  omega

theorem opcode_formatF (f : Frame) : opcode (op ++ 0#16 ++ f) = op := by
  apply word_ext
  simp only [opcode, toNat_field, toNat_append_add, BitVec.toNat_ofNat]
  omega

theorem opcode_formatSF (k : Sector) (f : Frame) : opcode (op ++ 0#3 ++ k ++ f) = op := by
  apply word_ext
  simp only [opcode, toNat_field, toNat_append_add, BitVec.toNat_ofNat]
  omega

theorem opcode_formatN : opcode (op ++ 0#28) = op := by
  apply word_ext
  simp only [opcode, toNat_field, toNat_append_add, BitVec.toNat_ofNat]
  omega

/-! The reserved bits of each format. -/

theorem rsv_formatV (va : VAddr) : (op ++ 0#4 ++ va : Word).extractLsb' 24 4 = 0#4 := by
  apply word_ext
  simp only [toNat_field, toNat_append_add, BitVec.toNat_ofNat]
  omega

theorem rsv_formatP (pid : Pid) : (op ++ 0#20 ++ pid : Word).extractLsb' 8 20 = 0#20 := by
  apply word_ext
  simp only [toNat_field, toNat_append_add, BitVec.toNat_ofNat]
  omega

theorem rsv_formatF (f : Frame) : (op ++ 0#16 ++ f : Word).extractLsb' 12 16 = 0#16 := by
  apply word_ext
  simp only [toNat_field, toNat_append_add, BitVec.toNat_ofNat]
  omega

theorem rsv_formatSF (k : Sector) (f : Frame) :
    (op ++ 0#3 ++ k ++ f : Word).extractLsb' 25 3 = 0#3 := by
  apply word_ext
  simp only [toNat_field, toNat_append_add, BitVec.toNat_ofNat]
  omega

theorem decodeV_formatV (mk : VAddr → Instr) (va : VAddr) :
    decodeV mk (op ++ 0#4 ++ va) = .ok (mk va) := by
  have h2 : (op ++ 0#4 ++ va : Word).extractLsb' 0 24 = va := by
    apply word_ext
    simp only [toNat_field, toNat_append_add, BitVec.toNat_ofNat]
    omega
  rw [decodeV, if_pos (rsv_formatV op va), h2]

theorem decodeP_formatP (mk : Pid → Instr) (pid : Pid) :
    decodeP mk (op ++ 0#20 ++ pid) = .ok (mk pid) := by
  have h2 : (op ++ 0#20 ++ pid : Word).extractLsb' 0 8 = pid := by
    apply word_ext
    simp only [toNat_field, toNat_append_add, BitVec.toNat_ofNat]
    omega
  rw [decodeP, if_pos (rsv_formatP op pid), h2]

theorem decodeF_formatF (mk : Frame → Instr) (f : Frame) :
    decodeF mk (op ++ 0#16 ++ f) = .ok (mk f) := by
  have h2 : (op ++ 0#16 ++ f : Word).extractLsb' 0 12 = f := by
    apply word_ext
    simp only [toNat_field, toNat_append_add, BitVec.toNat_ofNat]
    omega
  rw [decodeF, if_pos (rsv_formatF op f), h2]

theorem decodeSF_formatSF (c : Params) (mk : Sector → Frame → Instr) (k : Sector) (f : Frame) :
    decodeSF c mk (op ++ 0#3 ++ k ++ f)
      = if k.toNat < c.numSectors then .ok (mk k f) else .error .sectorOutOfRange := by
  have h2 : (op ++ 0#3 ++ k ++ f : Word).extractLsb' 12 13 = k := by
    apply word_ext
    simp only [toNat_field, toNat_append_add, BitVec.toNat_ofNat]
    omega
  have h3 : (op ++ 0#3 ++ k ++ f : Word).extractLsb' 0 12 = f := by
    apply word_ext
    simp only [toNat_field, toNat_append_add, BitVec.toNat_ofNat]
    omega
  rw [decodeSF, if_pos (rsv_formatSF op k f), h2, h3]

theorem decodeN_formatN (i : Instr) : decodeN i (op ++ 0#28) = .ok i := by
  have h1 : (op ++ 0#28 : Word).extractLsb' 0 28 = 0#28 := by
    apply word_ext
    simp only [toNat_field, toNat_append_add, BitVec.toNat_ofNat]
    omega
  rw [decodeN, if_pos h1]

end formats

/-! What a format's decoder answers, said of the word: the operands are its fields, or a reserved bit is 1. -/

theorem decodeV_eq_ok (mk : VAddr → Instr) (w : Word) (i : Instr) :
    decodeV mk w = .ok i ↔ w.extractLsb' 24 4 = 0#4 ∧ i = mk (w.extractLsb' 0 24) := by
  unfold decodeV
  split <;> simp_all [eq_comm]

theorem decodeP_eq_ok (mk : Pid → Instr) (w : Word) (i : Instr) :
    decodeP mk w = .ok i ↔ w.extractLsb' 8 20 = 0#20 ∧ i = mk (w.extractLsb' 0 8) := by
  unfold decodeP
  split <;> simp_all [eq_comm]

theorem decodeF_eq_ok (mk : Frame → Instr) (w : Word) (i : Instr) :
    decodeF mk w = .ok i ↔ w.extractLsb' 12 16 = 0#16 ∧ i = mk (w.extractLsb' 0 12) := by
  unfold decodeF
  split <;> simp_all [eq_comm]

theorem decodeSF_eq_ok (c : Params) (mk : Sector → Frame → Instr) (w : Word) (i : Instr) :
    decodeSF c mk w = .ok i ↔
      w.extractLsb' 25 3 = 0#3 ∧ (w.extractLsb' 12 13).toNat < c.numSectors ∧
        i = mk (w.extractLsb' 12 13) (w.extractLsb' 0 12) := by
  unfold decodeSF
  split
  · split <;> simp_all [eq_comm]
  · simp_all

theorem decodeN_eq_ok (j : Instr) (w : Word) (i : Instr) :
    decodeN j w = .ok i ↔ w.extractLsb' 0 28 = 0#28 ∧ i = j := by
  unfold decodeN
  split <;> simp_all [eq_comm]

/-- The sixteen opcodes. -/
theorem opcode_cases (op : BitVec 4) :
    op = 0x0#4 ∨ op = 0x1#4 ∨ op = 0x2#4 ∨ op = 0x3#4 ∨ op = 0x4#4 ∨ op = 0x5#4 ∨ op = 0x6#4 ∨
      op = 0x7#4 ∨ op = 0x8#4 ∨ op = 0x9#4 ∨ op = 0xA#4 ∨ op = 0xB#4 ∨ op = 0xC#4 ∨ op = 0xD#4 ∨
      op = 0xE#4 ∨ op = 0xF#4 := by
  revert op
  decide

/-- What decoding a word finds, row by row. -/
theorem decodeWith_eq_ok (c : Params) (w : Word) (i : Instr) :
    decodeWith c w = .ok i ↔
      (opcode w = 0x1#4 ∧ w.extractLsb' 24 4 = 0#4 ∧ i = .read (w.extractLsb' 0 24)) ∨
      (opcode w = 0x2#4 ∧ w.extractLsb' 24 4 = 0#4 ∧ i = .write (w.extractLsb' 0 24)) ∨
      (opcode w = 0x3#4 ∧ w.extractLsb' 24 4 = 0#4 ∧ i = .map (w.extractLsb' 0 24)) ∨
      (opcode w = 0x4#4 ∧ w.extractLsb' 24 4 = 0#4 ∧ i = .unmap (w.extractLsb' 0 24)) ∨
      (opcode w = 0x5#4 ∧ w.extractLsb' 8 20 = 0#20 ∧ i = .switch (w.extractLsb' 0 8)) ∨
      (opcode w = 0x6#4 ∧ w.extractLsb' 0 28 = 0#28 ∧ i = .find) ∨
      (opcode w = 0x7#4 ∧ w.extractLsb' 0 28 = 0#28 ∧ i = .falloc) ∨
      (opcode w = 0x8#4 ∧ w.extractLsb' 12 16 = 0#16 ∧ i = .ffree (w.extractLsb' 0 12)) ∨
      (opcode w = 0x9#4 ∧ w.extractLsb' 0 28 = 0#28 ∧ i = .sfind) ∨
      (opcode w = 0xA#4 ∧ w.extractLsb' 25 3 = 0#3 ∧ (w.extractLsb' 12 13).toNat < c.numSectors ∧
        i = .dump (w.extractLsb' 0 12) (w.extractLsb' 12 13)) ∨
      (opcode w = 0xB#4 ∧ w.extractLsb' 25 3 = 0#3 ∧ (w.extractLsb' 12 13).toNat < c.numSectors ∧
        i = .restore (w.extractLsb' 12 13) (w.extractLsb' 0 12)) ∨
      (opcode w = 0xF#4 ∧ w.extractLsb' 0 28 = 0#28 ∧ i = .init) := by
  unfold decodeWith
  rcases opcode_cases (opcode w) with h | h | h | h | h | h | h | h | h | h | h | h | h | h | h | h <;>
    rw [h] <;>
    simp [decodeV_eq_ok, decodeP_eq_ok, decodeF_eq_ok, decodeSF_eq_ok, decodeN_eq_ok]

/-- A word is illegal exactly when no command decodes from it. -/
theorem illegalWord_iff (w : Word) :
    Machine.illegalWord w ↔ ¬ ∃ i, decode w = .ok i := by
  unfold Machine.illegalWord decode
  simp only [decodeWith_eq_ok, opcode]
  rcases opcode_cases (w.extractLsb' 28 4) with
    h | h | h | h | h | h | h | h | h | h | h | h | h | h | h | h <;>
    simp only [h] <;> simp [imp_iff_not_or]

/-! ### The rows of opcode_table.json -/

/-- A word under a mask of the bits from k up. -/
theorem toNat_highMask (w : Word) (k : Nat) (hk : k < 32) :
    (w &&& BitVec.allOnes 32 <<< k).toNat = w.toNat / 2 ^ k * 2 ^ k := by
  have h : w &&& BitVec.allOnes 32 <<< k = w >>> k <<< k := by
    apply BitVec.eq_of_getLsbD_eq
    intro i hi
    rw [BitVec.getLsbD_and, BitVec.getLsbD_shiftLeft, BitVec.getLsbD_shiftLeft, BitVec.getLsbD_allOnes,
      BitVec.getLsbD_ushiftRight]
    by_cases h : i < k
    · simp [h]
    · simp [h, hi, show k + (i - k) = i by omega, show i - k < 32 by omega]
  have := w.isLt
  have := Nat.div_mul_le_self w.toNat (2 ^ k)
  rw [h, BitVec.toNat_shiftLeft, BitVec.toNat_ushiftRight, Nat.shiftLeft_eq, Nat.shiftRight_eq_div_pow]
  omega

/-- A row whose mask is the bits from k up accepts a word exactly when those bits are the pattern's. -/
theorem accepts_iff (m : Mnemonic) (pattern mask w : Word) (k : Nat) (hk : k < 32)
    (hm : mask = BitVec.allOnes 32 <<< k) :
    (OpRow.mk m pattern mask).accepts w = true ↔ w.toNat / 2 ^ k * 2 ^ k = pattern.toNat := by
  rw [OpRow.accepts, beq_iff_eq, ← BitVec.toNat_inj, hm, toNat_highMask w k hk]

section rows
variable (m : Mnemonic) (op : BitVec 4) (pattern w : Word) (hp : pattern = op ++ 0#28)
include hp

theorem acceptsV_iff : (OpRow.mk m pattern 0xFF000000#32).accepts w = true ↔
    opcode w = op ∧ w.extractLsb' 24 4 = 0#4 := by
  rw [accepts_iff m _ 0xFF000000#32 w 24 (by decide) rfl, hp]
  simp only [← BitVec.toNat_inj, opcode, toNat_field, toNat_append_add, BitVec.toNat_ofNat]
  have := w.isLt
  omega

theorem acceptsP_iff : (OpRow.mk m pattern 0xFFFFFF00#32).accepts w = true ↔
    opcode w = op ∧ w.extractLsb' 8 20 = 0#20 := by
  rw [accepts_iff m _ 0xFFFFFF00#32 w 8 (by decide) rfl, hp]
  simp only [← BitVec.toNat_inj, opcode, toNat_field, toNat_append_add, BitVec.toNat_ofNat]
  have := w.isLt
  omega

theorem acceptsF_iff : (OpRow.mk m pattern 0xFFFFF000#32).accepts w = true ↔
    opcode w = op ∧ w.extractLsb' 12 16 = 0#16 := by
  rw [accepts_iff m _ 0xFFFFF000#32 w 12 (by decide) rfl, hp]
  simp only [← BitVec.toNat_inj, opcode, toNat_field, toNat_append_add, BitVec.toNat_ofNat]
  have := w.isLt
  omega

theorem acceptsSF_iff : (OpRow.mk m pattern 0xFE000000#32).accepts w = true ↔
    opcode w = op ∧ w.extractLsb' 25 3 = 0#3 := by
  rw [accepts_iff m _ 0xFE000000#32 w 25 (by decide) rfl, hp]
  simp only [← BitVec.toNat_inj, opcode, toNat_field, toNat_append_add, BitVec.toNat_ofNat]
  have := w.isLt
  omega

theorem acceptsN_iff : (OpRow.mk m pattern 0xFFFFFFFF#32).accepts w = true ↔
    opcode w = op ∧ w.extractLsb' 0 28 = 0#28 := by
  rw [accepts_iff m _ 0xFFFFFFFF#32 w 0 (by decide) rfl, hp]
  simp only [← BitVec.toNat_inj, opcode, toNat_field, toNat_append_add, BitVec.toNat_ofNat]
  have := w.isLt
  omega

end rows

/-- The rows of opcode_table.json, by opcode and reserved bits (R70 to R74). -/
theorem filter_opcodeTable (w : Word) :
    opcodeTable.filter (fun r => r.accepts w) = opcodeTable.filter fun r =>
      match r.mnemonic with
      | .READ => decide (opcode w = 0x1#4 ∧ w.extractLsb' 24 4 = 0#4)
      | .WRITE => decide (opcode w = 0x2#4 ∧ w.extractLsb' 24 4 = 0#4)
      | .MAP => decide (opcode w = 0x3#4 ∧ w.extractLsb' 24 4 = 0#4)
      | .UNMAP => decide (opcode w = 0x4#4 ∧ w.extractLsb' 24 4 = 0#4)
      | .SWITCH => decide (opcode w = 0x5#4 ∧ w.extractLsb' 8 20 = 0#20)
      | .FIND => decide (opcode w = 0x6#4 ∧ w.extractLsb' 0 28 = 0#28)
      | .FALLOC => decide (opcode w = 0x7#4 ∧ w.extractLsb' 0 28 = 0#28)
      | .FFREE => decide (opcode w = 0x8#4 ∧ w.extractLsb' 12 16 = 0#16)
      | .SFIND => decide (opcode w = 0x9#4 ∧ w.extractLsb' 0 28 = 0#28)
      | .DUMP => decide (opcode w = 0xA#4 ∧ w.extractLsb' 25 3 = 0#3)
      | .RESTORE => decide (opcode w = 0xB#4 ∧ w.extractLsb' 25 3 = 0#3)
      | .INIT => decide (opcode w = 0xF#4 ∧ w.extractLsb' 0 28 = 0#28) := by
  refine List.filter_congr fun r hr => ?_
  rw [Bool.eq_iff_iff]
  simp only [opcodeTable, List.mem_cons, List.not_mem_nil, or_false] at hr
  rcases hr with rfl | rfl | rfl | rfl | rfl | rfl | rfl | rfl | rfl | rfl | rfl | rfl <;>
    simp only [decide_eq_true_eq]
  · exact acceptsV_iff _ _ _ w rfl
  · exact acceptsV_iff _ _ _ w rfl
  · exact acceptsV_iff _ _ _ w rfl
  · exact acceptsV_iff _ _ _ w rfl
  · exact acceptsP_iff _ _ _ w rfl
  · exact acceptsN_iff _ _ _ w rfl
  · exact acceptsN_iff _ _ _ w rfl
  · exact acceptsF_iff _ _ _ w rfl
  · exact acceptsN_iff _ _ _ w rfl
  · exact acceptsSF_iff _ _ _ w rfl
  · exact acceptsSF_iff _ _ _ w rfl
  · exact acceptsN_iff _ _ _ w rfl

end Sys2Proof
end

