-- ==== Sys2Proof/Laws/Entries.lean ====
section
/-! SUPPORT. The entries MAP writes, field by field (spec/20_memory.md R45 to R47, R56), and pte_pack and pte_unpack
as inverses. -/

namespace Sys2Proof.Machine

theorem entryFrame_zero : entryFrame 0#32 = 0#12 := rfl

/-- A PTE with its flags as the number they make. -/
theorem toNat_pteLow (rw r d v : Bool) (f : Frame) :
    (BitVec.ofBool rw ++ BitVec.ofBool r ++ BitVec.ofBool d ++ BitVec.ofBool v ++ f : BitVec 16).toNat
      = rw.toNat * 32768 + r.toNat * 16384 + d.toNat * 8192 + v.toNat * 4096 + f.toNat := by
  simp only [toNat_append_add, BitVec.toNat_ofBool]
  omega

theorem getLsbD_eq_decide {n : Nat} (x : BitVec n) (i : Nat) :
    x.getLsbD i = decide (x.toNat / 2 ^ i % 2 = 1) := by
  rw [BitVec.getLsbD, Nat.testBit_eq_decide_div_mod_eq]

/-- pte_unpack undoes pte_pack (R47). -/
theorem pteUnpack_ptePack (c : Params) (p : Pte) : pteUnpack c (ptePack c p) = p := by
  obtain ⟨o, v, d, r, rw, f⟩ := p
  have hf := f.isLt
  have ho := o.isLt
  have low := toNat_pteLow rw r d v f
  have bv := Bool.toNat_le v
  have bd := Bool.toNat_le d
  have br := Bool.toNat_le r
  have bw := Bool.toNat_le rw
  have bit : ∀ b : Bool, decide (b.toNat = 1) = b := by decide
  cases h : c.ownerLsb <;>
  · simp only [pteUnpack, ptePack, h, entryOwner, entryFrame, OwnerLsb.lsb, Pte.mk.injEq]
    refine ⟨?_, ?_, ?_, ?_, ?_, ?_⟩
    · apply word_ext
      simp only [toNat_field, toNat_append_add, low, BitVec.toNat_ofNat]
      omega
    · refine Eq.trans ?_ (bit v)
      rw [getLsbD_eq_decide]
      simp only [toNat_append_add, low, BitVec.toNat_ofNat, decide_eq_decide]
      omega
    · refine Eq.trans ?_ (bit d)
      rw [getLsbD_eq_decide]
      simp only [toNat_append_add, low, BitVec.toNat_ofNat, decide_eq_decide]
      omega
    · refine Eq.trans ?_ (bit r)
      rw [getLsbD_eq_decide]
      simp only [toNat_append_add, low, BitVec.toNat_ofNat, decide_eq_decide]
      omega
    · refine Eq.trans ?_ (bit rw)
      rw [getLsbD_eq_decide]
      simp only [toNat_append_add, low, BitVec.toNat_ofNat, decide_eq_decide]
      omega
    · apply word_ext
      simp only [toNat_field, toNat_append_add, low, BitVec.toNat_ofNat]
      omega

/-- The PTE MAP writes: owner, 0, the flags 0xD, the frame (R47, R87). -/
theorem mapPte_eq (pid : Pid) (f : Frame) :
    mapPte Config.params pid f = pid ++ 0x00#8 ++ 0xD#4 ++ f := by
  apply word_ext
  simp only [mapPte, ptePack, Config.params_ownerLsb, toNat_append_add, BitVec.toNat_ofNat,
    BitVec.toNat_ofBool, Bool.toNat_true, Bool.toNat_false]
  omega

theorem pteUnpack_mapPte (pid : Pid) (f : Frame) :
    pteUnpack Config.params (mapPte Config.params pid f) = ⟨pid, true, false, true, true, f⟩ :=
  pteUnpack_ptePack _ _

@[simp] theorem entryFrame_mapPte (pid : Pid) (f : Frame) :
    entryFrame (mapPte Config.params pid f) = f :=
  congrArg Pte.frame (pteUnpack_mapPte pid f)

/-- The permission check of a PTE that MAP wrote (R56). -/
theorem entryOk_mapPte (cur pid : Pid) (f : Frame) :
    entryOk Config.params cur (mapPte Config.params pid f)
      = (decide (16 ≤ f.toNat) && pid == cur) := by
  simp [entryOk, pteUnpack_mapPte, BitVec.le_def]

theorem mapPte_ne_zero (pid : Pid) (f : Frame) : mapPte Config.params pid f ≠ 0#32 := by
  rw [mapPte_eq]
  intro h
  have := congrArg BitVec.toNat h
  simp only [toNat_append_add, BitVec.toNat_ofNat] at this
  omega

/-- The registry entry of a process (R45). -/
theorem regEntry_eq (pid : Pid) (f : Frame) : regEntry Config.params pid f = pid ++ 0#12 ++ f := rfl

@[simp] theorem entryFrame_regEntry (pid : Pid) (f : Frame) :
    entryFrame (regEntry Config.params pid f) = f := by
  apply word_ext
  simp only [entryFrame, regEntry_eq, toNat_field, toNat_append_add, BitVec.toNat_ofNat]
  omega

@[simp] theorem entryOwner_regEntry (pid : Pid) (f : Frame) :
    entryOwner Config.params (regEntry Config.params pid f) = pid := by
  apply word_ext
  simp only [entryOwner, regEntry_eq, toNat_field, toNat_append_add, BitVec.toNat_ofNat,
    Config.params_ownerLsb, OwnerLsb.lsb]
  omega

theorem regEntry_ne_zero (pid : Pid) (f : Frame) (h : pid ≠ 0#8) : regEntry Config.params pid f ≠ 0#32 := by
  intro e
  apply h
  rw [← entryOwner_regEntry pid f, e]
  rfl

end Sys2Proof.Machine
end

