-- ==== Sys2Proof/Laws/Memory.lean ====
section
/-! SUPPORT. The laws of memories: what a read returns after each operation, that every operation keeps
the canonical form, and that equal contents in canonical form are equal data. The read laws hold of
every list, canonical or not. -/

namespace Sys2Proof.Machine

/-! ### Reading lists -/

@[simp] theorem Memory.read_nil (a : Nat) : Memory.read [] a = 0#32 := rfl

theorem Memory.read_cons (k : Nat) (v : Word) (m : Memory) (a : Nat) :
    Memory.read ((k, v) :: m) a = if k = a then v else Memory.read m a := by
  by_cases h : k = a
  · simp [Memory.read, h]
  · have hb : Nat.beq k a = false := by
      rw [← Bool.not_eq_true, Nat.beq_eq]
      exact h
    simp [Memory.read, h, hb]

/-- No entry at `a`: it reads as unlisted. -/
theorem Memory.read_eq_zero (m : Memory) (a : Nat) (h : ∀ cell ∈ m, cell.1 ≠ a) :
    Memory.read m a = 0#32 := by
  induction m with
  | nil => rfl
  | cons cell m ih =>
    obtain ⟨k, v⟩ := cell
    rw [Memory.read_cons, if_neg (h (k, v) (by simp))]
    exact ih fun c hc => h c (by simp [hc])

/-- An append reads as its first part where that part has an entry, else as its second. -/
theorem Memory.read_append_right (m n : Memory) (a : Nat) (h : ∀ cell ∈ m, cell.1 ≠ a) :
    Memory.read (m ++ n) a = Memory.read n a := by
  induction m with
  | nil => rfl
  | cons cell m ih =>
    obtain ⟨k, v⟩ := cell
    rw [List.cons_append, Memory.read_cons, if_neg (h (k, v) (by simp))]
    exact ih fun c hc => h c (by simp [hc])

theorem Memory.read_append_left (m n : Memory) (a : Nat) (h : ∀ cell ∈ n, cell.1 ≠ a) :
    Memory.read (m ++ n) a = Memory.read m a := by
  induction m with
  | nil => simpa using Memory.read_eq_zero n a h
  | cons cell m ih =>
    obtain ⟨k, v⟩ := cell
    rw [List.cons_append, Memory.read_cons, Memory.read_cons, ih]

/-- A filter on addresses keeps the reads of the addresses it keeps. -/
theorem Memory.read_filter (m : Memory) (p : Nat → Bool) (a : Nat) (h : p a = true) :
    Memory.read (m.filter fun cell => p cell.1) a = Memory.read m a := by
  induction m with
  | nil => rfl
  | cons cell m ih =>
    obtain ⟨k, v⟩ := cell
    by_cases hk : k = a
    · subst hk
      simp [h, Memory.read_cons]
    · by_cases hp : p k = true
      · simp [hp, Memory.read_cons, hk, ih]
      · simp [hp, Memory.read_cons, hk, ih]

/-! ### Splices, slices and what is built from them -/

/-- What a splice reads as, for a block that lists only addresses of its own range. -/
theorem Memory.read_splice (m : Memory) (lo n : Nat) (block : Memory) (a : Nat)
    (hb : ∀ cell ∈ block, lo ≤ cell.1 ∧ cell.1 < lo + n) :
    (m.splice lo n block).read a = if lo ≤ a ∧ a < lo + n then block.read a else m.read a := by
  have low : ∀ cell ∈ m.filter (fun cell => Nat.blt cell.1 lo), cell.1 < lo := by
    simp [List.mem_filter]
  have high : ∀ cell ∈ m.filter (fun cell => Nat.ble (lo + n) cell.1), lo + n ≤ cell.1 := by
    simp [List.mem_filter]
  unfold Memory.splice
  split
  · rename_i h
    rw [Memory.read_append_left _ _ _ fun c hc => by have := high c hc; omega,
      Memory.read_append_right _ _ _ fun c hc => by have := low c hc; omega]
  · rename_i h
    by_cases ha : a < lo
    · rw [Memory.read_append_left _ _ _ fun c hc => by have := high c hc; omega,
        Memory.read_append_left _ _ _ fun c hc => by have := hb c hc; omega]
      exact Memory.read_filter m (fun k => Nat.blt k lo) a (by simpa using ha)
    · rw [List.append_assoc, Memory.read_append_right _ _ _ fun c hc => by have := low c hc; omega,
        Memory.read_append_right _ _ _ fun c hc => by have := hb c hc; omega]
      exact Memory.read_filter m (fun k => Nat.ble (lo + n) k) a (by simp; omega)

theorem Memory.read_slice (m : Memory) (lo n a : Nat) :
    (m.slice lo n).read a = if lo ≤ a ∧ a < lo + n then m.read a else 0#32 := by
  unfold Memory.slice
  split
  · exact Memory.read_filter m (fun k => Nat.ble lo k && Nat.blt k (lo + n)) a (by simpa)
  · refine Memory.read_eq_zero _ _ fun c hc => ?_
    simp [List.mem_filter] at hc
    omega

/-- A word written is the word read there, and every other word is as it was. -/
theorem Memory.read_write (m : Memory) (a : Nat) (v : Word) (b : Nat) :
    (m.write a v).read b = if b = a then v else m.read b := by
  unfold Memory.write
  rw [Memory.read_splice]
  · by_cases hb : b = a
    · subst hb
      by_cases hv : v = Config.unlisted
      · simp_all
      · rw [if_neg hv]
        simp [Memory.read_cons]
    · rw [if_neg (by omega), if_neg hb]
  · intro c hc
    split at hc <;> simp_all

theorem Memory.read_write_same (m : Memory) (a : Nat) (v : Word) : (m.write a v).read a = v := by
  simp [Memory.read_write]

theorem Memory.read_write_other (m : Memory) (a : Nat) (v : Word) (b : Nat) (h : b ≠ a) :
    (m.write a v).read b = m.read b := by
  simp [Memory.read_write, h]

theorem Memory.read_zero (m : Memory) (lo n a : Nat) :
    (m.zero lo n).read a = if lo ≤ a ∧ a < lo + n then 0#32 else m.read a := by
  unfold Memory.zero
  rw [Memory.read_splice _ _ _ _ _ (by simp)]
  simp

theorem Memory.read_shift (m : Memory) (dst src i : Nat) (h : ∀ cell ∈ m, src ≤ cell.1) :
    Memory.read (m.map fun cell => (dst + (cell.1 - src), cell.2)) (dst + i) = m.read (src + i) := by
  induction m with
  | nil => rfl
  | cons cell m ih =>
    obtain ⟨k, v⟩ := cell
    have hk := h (k, v) (by simp)
    simp only [List.map_cons, Memory.read_cons]
    rw [ih fun c hc => h c (by simp [hc])]
    by_cases hki : k = src + i
    · rw [if_pos hki, if_pos (by omega)]
    · rw [if_neg hki, if_neg (by simp at hk; omega)]

/-- A copied range reads as the source did, and every other word is as it was. -/
theorem Memory.read_copy (m : Memory) (dst : Nat) (source : Memory) (src n a : Nat) :
    (m.copy dst source src n).read a
      = if dst ≤ a ∧ a < dst + n then source.read (src + (a - dst)) else m.read a := by
  have hsl : ∀ cell ∈ source.slice src n, src ≤ cell.1 ∧ cell.1 < src + n := by
    simp [Memory.slice, List.mem_filter]
  unfold Memory.copy
  rw [Memory.read_splice]
  · split
    · rename_i h
      obtain ⟨i, rfl⟩ : ∃ i, a = dst + i := ⟨a - dst, by omega⟩
      rw [Memory.read_shift _ _ _ _ fun c hc => (hsl c hc).1, Memory.read_slice,
        if_pos (by omega)]
      congr 1
      omega
    · rfl
  · intro c hc
    obtain ⟨d, hd, rfl⟩ := List.mem_map.1 hc
    have := hsl d hd
    simp only
    omega

/-! ### The canonical form -/

theorem Memory.wf_iff (size : Nat) (m : Memory) :
    m.wf size = true ↔
      (m.map Prod.fst).Pairwise (· < ·) ∧ ∀ cell ∈ m, cell.1 < size ∧ cell.2 ≠ 0#32 := by
  simp [Memory.wf]

@[simp] theorem Memory.wf_nil (size : Nat) : Memory.wf size [] = true := rfl

/-- A slice of a canonical memory is canonical. -/
theorem Memory.wf_slice (size : Nat) (m : Memory) (lo n : Nat) (hm : m.wf size = true) :
    (m.slice lo n).wf size = true := by
  rw [Memory.wf_iff] at *
  exact ⟨hm.1.sublist (List.filter_sublist.map _), fun cell h => hm.2 cell (List.mem_filter.1 h).1⟩

/-- A splice of a canonical block into a canonical memory is canonical. -/
theorem Memory.wf_splice (size : Nat) (m : Memory) (lo n : Nat) (block : Memory)
    (hm : m.wf size = true) (hblock : block.wf size = true)
    (hb : ∀ cell ∈ block, lo ≤ cell.1 ∧ cell.1 < lo + n) :
    (m.splice lo n block).wf size = true := by
  rw [Memory.wf_iff] at *
  obtain ⟨ho, hv⟩ := hm
  obtain ⟨ho', hv'⟩ := hblock
  have low : ∀ cell ∈ m.filter (fun cell => Nat.blt cell.1 lo), cell.1 < lo := by
    simp [List.mem_filter]
  have high : ∀ cell ∈ m.filter (fun cell => Nat.ble (lo + n) cell.1), lo + n ≤ cell.1 := by
    simp [List.mem_filter]
  constructor
  · unfold Memory.splice
    rw [List.map_append, List.map_append, List.pairwise_append, List.pairwise_append]
    refine ⟨⟨ho.sublist (List.filter_sublist.map _), ho', ?_⟩,
      ho.sublist (List.filter_sublist.map _), ?_⟩
    · intro a ha b hb'
      obtain ⟨c, hc, rfl⟩ := List.mem_map.1 ha
      obtain ⟨d, hd, rfl⟩ := List.mem_map.1 hb'
      have := low c hc
      have := hb d hd
      omega
    · intro a ha b hb'
      obtain ⟨d, hd, rfl⟩ := List.mem_map.1 hb'
      have := high d hd
      rcases List.mem_append.1 ha with ha | ha
      · obtain ⟨c, hc, rfl⟩ := List.mem_map.1 ha
        have := low c hc
        omega
      · obtain ⟨c, hc, rfl⟩ := List.mem_map.1 ha
        have := hb c hc
        omega
  · intro c hc
    unfold Memory.splice at hc
    rcases List.mem_append.1 hc with hc | hc
    · rcases List.mem_append.1 hc with hc | hc
      · exact hv c (List.mem_filter.1 hc).1
      · exact hv' c hc
    · exact hv c (List.mem_filter.1 hc).1

theorem Memory.wf_write (size : Nat) (m : Memory) (a : Nat) (v : Word)
    (hm : m.wf size = true) (ha : a < size) : (m.write a v).wf size = true := by
  unfold Memory.write
  split
  · exact Memory.wf_splice _ _ _ _ _ hm rfl (by simp)
  · rename_i hv
    refine Memory.wf_splice _ _ _ _ _ hm ?_ (by simp)
    rw [Memory.wf_iff]
    simpa using ⟨ha, hv⟩

theorem Memory.wf_zero (size : Nat) (m : Memory) (lo n : Nat) (hm : m.wf size = true) :
    (m.zero lo n).wf size = true :=
  Memory.wf_splice _ _ _ _ _ hm rfl (by simp)

theorem Memory.wf_copy (size : Nat) (m : Memory) (dst : Nat) (source : Memory) (src n size' : Nat)
    (hm : m.wf size = true) (hs : source.wf size' = true) (h : dst + n ≤ size) :
    (m.copy dst source src n).wf size = true := by
  have hsl : ∀ cell ∈ source.slice src n, src ≤ cell.1 ∧ cell.1 < src + n := by
    simp [Memory.slice, List.mem_filter]
  have hb : ∀ cell ∈ (source.slice src n).map fun cell => (dst + (cell.1 - src), cell.2),
      dst ≤ cell.1 ∧ cell.1 < dst + n := by
    intro c hc
    obtain ⟨d, hd, rfl⟩ := List.mem_map.1 hc
    have := hsl d hd
    simp only
    omega
  refine Memory.wf_splice _ _ _ _ _ hm ?_ hb
  rw [Memory.wf_iff] at *
  constructor
  · have hp : ((source.slice src n).map Prod.fst).Pairwise (· < ·) :=
      hs.1.sublist (List.filter_sublist.map _)
    rw [List.map_map, List.pairwise_map]
    rw [List.pairwise_map] at hp
    refine hp.imp_of_mem ?_
    intro c d hc hd hlt
    have := hsl c hc
    have := hsl d hd
    simp only [Function.comp]
    omega
  · intro c hc
    have := hb c hc
    obtain ⟨d, hd, rfl⟩ := List.mem_map.1 hc
    exact ⟨by omega, (hs.2 d (List.mem_filter.1 hd).1).2⟩

/-- Equal contents in canonical form are equal data. -/
theorem Memory.eq_of_read_eq (size : Nat) (m n : Memory) (hm : m.wf size = true)
    (hn : n.wf size = true) (h : ∀ a, m.read a = n.read a) : m = n := by
  have head : ∀ (k : Nat) (v : Word) (l : Memory), Memory.wf size ((k, v) :: l) = true →
      l.wf size = true ∧ v ≠ 0#32 ∧ (∀ a, a ≤ k → Memory.read l a = 0#32) := by
    intro k v l hl
    rw [Memory.wf_iff] at *
    simp only [List.map_cons, List.pairwise_cons] at hl
    refine ⟨⟨hl.1.2, fun c hc => hl.2 c (by simp [hc])⟩, (hl.2 (k, v) (by simp)).2, ?_⟩
    intro a ha
    refine Memory.read_eq_zero _ _ fun c hc => ?_
    have := hl.1.1 c.1 (List.mem_map.2 ⟨c, hc, rfl⟩)
    omega
  induction m generalizing n with
  | nil =>
    cases n with
    | nil => rfl
    | cons cell n =>
      obtain ⟨k, v⟩ := cell
      have := h k
      rw [Memory.read_cons, if_pos rfl] at this
      exact absurd this.symm (head k v n hn).2.1
  | cons cell m ih =>
    obtain ⟨k, v⟩ := cell
    obtain ⟨hm', hv, hz⟩ := head k v m hm
    cases n with
    | nil =>
      have := h k
      rw [Memory.read_cons, if_pos rfl] at this
      exact absurd this hv
    | cons cell' n =>
      obtain ⟨k', v'⟩ := cell'
      obtain ⟨hn', hv', hz'⟩ := head k' v' n hn
      have hk : k = k' := by
        rcases Nat.lt_trichotomy k k' with hlt | heq | hgt
        · have := h k
          rw [Memory.read_cons, if_pos rfl, Memory.read_cons, if_neg (by omega),
            hz' k (by omega)] at this
          exact absurd this hv
        · exact heq
        · have := h k'
          rw [Memory.read_cons, if_neg (by omega), Memory.read_cons, if_pos rfl,
            hz k' (by omega)] at this
          exact absurd this.symm hv'
      subst hk
      have hvv : v = v' := by simpa [Memory.read_cons] using h k
      subst hvv
      rw [ih n hm' hn' fun a => ?_]
      by_cases ha : k = a
      · subst ha
        rw [hz k le_rfl, hz' k le_rfl]
      · simpa [Memory.read_cons, ha] using h a

/-! ### Bitmaps -/

theorem Memory.read_setBit (m : Memory) (base i a : Nat) :
    (m.setBit base i).read a
      = if a = base + i / 32 then m.read a ||| 1#32 <<< (i % 32) else m.read a := by
  unfold Memory.setBit
  rw [Memory.read_write]
  split <;> simp_all

theorem Memory.read_clearBit (m : Memory) (base i a : Nat) :
    (m.clearBit base i).read a
      = if a = base + i / 32 then m.read a &&& ~~~(1#32 <<< (i % 32)) else m.read a := by
  unfold Memory.clearBit
  rw [Memory.read_write]
  split <;> simp_all

/-- Bit b of the mask of bit i of a bitmap. -/
theorem getLsbD_bitMask (i b : Nat) (hb : b < 32) :
    (1#32 <<< (i % 32)).getLsbD b = decide (b = i % 32) := by
  have hi := Nat.mod_lt i (show 0 < 32 by omega)
  rw [BitVec.getLsbD_shiftLeft, BitVec.getLsbD_one]
  by_cases h : b = i % 32
  · simp [h, hi]
  · simp only [hb, decide_true, Bool.true_and, h, decide_false]
    by_cases hlt : b < i % 32
    · simp [hlt]
    · have hne : ¬ (b - i % 32 = 0) := by omega
      simp [hlt, hne]

theorem Memory.testBit_setBit (m : Memory) (base i j : Nat) :
    (m.setBit base i).testBit base j = (decide (j = i) || m.testBit base j) := by
  unfold Memory.testBit
  rw [Memory.read_setBit]
  have hj := Nat.mod_lt j (show 0 < 32 by omega)
  by_cases hw : base + j / 32 = base + i / 32
  · rw [if_pos hw, BitVec.getLsbD_or, getLsbD_bitMask _ _ hj]
    have : (j % 32 = i % 32) ↔ j = i := by omega
    simp [this, Bool.or_comm]
  · rw [if_neg hw]
    have : ¬ j = i := fun h => hw (by rw [h])
    simp [this]

theorem Memory.testBit_clearBit (m : Memory) (base i j : Nat) :
    (m.clearBit base i).testBit base j = (!decide (j = i) && m.testBit base j) := by
  unfold Memory.testBit
  rw [Memory.read_clearBit]
  have hj := Nat.mod_lt j (show 0 < 32 by omega)
  by_cases hw : base + j / 32 = base + i / 32
  · rw [if_pos hw, BitVec.getLsbD_and, BitVec.getLsbD_not, getLsbD_bitMask _ _ hj]
    have : (j % 32 = i % 32) ↔ j = i := by omega
    simp [this, Bool.and_comm, hj]
  · rw [if_neg hw]
    have : ¬ j = i := fun h => hw (by rw [h])
    simp [this]

/-- A bitmap sees only its own words. -/
theorem Memory.testBit_congr (m n : Memory) (base i : Nat)
    (h : m.read (base + i / 32) = n.read (base + i / 32)) :
    m.testBit base i = n.testBit base i := by
  unfold Memory.testBit
  rw [h]

theorem Memory.wf_setBit (size : Nat) (m : Memory) (base i : Nat) (hm : m.wf size = true)
    (h : base + i / 32 < size) : (m.setBit base i).wf size = true :=
  Memory.wf_write _ _ _ _ hm h

theorem Memory.wf_clearBit (size : Nat) (m : Memory) (base i : Nat) (hm : m.wf size = true)
    (h : base + i / 32 < size) : (m.clearBit base i).wf size = true :=
  Memory.wf_write _ _ _ _ hm h

theorem lowestClear_eq_some (w : Word) (b : Nat) :
    lowestClear w = some b ↔ b < 32 ∧ w.getLsbD b = false ∧ ∀ j < b, w.getLsbD j = true := by
  simp only [lowestClear, List.find?_range_eq_some, List.mem_range]
  simp only [Bool.not_eq_true', Bool.not_not]
  tauto

theorem lowestClear_eq_none (w : Word) :
    lowestClear w = none ↔ ∀ b < 32, w.getLsbD b = true := by
  simp [lowestClear]

/-- The first clear bit of a bitmap: clear, with every lower bit set. -/
theorem Memory.firstClear_eq_some (m : Memory) (base words i : Nat) :
    m.firstClear base words = some i ↔
      i < 32 * words ∧ m.testBit base i = false ∧ ∀ j < i, m.testBit base j = true := by
  unfold Memory.firstClear Memory.testBit
  induction words with
  | zero => simp
  | succ n ih =>
    rw [List.range_succ, List.findSome?_append, Option.or_eq_some_iff, ih]
    simp only [List.findSome?_eq_none_iff, List.mem_range, List.findSome?_cons, List.findSome?_nil,
      Option.map_eq_none_iff, lowestClear_eq_none]
    have hi := Nat.mod_lt i (show 0 < 32 by omega)
    constructor
    · rintro (⟨h1, h2, h3⟩ | ⟨h1, h2⟩)
      · exact ⟨by omega, h2, h3⟩
      · obtain ⟨b, hb, rfl⟩ : ∃ b, lowestClear (m.read (base + n)) = some b ∧ 32 * n + b = i := by
          cases hl : lowestClear (m.read (base + n)) <;> simp_all
        rw [lowestClear_eq_some] at hb
        refine ⟨by omega, ?_, ?_⟩
        · rw [show (32 * n + b) / 32 = n by omega, show (32 * n + b) % 32 = b by omega]
          exact hb.2.1
        · intro j hj
          have hjm := Nat.mod_lt j (show 0 < 32 by omega)
          by_cases hjn : j / 32 < n
          · exact h1 _ hjn _ hjm
          · rw [show j / 32 = n by omega]
            exact hb.2.2 _ (by omega)
    · rintro ⟨h1, h2, h3⟩
      by_cases hn : i < 32 * n
      · exact .inl ⟨hn, h2, h3⟩
      · refine .inr ⟨fun w hw b hb => ?_, ?_⟩
        · have := h3 (32 * w + b) (by omega)
          rwa [show (32 * w + b) / 32 = w by omega, show (32 * w + b) % 32 = b by omega] at this
        · have hb : lowestClear (m.read (base + n)) = some (i % 32) := by
            rw [lowestClear_eq_some]
            rw [show i / 32 = n by omega] at h2
            refine ⟨hi, h2, fun j hj => ?_⟩
            have := h3 (32 * n + j) (by omega)
            rwa [show (32 * n + j) / 32 = n by omega, show (32 * n + j) % 32 = j by omega] at this
          rw [hb]
          simp
          omega

theorem Memory.firstClear_eq_none (m : Memory) (base words : Nat) :
    m.firstClear base words = none ↔ ∀ i < 32 * words, m.testBit base i = true := by
  unfold Memory.firstClear Memory.testBit
  simp only [List.findSome?_eq_none_iff, List.mem_range, Option.map_eq_none_iff, lowestClear_eq_none]
  constructor
  · intro h i hi
    exact h _ (by omega) _ (Nat.mod_lt i (by omega))
  · intro h w hw b hb
    have := h (32 * w + b) (by omega)
    rwa [show (32 * w + b) / 32 = w by omega, show (32 * w + b) % 32 = b by omega] at this

/-- This hardware's scan: the lowest clear bit below the limit. -/
theorem Memory.scan_eq_some (m : Memory) (base words limit i : Nat) (hl : limit ≤ 32 * words) :
    m.scan Config.params base words limit = some i ↔
      i < limit ∧ m.testBit base i = false ∧ ∀ j < i, m.testBit base j = true := by
  simp only [Memory.scan, Config.params_allocOrder, Option.filter_eq_some_iff,
    Memory.firstClear_eq_some, Nat.blt_eq]
  constructor
  · rintro ⟨⟨_, h1, h2⟩, h3⟩
    exact ⟨h3, h1, h2⟩
  · rintro ⟨h1, h2, h3⟩
    exact ⟨⟨by omega, h2, h3⟩, h1⟩

theorem Memory.scan_eq_none (m : Memory) (base words limit : Nat) (hl : limit ≤ 32 * words) :
    m.scan Config.params base words limit = none ↔ ∀ i < limit, m.testBit base i = true := by
  constructor
  · intro h i hi
    by_contra hc
    have hc : m.testBit base i = false := by simpa using hc
    have hex : ∃ i, i < limit ∧ m.testBit base i = false := ⟨i, hi, hc⟩
    have hmin := Nat.find_spec hex
    have : m.scan Config.params base words limit = some (Nat.find hex) := by
      rw [Memory.scan_eq_some _ _ _ _ _ hl]
      refine ⟨hmin.1, hmin.2, fun j hj => ?_⟩
      have := Nat.find_min hex hj
      simp only [not_and, Bool.not_eq_false] at this
      exact this (by omega)
    rw [h] at this
    cases this
  · intro h
    cases hs : m.scan Config.params base words limit with
    | none => rfl
    | some i =>
      rw [Memory.scan_eq_some _ _ _ _ _ hl] at hs
      rw [h i hs.1] at hs
      simp at hs

/-- Whatever ALLOC_ORDER is, a scan names a clear bit below its limit. -/
theorem Memory.scan_clear (c : Params) (m : Memory) (base words limit i : Nat)
    (h : m.scan c base words limit = some i) : i < limit ∧ m.testBit base i = false := by
  unfold Memory.scan at h
  split at h
  · rw [Option.filter_eq_some_iff, Memory.firstClear_eq_some] at h
    exact ⟨by simpa using h.2, h.1.2.1⟩
  · have := List.mem_of_getElem? h
    simpa [List.mem_filter] using this

end Sys2Proof.Machine
end

