-- ==== Sys2Proof/Laws/State.lean ====
section
/-! SUPPORT. What each named update of State does to each field: one lemma per field, by rfl. -/

namespace Sys2Proof.Machine

section memWrite
variable (s : State) (pa : PAddr) (v : Word)
@[simp] theorem State.memWrite_curPid : (s.memWrite pa v).curPid = s.curPid := rfl
@[simp] theorem State.memWrite_activeDir : (s.memWrite pa v).activeDir = s.activeDir := rfl
@[simp] theorem State.memWrite_wdata : (s.memWrite pa v).wdata = s.wdata := rfl
@[simp] theorem State.memWrite_rdata : (s.memWrite pa v).rdata = s.rdata := rfl
@[simp] theorem State.memWrite_status : (s.memWrite pa v).status = s.status := rfl
@[simp] theorem State.memWrite_fva : (s.memWrite pa v).fva = s.fva := rfl
@[simp] theorem State.memWrite_fent : (s.memWrite pa v).fent = s.fent := rfl
@[simp] theorem State.memWrite_frames : (s.memWrite pa v).frames = s.frames.write pa.toNat v := rfl
@[simp] theorem State.memWrite_disk : (s.memWrite pa v).disk = s.disk := rfl
@[simp] theorem State.memWrite_trace : (s.memWrite pa v).trace = s.trace := rfl
@[simp] theorem State.memWrite_inputs : (s.memWrite pa v).inputs = s.inputs := rfl
@[simp] theorem State.memWrite_hostReads : (s.memWrite pa v).hostReads = s.hostReads := rfl
end memWrite

section setActiveDir
variable (s : State) (f : Frame)
@[simp] theorem State.setActiveDir_curPid : (s.setActiveDir f).curPid = s.curPid := rfl
@[simp] theorem State.setActiveDir_activeDir : (s.setActiveDir f).activeDir = f := rfl
@[simp] theorem State.setActiveDir_wdata : (s.setActiveDir f).wdata = s.wdata := rfl
@[simp] theorem State.setActiveDir_rdata : (s.setActiveDir f).rdata = s.rdata := rfl
@[simp] theorem State.setActiveDir_status : (s.setActiveDir f).status = s.status := rfl
@[simp] theorem State.setActiveDir_fva : (s.setActiveDir f).fva = s.fva := rfl
@[simp] theorem State.setActiveDir_fent : (s.setActiveDir f).fent = s.fent := rfl
@[simp] theorem State.setActiveDir_frames : (s.setActiveDir f).frames = s.frames := rfl
@[simp] theorem State.setActiveDir_disk : (s.setActiveDir f).disk = s.disk := rfl
@[simp] theorem State.setActiveDir_trace : (s.setActiveDir f).trace = s.trace := rfl
@[simp] theorem State.setActiveDir_inputs : (s.setActiveDir f).inputs = s.inputs := rfl
@[simp] theorem State.setActiveDir_hostReads : (s.setActiveDir f).hostReads = s.hostReads := rfl
end setActiveDir

section emit
variable (s : State) (e : Event)
@[simp] theorem State.emit_curPid : (s.emit e).curPid = s.curPid := rfl
@[simp] theorem State.emit_activeDir : (s.emit e).activeDir = s.activeDir := rfl
@[simp] theorem State.emit_wdata : (s.emit e).wdata = s.wdata := rfl
@[simp] theorem State.emit_rdata : (s.emit e).rdata = s.rdata := rfl
@[simp] theorem State.emit_status : (s.emit e).status = s.status := rfl
@[simp] theorem State.emit_fva : (s.emit e).fva = s.fva := rfl
@[simp] theorem State.emit_fent : (s.emit e).fent = s.fent := rfl
@[simp] theorem State.emit_frames : (s.emit e).frames = s.frames := rfl
@[simp] theorem State.emit_disk : (s.emit e).disk = s.disk := rfl
@[simp] theorem State.emit_trace : (s.emit e).trace = s.trace ++ [e] := rfl
@[simp] theorem State.emit_inputs : (s.emit e).inputs = s.inputs := rfl
@[simp] theorem State.emit_hostReads : (s.emit e).hostReads = s.hostReads := rfl
end emit

section complete
variable (s : State) (st : Status) (pfd pft : Bool) (v : Word)
@[simp] theorem State.complete_curPid : (s.complete st pfd pft v).curPid = s.curPid := rfl
@[simp] theorem State.complete_activeDir : (s.complete st pfd pft v).activeDir = s.activeDir := rfl
@[simp] theorem State.complete_wdata : (s.complete st pfd pft v).wdata = s.wdata := rfl
@[simp] theorem State.complete_rdata : (s.complete st pfd pft v).rdata = v := rfl
@[simp] theorem State.complete_status : (s.complete st pfd pft v).status = statusWord st pfd pft := rfl
@[simp] theorem State.complete_fva : (s.complete st pfd pft v).fva = s.fva := rfl
@[simp] theorem State.complete_fent : (s.complete st pfd pft v).fent = s.fent := rfl
@[simp] theorem State.complete_frames : (s.complete st pfd pft v).frames = s.frames := rfl
@[simp] theorem State.complete_disk : (s.complete st pfd pft v).disk = s.disk := rfl
@[simp] theorem State.complete_trace : (s.complete st pfd pft v).trace = s.trace := rfl
@[simp] theorem State.complete_inputs : (s.complete st pfd pft v).inputs = s.inputs := rfl
@[simp] theorem State.complete_hostReads : (s.complete st pfd pft v).hostReads = s.hostReads := rfl
end complete

section finish
variable (s : State) (v : Word)
@[simp] theorem State.finish_curPid : (s.finish v).curPid = s.curPid := rfl
@[simp] theorem State.finish_activeDir : (s.finish v).activeDir = s.activeDir := rfl
@[simp] theorem State.finish_wdata : (s.finish v).wdata = s.wdata := rfl
@[simp] theorem State.finish_rdata : (s.finish v).rdata = v := rfl
@[simp] theorem State.finish_status : (s.finish v).status = statusWord .ok false false := rfl
@[simp] theorem State.finish_fva : (s.finish v).fva = s.fva := rfl
@[simp] theorem State.finish_fent : (s.finish v).fent = s.fent := rfl
@[simp] theorem State.finish_frames : (s.finish v).frames = s.frames := rfl
@[simp] theorem State.finish_disk : (s.finish v).disk = s.disk := rfl
@[simp] theorem State.finish_trace : (s.finish v).trace = s.trace := rfl
@[simp] theorem State.finish_inputs : (s.finish v).inputs = s.inputs := rfl
@[simp] theorem State.finish_hostReads : (s.finish v).hostReads = s.hostReads := rfl
end finish

section raise
variable (s : State) (st : Status)
@[simp] theorem State.raise_curPid : (s.raise st).curPid = s.curPid := rfl
@[simp] theorem State.raise_activeDir : (s.raise st).activeDir = s.activeDir := rfl
@[simp] theorem State.raise_wdata : (s.raise st).wdata = s.wdata := rfl
@[simp] theorem State.raise_rdata : (s.raise st).rdata = 0#32 := rfl
@[simp] theorem State.raise_status : (s.raise st).status = statusWord st false false := rfl
@[simp] theorem State.raise_fva : (s.raise st).fva = s.fva := rfl
@[simp] theorem State.raise_fent : (s.raise st).fent = s.fent := rfl
@[simp] theorem State.raise_frames : (s.raise st).frames = s.frames := rfl
@[simp] theorem State.raise_disk : (s.raise st).disk = s.disk := rfl
@[simp] theorem State.raise_trace : (s.raise st).trace = s.trace := rfl
@[simp] theorem State.raise_inputs : (s.raise st).inputs = s.inputs := rfl
@[simp] theorem State.raise_hostReads : (s.raise st).hostReads = s.hostReads := rfl
end raise

section frameSet
variable (s : State) (f : Frame)
@[simp] theorem State.frameSet_curPid : (s.frameSet f).curPid = s.curPid := rfl
@[simp] theorem State.frameSet_activeDir : (s.frameSet f).activeDir = s.activeDir := rfl
@[simp] theorem State.frameSet_wdata : (s.frameSet f).wdata = s.wdata := rfl
@[simp] theorem State.frameSet_rdata : (s.frameSet f).rdata = s.rdata := rfl
@[simp] theorem State.frameSet_status : (s.frameSet f).status = s.status := rfl
@[simp] theorem State.frameSet_fva : (s.frameSet f).fva = s.fva := rfl
@[simp] theorem State.frameSet_fent : (s.frameSet f).fent = s.fent := rfl
@[simp] theorem State.frameSet_frames : (s.frameSet f).frames = s.frames.setBit 0 f.toNat := rfl
@[simp] theorem State.frameSet_disk : (s.frameSet f).disk = s.disk := rfl
@[simp] theorem State.frameSet_trace : (s.frameSet f).trace = s.trace := rfl
@[simp] theorem State.frameSet_inputs : (s.frameSet f).inputs = s.inputs := rfl
@[simp] theorem State.frameSet_hostReads : (s.frameSet f).hostReads = s.hostReads := rfl
end frameSet

section frameClear
variable (s : State) (f : Frame)
@[simp] theorem State.frameClear_curPid : (s.frameClear f).curPid = s.curPid := rfl
@[simp] theorem State.frameClear_activeDir : (s.frameClear f).activeDir = s.activeDir := rfl
@[simp] theorem State.frameClear_wdata : (s.frameClear f).wdata = s.wdata := rfl
@[simp] theorem State.frameClear_rdata : (s.frameClear f).rdata = s.rdata := rfl
@[simp] theorem State.frameClear_status : (s.frameClear f).status = s.status := rfl
@[simp] theorem State.frameClear_fva : (s.frameClear f).fva = s.fva := rfl
@[simp] theorem State.frameClear_fent : (s.frameClear f).fent = s.fent := rfl
@[simp] theorem State.frameClear_frames : (s.frameClear f).frames = s.frames.clearBit 0 f.toNat := rfl
@[simp] theorem State.frameClear_disk : (s.frameClear f).disk = s.disk := rfl
@[simp] theorem State.frameClear_trace : (s.frameClear f).trace = s.trace := rfl
@[simp] theorem State.frameClear_inputs : (s.frameClear f).inputs = s.inputs := rfl
@[simp] theorem State.frameClear_hostReads : (s.frameClear f).hostReads = s.hostReads := rfl
end frameClear

section zeroFrame
variable (s : State) (f : Frame)
@[simp] theorem State.zeroFrame_curPid : (s.zeroFrame f).curPid = s.curPid := rfl
@[simp] theorem State.zeroFrame_activeDir : (s.zeroFrame f).activeDir = s.activeDir := rfl
@[simp] theorem State.zeroFrame_wdata : (s.zeroFrame f).wdata = s.wdata := rfl
@[simp] theorem State.zeroFrame_rdata : (s.zeroFrame f).rdata = s.rdata := rfl
@[simp] theorem State.zeroFrame_status : (s.zeroFrame f).status = s.status := rfl
@[simp] theorem State.zeroFrame_fva : (s.zeroFrame f).fva = s.fva := rfl
@[simp] theorem State.zeroFrame_fent : (s.zeroFrame f).fent = s.fent := rfl
@[simp] theorem State.zeroFrame_frames : (s.zeroFrame f).frames = s.frames.zero (f.toNat * 256) 256 := rfl
@[simp] theorem State.zeroFrame_disk : (s.zeroFrame f).disk = s.disk := rfl
@[simp] theorem State.zeroFrame_trace : (s.zeroFrame f).trace = s.trace := rfl
@[simp] theorem State.zeroFrame_inputs : (s.zeroFrame f).inputs = s.inputs := rfl
@[simp] theorem State.zeroFrame_hostReads : (s.zeroFrame f).hostReads = s.hostReads := rfl
end zeroFrame

section sectorSet
variable (s : State) (c : Params) (i : Nat)
@[simp] theorem State.sectorSet_curPid : (s.sectorSet c i).curPid = s.curPid := rfl
@[simp] theorem State.sectorSet_activeDir : (s.sectorSet c i).activeDir = s.activeDir := rfl
@[simp] theorem State.sectorSet_wdata : (s.sectorSet c i).wdata = s.wdata := rfl
@[simp] theorem State.sectorSet_rdata : (s.sectorSet c i).rdata = s.rdata := rfl
@[simp] theorem State.sectorSet_status : (s.sectorSet c i).status = s.status := rfl
@[simp] theorem State.sectorSet_fva : (s.sectorSet c i).fva = s.fva := rfl
@[simp] theorem State.sectorSet_fent : (s.sectorSet c i).fent = s.fent := rfl
@[simp] theorem State.sectorSet_frames : (s.sectorSet c i).frames = s.frames.setBit (mirrorBase c) i := rfl
@[simp] theorem State.sectorSet_disk : (s.sectorSet c i).disk = s.disk := rfl
@[simp] theorem State.sectorSet_trace : (s.sectorSet c i).trace = s.trace := rfl
@[simp] theorem State.sectorSet_inputs : (s.sectorSet c i).inputs = s.inputs := rfl
@[simp] theorem State.sectorSet_hostReads : (s.sectorSet c i).hostReads = s.hostReads := rfl
end sectorSet

section sectorClear
variable (s : State) (c : Params) (i : Nat)
@[simp] theorem State.sectorClear_curPid : (s.sectorClear c i).curPid = s.curPid := rfl
@[simp] theorem State.sectorClear_activeDir : (s.sectorClear c i).activeDir = s.activeDir := rfl
@[simp] theorem State.sectorClear_wdata : (s.sectorClear c i).wdata = s.wdata := rfl
@[simp] theorem State.sectorClear_rdata : (s.sectorClear c i).rdata = s.rdata := rfl
@[simp] theorem State.sectorClear_status : (s.sectorClear c i).status = s.status := rfl
@[simp] theorem State.sectorClear_fva : (s.sectorClear c i).fva = s.fva := rfl
@[simp] theorem State.sectorClear_fent : (s.sectorClear c i).fent = s.fent := rfl
@[simp] theorem State.sectorClear_frames : (s.sectorClear c i).frames = s.frames.clearBit (mirrorBase c) i := rfl
@[simp] theorem State.sectorClear_disk : (s.sectorClear c i).disk = s.disk := rfl
@[simp] theorem State.sectorClear_trace : (s.sectorClear c i).trace = s.trace := rfl
@[simp] theorem State.sectorClear_inputs : (s.sectorClear c i).inputs = s.inputs := rfl
@[simp] theorem State.sectorClear_hostReads : (s.sectorClear c i).hostReads = s.hostReads := rfl
end sectorClear

section sectorToFrame
variable (s : State) (k : Sector) (f : Frame)
@[simp] theorem State.sectorToFrame_curPid : (s.sectorToFrame k f).curPid = s.curPid := rfl
@[simp] theorem State.sectorToFrame_activeDir : (s.sectorToFrame k f).activeDir = s.activeDir := rfl
@[simp] theorem State.sectorToFrame_wdata : (s.sectorToFrame k f).wdata = s.wdata := rfl
@[simp] theorem State.sectorToFrame_rdata : (s.sectorToFrame k f).rdata = s.rdata := rfl
@[simp] theorem State.sectorToFrame_status : (s.sectorToFrame k f).status = s.status := rfl
@[simp] theorem State.sectorToFrame_fva : (s.sectorToFrame k f).fva = s.fva := rfl
@[simp] theorem State.sectorToFrame_fent : (s.sectorToFrame k f).fent = s.fent := rfl
@[simp] theorem State.sectorToFrame_frames : (s.sectorToFrame k f).frames = s.frames.copy (f.toNat * 256) s.disk (diskAddr k.toNat 0) 256 := rfl
@[simp] theorem State.sectorToFrame_disk : (s.sectorToFrame k f).disk = s.disk := rfl
@[simp] theorem State.sectorToFrame_trace : (s.sectorToFrame k f).trace = s.trace := rfl
@[simp] theorem State.sectorToFrame_inputs : (s.sectorToFrame k f).inputs = s.inputs := rfl
@[simp] theorem State.sectorToFrame_hostReads : (s.sectorToFrame k f).hostReads = s.hostReads := rfl
end sectorToFrame

section frameToSector
variable (s : State) (f : Frame) (k : Sector)
@[simp] theorem State.frameToSector_curPid : (s.frameToSector f k).curPid = s.curPid := rfl
@[simp] theorem State.frameToSector_activeDir : (s.frameToSector f k).activeDir = s.activeDir := rfl
@[simp] theorem State.frameToSector_wdata : (s.frameToSector f k).wdata = s.wdata := rfl
@[simp] theorem State.frameToSector_rdata : (s.frameToSector f k).rdata = s.rdata := rfl
@[simp] theorem State.frameToSector_status : (s.frameToSector f k).status = s.status := rfl
@[simp] theorem State.frameToSector_fva : (s.frameToSector f k).fva = s.fva := rfl
@[simp] theorem State.frameToSector_fent : (s.frameToSector f k).fent = s.fent := rfl
@[simp] theorem State.frameToSector_frames : (s.frameToSector f k).frames = s.frames := rfl
@[simp] theorem State.frameToSector_disk : (s.frameToSector f k).disk = s.disk.copy (diskAddr k.toNat 0) s.frames (f.toNat * 256) 256 := rfl
@[simp] theorem State.frameToSector_trace : (s.frameToSector f k).trace = s.trace := rfl
@[simp] theorem State.frameToSector_inputs : (s.frameToSector f k).inputs = s.inputs := rfl
@[simp] theorem State.frameToSector_hostReads : (s.frameToSector f k).hostReads = s.hostReads := rfl
end frameToSector

section persistSwap
variable (s : State) (c : Params)
@[simp] theorem State.persistSwap_curPid : (s.persistSwap c).curPid = s.curPid := rfl
@[simp] theorem State.persistSwap_activeDir : (s.persistSwap c).activeDir = s.activeDir := rfl
@[simp] theorem State.persistSwap_wdata : (s.persistSwap c).wdata = s.wdata := rfl
@[simp] theorem State.persistSwap_rdata : (s.persistSwap c).rdata = s.rdata := rfl
@[simp] theorem State.persistSwap_status : (s.persistSwap c).status = s.status := rfl
@[simp] theorem State.persistSwap_fva : (s.persistSwap c).fva = s.fva := rfl
@[simp] theorem State.persistSwap_fent : (s.persistSwap c).fent = s.fent := rfl
@[simp] theorem State.persistSwap_frames : (s.persistSwap c).frames = s.frames := rfl
@[simp] theorem State.persistSwap_disk : (s.persistSwap c).disk = s.disk.copy (diskAddr c.swapBmSector.toNat 0) s.frames (mirrorBase c) 256 := rfl
@[simp] theorem State.persistSwap_trace : (s.persistSwap c).trace = s.trace := rfl
@[simp] theorem State.persistSwap_inputs : (s.persistSwap c).inputs = s.inputs := rfl
@[simp] theorem State.persistSwap_hostReads : (s.persistSwap c).hostReads = s.hostReads := rfl
end persistSwap

section logFault
variable (s : State) (va : VAddr) (l : Level) (e : Word) (fatal : Bool)
@[simp] theorem State.logFault_curPid : (s.logFault va l e fatal).curPid = s.curPid := rfl
@[simp] theorem State.logFault_activeDir : (s.logFault va l e fatal).activeDir = s.activeDir := rfl
@[simp] theorem State.logFault_wdata : (s.logFault va l e fatal).wdata = s.wdata := rfl
@[simp] theorem State.logFault_rdata : (s.logFault va l e fatal).rdata = s.rdata := rfl
@[simp] theorem State.logFault_status : (s.logFault va l e fatal).status = s.status := rfl
@[simp] theorem State.logFault_fva : (s.logFault va l e fatal).fva = faultWord fatal l va := rfl
@[simp] theorem State.logFault_fent : (s.logFault va l e fatal).fent = e := rfl
@[simp] theorem State.logFault_frames : (s.logFault va l e fatal).frames = s.frames := rfl
@[simp] theorem State.logFault_disk : (s.logFault va l e fatal).disk = s.disk := rfl
@[simp] theorem State.logFault_trace : (s.logFault va l e fatal).trace = s.trace ++ [if fatal then .fatal va l e else .perm va l e] := rfl
@[simp] theorem State.logFault_inputs : (s.logFault va l e fatal).inputs = s.inputs := rfl
@[simp] theorem State.logFault_hostReads : (s.logFault va l e fatal).hostReads = s.hostReads := rfl
end logFault

end Sys2Proof.Machine
end

