-- ==== Sys2Proof/Laws/Ops.lean ====
section
/-! SUPPORT. One law per shared operation, in the terms of Safety.lean: what it leaves at every physical
address and in the bitmaps, and what the scans find. Callers cite these and unfold nothing. -/

namespace Sys2Proof.Machine

/-! ### Physical addresses -/

theorem frameWord_toNat (f : Frame) (i : Offset) :
    (frameWord f i).toNat = f.toNat * 256 + i.toNat := by
  unfold frameWord
  rw [BitVec.toNat_append, Nat.shiftLeft_eq, Nat.mul_comm, ← Nat.two_pow_add_eq_or_of_lt i.isLt]

theorem frameOf_toNat (pa : PAddr) : (frameOf pa).toNat = pa.toNat / 256 := by
  unfold frameOf
  have := pa.isLt
  simp [BitVec.extractLsb'_toNat, Nat.shiftRight_eq_div_pow]
  omega

theorem frameOf_eq_iff (pa : PAddr) (f : Frame) :
    frameOf pa = f ↔ f.toNat * 256 ≤ pa.toNat ∧ pa.toNat < f.toNat * 256 + 256 := by
  rw [← BitVec.toNat_inj, frameOf_toNat]
  omega

@[simp] theorem frameOf_frameWord (f : Frame) (i : Offset) : frameOf (frameWord f i) = f := by
  rw [frameOf_eq_iff, frameWord_toNat]
  have := i.isLt
  omega

theorem frameWord_inj (f g : Frame) (i j : Offset) :
    frameWord f i = frameWord g j ↔ f = g ∧ i = j := by
  constructor
  · intro h
    have hf : f = g := by rw [← frameOf_frameWord f i, h, frameOf_frameWord]
    subst hf
    refine ⟨rfl, ?_⟩
    have := congrArg BitVec.toNat h
    rw [frameWord_toNat, frameWord_toNat] at this
    exact BitVec.eq_of_toNat_eq (by omega)
  · rintro ⟨rfl, rfl⟩
    rfl

/-- Every address is a word of its frame. -/
theorem exists_frameWord (pa : PAddr) : ∃ i, pa = frameWord (frameOf pa) i := by
  refine ⟨BitVec.ofNat 8 (pa.toNat % 256), BitVec.eq_of_toNat_eq ?_⟩
  rw [frameWord_toNat, frameOf_toNat]
  simp
  omega

theorem bitmapWord_toNat (f : Frame) : (bitmapWord f).toNat = f.toNat / 32 := by
  have := f.isLt
  simp [bitmapWord]
  omega

theorem slotAddr_toNat (k : Nat) (hk : k < 3584) :
    (slotAddr Config.params k).toNat = 256 + k := by
  simp [slotAddr]
  omega

theorem mirrorWord_toNat (i : Nat) (hi : i < 8192) : (mirrorWord i).toNat = 3840 + i / 32 := by
  simp [mirrorWord]
  omega

/-- A frame that is not below FIRST_FREE_FRAME lies above every reserved word. -/
theorem firstFree_le (f : Frame) : ¬ f < Config.firstFreeFrame ↔ 16 ≤ f.toNat := by
  simp [BitVec.lt_def]

theorem lt_firstFree (f : Frame) : f < Config.firstFreeFrame ↔ f.toNat < 16 := by
  simp [BitVec.lt_def]

/-! ### What each operation leaves at a physical address -/

theorem mem_congr (s t : State) (pa : PAddr) (h : t.frames = s.frames) : t.mem pa = s.mem pa := by
  simp [State.mem, h]

@[simp] theorem mem_setActiveDir (s : State) (f : Frame) (pa : PAddr) :
    (s.setActiveDir f).mem pa = s.mem pa := rfl

@[simp] theorem mem_emit (s : State) (e : Event) (pa : PAddr) : (s.emit e).mem pa = s.mem pa := rfl

@[simp] theorem mem_complete (s : State) (st : Status) (pfd pft : Bool) (v : Word) (pa : PAddr) :
    (s.complete st pfd pft v).mem pa = s.mem pa := rfl

@[simp] theorem mem_finish (s : State) (v : Word) (pa : PAddr) : (s.finish v).mem pa = s.mem pa := rfl

@[simp] theorem mem_raise (s : State) (st : Status) (pa : PAddr) : (s.raise st).mem pa = s.mem pa := rfl

@[simp] theorem mem_logFault (s : State) (va : VAddr) (l : Level) (e : Word) (fatal : Bool)
    (pa : PAddr) : (s.logFault va l e fatal).mem pa = s.mem pa := rfl

@[simp] theorem mem_frameToSector (s : State) (f : Frame) (k : Sector) (pa : PAddr) :
    (s.frameToSector f k).mem pa = s.mem pa := rfl

@[simp] theorem mem_persistSwap (c : Params) (s : State) (pa : PAddr) :
    (s.persistSwap c).mem pa = s.mem pa := rfl

theorem mem_memWrite (s : State) (pa : PAddr) (v : Word) (b : PAddr) :
    (s.memWrite pa v).mem b = if b = pa then v else s.mem b := by
  simp only [State.mem, State.memWrite_frames, Memory.read_write, BitVec.toNat_inj]

@[simp] theorem mem_memWrite_same (s : State) (pa : PAddr) (v : Word) :
    (s.memWrite pa v).mem pa = v := by
  simp [mem_memWrite]

theorem mem_zeroFrame (s : State) (f : Frame) (b : PAddr) :
    (s.zeroFrame f).mem b = if frameOf b = f then 0#32 else s.mem b := by
  simp only [State.mem, State.zeroFrame_frames, Memory.read_zero, frameOf_eq_iff]

theorem mem_frameSet (s : State) (f : Frame) (b : PAddr) :
    (s.frameSet f).mem b
      = if b = bitmapWord f then s.mem b ||| 1#32 <<< (f.toNat % 32) else s.mem b := by
  simp only [State.mem, State.frameSet_frames, Memory.read_setBit, ← BitVec.toNat_inj (x := b),
    bitmapWord_toNat, Nat.zero_add]

theorem mem_frameClear (s : State) (f : Frame) (b : PAddr) :
    (s.frameClear f).mem b
      = if b = bitmapWord f then s.mem b &&& ~~~(1#32 <<< (f.toNat % 32)) else s.mem b := by
  simp only [State.mem, State.frameClear_frames, Memory.read_clearBit, ← BitVec.toNat_inj (x := b),
    bitmapWord_toNat, Nat.zero_add]

theorem mem_sectorToFrame (s : State) (k : Sector) (f : Frame) (b : PAddr) :
    (s.sectorToFrame k f).mem b
      = if frameOf b = f then s.diskRead k (b.extractLsb' 0 8) else s.mem b := by
  simp only [State.mem, State.sectorToFrame_frames, Memory.read_copy, frameOf_eq_iff]
  split
  · have : diskAddr k.toNat 0 + (b.toNat - f.toNat * 256)
        = diskAddr k.toNat (b.extractLsb' 0 8).toNat := by
      simp only [diskAddr, BitVec.extractLsb'_toNat, Nat.shiftRight_zero]
      omega
    rw [this]
    rfl
  · rfl

theorem mirrorBase_params : mirrorBase Config.params = 3840 := rfl

theorem mem_sectorSet (s : State) (i : Nat) (hi : i < 8192) (b : PAddr) :
    (s.sectorSet Config.params i).mem b
      = if b = mirrorWord i then s.mem b ||| 1#32 <<< (i % 32) else s.mem b := by
  simp only [State.mem, State.sectorSet_frames, Memory.read_setBit, ← BitVec.toNat_inj (x := b),
    mirrorWord_toNat i hi, mirrorBase_params]

theorem mem_sectorClear (s : State) (i : Nat) (hi : i < 8192) (b : PAddr) :
    (s.sectorClear Config.params i).mem b
      = if b = mirrorWord i then s.mem b &&& ~~~(1#32 <<< (i % 32)) else s.mem b := by
  simp only [State.mem, State.sectorClear_frames, Memory.read_clearBit, ← BitVec.toNat_inj (x := b),
    mirrorWord_toNat i hi, mirrorBase_params]

theorem diskRead_frameToSector (s : State) (f : Frame) (k k' : Sector) (i : Offset) :
    (s.frameToSector f k).diskRead k' i
      = if k' = k then s.mem (frameWord f i) else s.diskRead k' i := by
  have hi := i.isLt
  simp only [State.diskRead, State.frameToSector_disk, Memory.read_copy, diskAddr, Config.frameWords,
    State.mem, frameWord_toNat]
  by_cases h : k' = k
  · subst h
    rw [if_pos (by omega), if_pos rfl]
    exact congrArg _ (by omega)
  · have : k'.toNat ≠ k.toNat := fun e => h (BitVec.eq_of_toNat_eq e)
    rw [if_neg (by omega), if_neg h]

theorem diskRead_persistSwap (s : State) (k : Sector) (i : Offset) :
    (s.persistSwap Config.params).diskRead k i
      = if k = 0#13 then s.mem (frameWord 15#12 i) else s.diskRead k i :=
  diskRead_frameToSector s 15#12 0#13 k i

/-! ### The free-frame bitmap -/

theorem frameUsed_eq (s : State) (f : Frame) :
    s.frameUsed f = (s.mem (bitmapWord f)).getLsbD (f.toNat % 32) := by
  simp [State.frameUsed, Memory.testBit, State.mem, bitmapWord_toNat]

/-- The bitmap sees only its own words. -/
theorem frameUsed_congr (s t : State) (f : Frame) (h : t.mem (bitmapWord f) = s.mem (bitmapWord f)) :
    t.frameUsed f = s.frameUsed f := by
  rw [frameUsed_eq, frameUsed_eq, h]

theorem bitmapWord_lt (f : Frame) : (bitmapWord f).toNat < 128 := by
  have := f.isLt
  rw [bitmapWord_toNat]
  omega

@[simp] theorem frameUsed_frameSet (s : State) (f g : Frame) :
    (s.frameSet f).frameUsed g = (decide (g = f) || s.frameUsed g) := by
  simp only [State.frameUsed, State.frameSet_frames, Config.fbmBase, Memory.testBit_setBit,
    BitVec.toNat_inj]

@[simp] theorem frameUsed_frameClear (s : State) (f g : Frame) :
    (s.frameClear f).frameUsed g = (!decide (g = f) && s.frameUsed g) := by
  simp only [State.frameUsed, State.frameClear_frames, Config.fbmBase, Memory.testBit_clearBit,
    BitVec.toNat_inj]

theorem frameUsed_memWrite (s : State) (pa : PAddr) (v : Word) (g : Frame) (h : 128 ≤ pa.toNat) :
    (s.memWrite pa v).frameUsed g = s.frameUsed g := by
  refine frameUsed_congr _ _ _ ?_
  rw [mem_memWrite, if_neg]
  rintro rfl
  have := bitmapWord_lt g
  omega

theorem frameUsed_zeroFrame (s : State) (f g : Frame) (h : f ≠ 0#12) :
    (s.zeroFrame f).frameUsed g = s.frameUsed g := by
  refine frameUsed_congr _ _ _ ?_
  rw [mem_zeroFrame, if_neg]
  rw [frameOf_eq_iff]
  have := bitmapWord_lt g
  have : f.toNat ≠ 0 := fun e => h (BitVec.eq_of_toNat_eq (by simpa using e))
  omega

@[simp] theorem frameUsed_emit (s : State) (e : Event) (g : Frame) :
    (s.emit e).frameUsed g = s.frameUsed g := rfl

@[simp] theorem frameUsed_setActiveDir (s : State) (f g : Frame) :
    (s.setActiveDir f).frameUsed g = s.frameUsed g := rfl

@[simp] theorem frameUsed_finish (s : State) (v : Word) (g : Frame) :
    (s.finish v).frameUsed g = s.frameUsed g := rfl

@[simp] theorem frameUsed_raise (s : State) (st : Status) (g : Frame) :
    (s.raise st).frameUsed g = s.frameUsed g := rfl

theorem testBit_eq_frameUsed (s : State) (i : Nat) (hi : i < 4096) :
    s.frames.testBit 0 i = s.frameUsed (BitVec.ofNat 12 i) := by
  simp [State.frameUsed, Nat.mod_eq_of_lt hi]

/-- frame_scan finds the lowest free frame (R50). -/
theorem frameScan_eq_some (s : State) (f : Frame) :
    s.frameScan Config.params = some f ↔ s.lowestFree f := by
  unfold State.frameScan State.lowestFree
  simp only [Option.map_eq_some_iff, Config.fbmBase, Config.fbmWords, Config.numFrames]
  constructor
  · rintro ⟨i, hi, rfl⟩
    rw [Memory.scan_eq_some _ _ _ _ _ (by omega)] at hi
    obtain ⟨h1, h2, h3⟩ := hi
    refine ⟨by rw [← testBit_eq_frameUsed s i h1]; exact h2, fun g hg => ?_⟩
    rw [BitVec.lt_def, BitVec.toNat_ofNat, Nat.mod_eq_of_lt h1] at hg
    exact h3 _ hg
  · rintro ⟨h1, h2⟩
    refine ⟨f.toNat, ?_, by simp⟩
    rw [Memory.scan_eq_some _ _ _ _ _ (by omega)]
    refine ⟨f.isLt, h1, fun j hj => ?_⟩
    have hlt : j < 4096 := by have := f.isLt; omega
    rw [testBit_eq_frameUsed s j hlt]
    exact h2 _ (by rw [BitVec.lt_def, BitVec.toNat_ofNat, Nat.mod_eq_of_lt hlt]; exact hj)

theorem frameScan_eq_none (s : State) :
    s.frameScan Config.params = none ↔ s.allFramesUsed := by
  unfold State.frameScan State.allFramesUsed
  simp only [Option.map_eq_none_iff, Config.fbmBase, Config.fbmWords, Config.numFrames]
  rw [Memory.scan_eq_none _ _ _ _ (by omega)]
  constructor
  · intro h f
    exact h f.toNat f.isLt
  · intro h i hi
    rw [testBit_eq_frameUsed s i hi]
    exact h _

/-! ### The registry -/

theorem slot_eq_read (s : State) (k : Nat) (hk : k < 3584) : s.slot k = s.frames.read (256 + k) := by
  simp only [State.slot, State.mem, slotAddr_toNat k hk]

theorem registry_read (s : State) (k : Nat) (hk : k < 3584) :
    (s.registry Config.params).read (Config.params.regBase + k) = s.slot k := by
  rw [slot_eq_read s k hk]
  simp only [State.registry, Memory.read_slice, Config.params_regBase, Config.params_regSlots]
  rw [if_pos (by omega)]

/-- reg_find finds the lowest entry with the tag (R53). -/
theorem regFind_eq_some (s : State) (pid : Pid) (k : Nat) :
    s.regFind Config.params pid = some k ↔ s.registeredAt pid k := by
  unfold State.regFind State.registeredAt State.carries
  simp only [List.find?_range_eq_some, List.mem_range, Config.params_regSlots]
  constructor
  · rintro ⟨h1, h2, h3⟩
    rw [registry_read s k h2] at h1
    refine ⟨h2, by simpa using h1, fun j hj => ?_⟩
    have := h3 j hj
    rw [registry_read s j (by omega)] at this
    simpa [imp_iff_not_or] using this
  · rintro ⟨h1, h2, h3⟩
    rw [registry_read s k h1]
    refine ⟨by simpa using h2, h1, fun j hj => ?_⟩
    rw [registry_read s j (by omega)]
    simpa [imp_iff_not_or] using h3 j hj

theorem regFind_eq_none (s : State) (pid : Pid) :
    s.regFind Config.params pid = none ↔ s.unregistered pid := by
  unfold State.regFind State.unregistered State.carries
  simp only [List.find?_range_eq_none, Config.params_regSlots]
  refine forall_congr' fun k => forall_congr' fun hk => ?_
  rw [registry_read s k hk]
  simp [imp_iff_not_or]

/-- reg_free_slot finds the lowest free slot (R54). -/
theorem regFreeSlot_eq_some (s : State) (k : Nat) :
    s.regFreeSlot Config.params = some k ↔ s.lowestFreeSlot k := by
  unfold State.regFreeSlot State.lowestFreeSlot
  simp only [List.find?_range_eq_some, List.mem_range, Config.params_regSlots]
  constructor
  · rintro ⟨h1, h2, h3⟩
    rw [registry_read s k h2] at h1
    refine ⟨h2, by simpa using h1, fun j hj => ?_⟩
    have := h3 j hj
    rw [registry_read s j (by omega)] at this
    simpa using this
  · rintro ⟨h1, h2, h3⟩
    rw [registry_read s k h1]
    refine ⟨by simpa using h2, h1, fun j hj => ?_⟩
    rw [registry_read s j (by omega)]
    simpa using h3 j hj

theorem regFreeSlot_eq_none (s : State) :
    s.regFreeSlot Config.params = none ↔ ∀ k, k < 3584 → s.slot k ≠ 0#32 := by
  unfold State.regFreeSlot
  simp only [List.find?_range_eq_none, Config.params_regSlots]
  refine forall_congr' fun k => forall_congr' fun hk => ?_
  rw [registry_read s k hk]
  simp

/-- Writing 0 to slots, one after the other. -/
theorem foldl_clearSlots (ks : List Nat) (s : State) :
    ks.foldl (fun t k => t.memWrite (slotAddr Config.params k) 0#32) s
      = { s with frames := (ks.foldl (fun t k => t.memWrite (slotAddr Config.params k) 0#32) s).frames } ∧
    ∀ b, (ks.foldl (fun t k => t.memWrite (slotAddr Config.params k) 0#32) s).mem b
      = if ∃ k ∈ ks, b = slotAddr Config.params k then 0#32 else s.mem b := by
  induction ks generalizing s with
  | nil => exact ⟨rfl, fun b => by simp⟩
  | cons k ks ih =>
    obtain ⟨h1, h2⟩ := ih (s.memWrite (slotAddr Config.params k) 0#32)
    refine ⟨h1, fun b => ?_⟩
    rw [List.foldl_cons, h2, mem_memWrite]
    by_cases hb : ∃ k ∈ ks, b = slotAddr Config.params k
    · rw [if_pos hb, if_pos]
      obtain ⟨j, hj, rfl⟩ := hb
      exact ⟨j, by simp [hj], rfl⟩
    · rw [if_neg hb]
      by_cases hk : b = slotAddr Config.params k
      · rw [if_pos hk, if_pos ⟨k, by simp, hk⟩]
      · rw [if_neg hk, if_neg]
        rintro ⟨j, hj, rfl⟩
        rcases List.mem_cons.1 hj with rfl | hj
        · exact hk rfl
        · exact hb ⟨j, hj, rfl⟩

/-- UNMAP's last loop changes the FrameStore only. -/
theorem regRemove_eq (s : State) (g : Frame) :
    s.regRemove Config.params g = { s with frames := (s.regRemove Config.params g).frames } :=
  (foldl_clearSlots _ s).1

section regRemove
variable (s : State) (g : Frame)
@[simp] theorem State.regRemove_curPid : (s.regRemove Config.params g).curPid = s.curPid := by rw [regRemove_eq]
@[simp] theorem State.regRemove_activeDir : (s.regRemove Config.params g).activeDir = s.activeDir := by rw [regRemove_eq]
@[simp] theorem State.regRemove_wdata : (s.regRemove Config.params g).wdata = s.wdata := by rw [regRemove_eq]
@[simp] theorem State.regRemove_rdata : (s.regRemove Config.params g).rdata = s.rdata := by rw [regRemove_eq]
@[simp] theorem State.regRemove_status : (s.regRemove Config.params g).status = s.status := by rw [regRemove_eq]
@[simp] theorem State.regRemove_fva : (s.regRemove Config.params g).fva = s.fva := by rw [regRemove_eq]
@[simp] theorem State.regRemove_fent : (s.regRemove Config.params g).fent = s.fent := by rw [regRemove_eq]
@[simp] theorem State.regRemove_disk : (s.regRemove Config.params g).disk = s.disk := by rw [regRemove_eq]
@[simp] theorem State.regRemove_trace : (s.regRemove Config.params g).trace = s.trace := by rw [regRemove_eq]
@[simp] theorem State.regRemove_inputs : (s.regRemove Config.params g).inputs = s.inputs := by rw [regRemove_eq]
@[simp] theorem State.regRemove_hostReads : (s.regRemove Config.params g).hostReads = s.hostReads := by rw [regRemove_eq]
end regRemove

/-- UNMAP's last loop sets to 0 the registry words whose frame is g, and nothing else (R90). -/
theorem mem_regRemove (s : State) (g : Frame) (b : PAddr) :
    (s.regRemove Config.params g).mem b
      = if 0x100 ≤ b.toNat ∧ b.toNat < 0xF00 ∧ entryFrame (s.mem b) = g then 0#32 else s.mem b := by
  unfold State.regRemove
  rw [(foldl_clearSlots _ s).2]
  have : (∃ k ∈ s.slotsNaming Config.params g, b = slotAddr Config.params k) ↔
      0x100 ≤ b.toNat ∧ b.toNat < 0xF00 ∧ entryFrame (s.mem b) = g := by
    unfold State.slotsNaming
    simp only [List.mem_filter, List.mem_range, beq_iff_eq, Config.params_regSlots]
    constructor
    · rintro ⟨k, ⟨hk, he⟩, rfl⟩
      rw [registry_read s k hk] at he
      rw [slotAddr_toNat k hk]
      exact ⟨by omega, by omega, he⟩
    · rintro ⟨h1, h2, h3⟩
      have hb : b = slotAddr Config.params (b.toNat - 256) :=
        BitVec.eq_of_toNat_eq (by rw [slotAddr_toNat _ (by omega)]; omega)
      refine ⟨b.toNat - 256, ⟨by omega, ?_⟩, hb⟩
      rw [registry_read s _ (by omega)]
      unfold State.slot
      rw [← hb]
      exact h3
  simp only [this]

theorem frameUsed_regRemove (s : State) (g f : Frame) :
    (s.regRemove Config.params g).frameUsed f = s.frameUsed f := by
  refine frameUsed_congr _ _ _ ?_
  rw [mem_regRemove, if_neg]
  have := bitmapWord_lt f
  omega

/-- frame_empty (R52). -/
theorem frameEmpty_iff (s : State) (f : Frame) :
    s.frameEmpty f = true ↔ ∀ i : Offset, s.mem (frameWord f i) = 0#32 := by
  unfold State.frameEmpty
  simp only [List.all_eq_true, List.mem_range, beq_iff_eq, Config.frameWords, Memory.read_slice,
    State.mem, frameWord_toNat]
  constructor
  · intro h i
    have hi := i.isLt
    have := h i.toNat (by omega)
    rwa [if_pos (by omega)] at this
  · intro h i hi
    rw [if_pos (by omega)]
    have := h (BitVec.ofNat 8 i)
    rwa [BitVec.toNat_ofNat, Nat.mod_eq_of_lt (by omega)] at this

/-! ### The swap mirror -/

@[simp] theorem sectorUsed_sectorSet (c : Params) (s : State) (i j : Nat) :
    (s.sectorSet c i).sectorUsed c j = (decide (j = i) || s.sectorUsed c j) := by
  simp only [State.sectorUsed, State.sectorSet_frames, Memory.testBit_setBit]

@[simp] theorem sectorUsed_sectorClear (c : Params) (s : State) (i j : Nat) :
    (s.sectorClear c i).sectorUsed c j = (!decide (j = i) && s.sectorUsed c j) := by
  simp only [State.sectorUsed, State.sectorClear_frames, Memory.testBit_clearBit]

@[simp] theorem sectorUsed_emit (c : Params) (s : State) (e : Event) (i : Nat) :
    (s.emit e).sectorUsed c i = s.sectorUsed c i := rfl

@[simp] theorem sectorUsed_finish (c : Params) (s : State) (v : Word) (i : Nat) :
    (s.finish v).sectorUsed c i = s.sectorUsed c i := rfl

@[simp] theorem sectorUsed_persistSwap (c c' : Params) (s : State) (i : Nat) :
    (s.persistSwap c').sectorUsed c i = s.sectorUsed c i := rfl

theorem mirrorBit_eq (s : State) (i : Sector) :
    s.mirrorBit i = (s.mem (mirrorWord i.toNat)).getLsbD (i.toNat % 32) := by
  simp [State.mirrorBit, State.sectorUsed, Memory.testBit, State.mem,
    mirrorWord_toNat _ i.isLt, mirrorBase_params]

/-- sector_scan finds the lowest free sector (R55). -/
theorem sectorScan_eq_some (s : State) (i : Nat) :
    s.sectorScan Config.params = some i ↔
      i < 8192 ∧ s.sectorUsed Config.params i = false ∧
        ∀ j < i, s.sectorUsed Config.params j = true := by
  unfold State.sectorScan State.sectorUsed
  rw [Memory.scan_eq_some _ _ _ _ _ (by simp)]
  simp

theorem sectorScan_eq_none (s : State) :
    s.sectorScan Config.params = none ↔ ∀ i < 8192, s.sectorUsed Config.params i = true := by
  unfold State.sectorScan State.sectorUsed
  rw [Memory.scan_eq_none _ _ _ _ (by simp)]
  simp

/-! ### The walk -/

/-- The built-in handler aborts exactly the entries whose FRAME is reserved (R110). -/
theorem faultHandler_eq (va : VAddr) (perm e : Word) :
    faultHandler Config.params va perm e
      = if entryFrame e < Config.firstFreeFrame then .abort else .proceed := by
  simp [faultHandler]

/-- An entry that passes the check names a frame that is not reserved (R56). -/
theorem entryOk_frame (c : Params) (pid : Pid) (e : Word) (h : entryOk c pid e = true) :
    ¬ entryFrame e < Config.firstFreeFrame := by
  simp only [entryOk, pteUnpack, Bool.and_eq_true] at h
  have := of_decide_eq_true h.1.2
  exact BitVec.not_lt.2 this

/-- One level of the walk on this hardware: the entry passes; or its FRAME is reserved and it aborts; or
it is logged and used as it is. -/
theorem walkLevel_eq (va : VAddr) (level : Level) (ea : PAddr) (s : State) :
    walkLevel Config.params va level ea s
      = if s.permits (s.mem ea) then ⟨s, some (s.mem ea), false⟩
        else if entryFrame (s.mem ea) < Config.firstFreeFrame then
          ⟨s.logFault va level (s.mem ea) true, none, false⟩
        else ⟨s.logFault va level (s.mem ea) false, some (s.mem ea), true⟩ := by
  unfold walkLevel State.permits
  simp only [faultHandler_eq]
  split
  · rfl
  · split
    · rename_i h
      split at h
      · rw [if_pos ‹_›]
      · cases h
    · rename_i h
      split at h
      · cases h
      · rw [if_neg ‹_›]
        rfl

/-- The state after the check of one level that lets the access through: unchanged, or with one
PermissionFault logged. -/
def State.pass (s : State) (va : VAddr) (level : Level) (e : Word) : State :=
  if s.permits e then s else s.logFault va level e false

theorem pass_eq (s : State) (va : VAddr) (level : Level) (e : Word) :
    s.pass va level e =
      { s with
        fva := if s.permits e then s.fva else faultWord false level va
        fent := if s.permits e then s.fent else e
        trace := s.trace ++ if s.permits e then [] else [.perm va level e] } := by
  unfold State.pass
  split
  · simp
  · rfl

/-- A level whose entry's FRAME is not reserved lets the access through. -/
theorem walkLevel_pass (va : VAddr) (level : Level) (ea : PAddr) (s : State)
    (h : ¬ entryFrame (s.mem ea) < Config.firstFreeFrame) :
    walkLevel Config.params va level ea s
      = ⟨s.pass va level (s.mem ea), some (s.mem ea), !s.permits (s.mem ea)⟩ := by
  rw [walkLevel_eq, State.pass]
  split
  · rename_i hp
    simp [hp]
  · rename_i hp
    simp [hp]

/-- A level whose entry's FRAME is reserved aborts. -/
theorem walkLevel_abort (va : VAddr) (level : Level) (ea : PAddr) (s : State)
    (h : entryFrame (s.mem ea) < Config.firstFreeFrame) :
    walkLevel Config.params va level ea s
      = ⟨s.logFault va level (s.mem ea) true, none, false⟩ := by
  rw [walkLevel_eq, if_neg, if_pos h]
  intro hp
  exact entryOk_frame _ _ _ hp h

/-- The walk with no context (R57, D16). -/
theorem walk_noContext (va : VAddr) (s : State) (h : s.activeDir < Config.firstFreeFrame) :
    walk Config.params va s = ⟨s.logFault va .ctx 0#32 true, .fatal, false, false⟩ := by
  rw [walk, if_pos h]

/-- The walk that aborts at the Directory level. -/
theorem walk_dirAbort (va : VAddr) (s : State) (hc : ¬ s.activeDir < Config.firstFreeFrame)
    (hd : entryFrame (s.dirEntry va) < Config.firstFreeFrame) :
    walk Config.params va s = ⟨s.logFault va .dir (s.dirEntry va) true, .fatal, false, false⟩ := by
  rw [walk, if_neg hc]
  have h1 := walkLevel_abort va .dir (s.dirEntryAddr va) s hd
  unfold State.dirEntryAddr at h1
  simp only [h1]
  rfl

theorem pass_mem (s : State) (va : VAddr) (level : Level) (e : Word) (pa : PAddr) :
    (s.pass va level e).mem pa = s.mem pa := by
  rw [pass_eq]
  rfl

theorem pass_permits (s : State) (va : VAddr) (level : Level) (e e' : Word) :
    (s.pass va level e).permits e' = s.permits e' := by
  rw [pass_eq]
  rfl

/-- The walk that aborts at the Table level. -/
theorem walk_tabAbort (va : VAddr) (s : State) (hc : ¬ s.activeDir < Config.firstFreeFrame)
    (hd : ¬ entryFrame (s.dirEntry va) < Config.firstFreeFrame)
    (ht : entryFrame (s.tabEntry va) < Config.firstFreeFrame) :
    walk Config.params va s
      = ⟨(s.pass va .dir (s.dirEntry va)).logFault va .tab (s.tabEntry va) true, .fatal,
          !s.permits (s.dirEntry va), false⟩ := by
  rw [walk, if_neg hc]
  have h1 := walkLevel_pass va .dir (s.dirEntryAddr va) s hd
  have h2 := walkLevel_abort va .tab (s.tabEntryAddr va) (s.pass va .dir (s.dirEntry va))
    (by rw [pass_mem]; exact ht)
  rw [pass_mem] at h2
  unfold State.dirEntryAddr at h1
  unfold State.tabEntryAddr at h2
  simp only [h1]
  simp only [State.dirEntry, State.dirEntryAddr] at h2 ⊢
  simp only [h2]
  rfl

/-- The walk that succeeds. -/
theorem walk_ok (va : VAddr) (s : State) (hc : ¬ s.activeDir < Config.firstFreeFrame)
    (hd : ¬ entryFrame (s.dirEntry va) < Config.firstFreeFrame)
    (ht : ¬ entryFrame (s.tabEntry va) < Config.firstFreeFrame) :
    walk Config.params va s
      = ⟨(s.pass va .dir (s.dirEntry va)).pass va .tab (s.tabEntry va), .ok (s.dataAddr va),
          !s.permits (s.dirEntry va), !s.permits (s.tabEntry va)⟩ := by
  rw [walk, if_neg hc]
  have h1 := walkLevel_pass va .dir (s.dirEntryAddr va) s hd
  have h2 := walkLevel_pass va .tab (s.tabEntryAddr va) (s.pass va .dir (s.dirEntry va))
    (by rw [pass_mem]; exact ht)
  rw [pass_mem, pass_permits] at h2
  unfold State.dirEntryAddr at h1
  unfold State.tabEntryAddr at h2
  simp only [h1]
  simp only [State.dirEntry, State.dirEntryAddr] at h2 ⊢
  simp only [h2]
  rfl

/-- Every walk is one of four: no context, an abort at either level, or success. -/
theorem walk_cases (va : VAddr) (s : State) :
    s.activeDir < Config.firstFreeFrame ∨
    (¬ s.activeDir < Config.firstFreeFrame ∧ entryFrame (s.dirEntry va) < Config.firstFreeFrame) ∨
    (¬ s.activeDir < Config.firstFreeFrame ∧ ¬ entryFrame (s.dirEntry va) < Config.firstFreeFrame ∧
      entryFrame (s.tabEntry va) < Config.firstFreeFrame) ∨
    (¬ s.activeDir < Config.firstFreeFrame ∧ ¬ entryFrame (s.dirEntry va) < Config.firstFreeFrame ∧
      ¬ entryFrame (s.tabEntry va) < Config.firstFreeFrame) := by
  tauto

/-- Both levels passed, field by field. -/
theorem pass_pass (s : State) (va : VAddr) (e e' : Word) :
    (s.pass va .dir e).pass va .tab e' =
      { s with
        fva := if s.permits e' then (if s.permits e then s.fva else 0x01#8 ++ va) else 0x02#8 ++ va
        fent := if s.permits e' then (if s.permits e then s.fent else e) else e'
        trace := s.trace ++ (if s.permits e then [] else [.perm va .dir e]) ++
          (if s.permits e' then [] else [.perm va .tab e']) } := by
  rw [pass_eq (s.pass _ _ _), pass_permits, pass_eq s]
  cases hd : s.permits e <;> cases ht : s.permits e' <;> rfl

/-- STATUS of an access that ends OK, by the levels that were let through without a log (R107). -/
theorem statusWord_access (a b : Bool) : statusWord .ok (!a) (!b) =
    (if a = true then 0x000#32 else 0x100#32) ||| (if b = true then 0x000#32 else 0x200#32) := by
  cases a <;> cases b <;> rfl

/-- The walk changes FVA, FENT and the trace only: no word of memory, so no PTE (R59). -/
theorem walk_state_eq (va : VAddr) (s : State) :
    (walk Config.params va s).state = { s with
      fva := (walk Config.params va s).state.fva
      fent := (walk Config.params va s).state.fent
      trace := (walk Config.params va s).state.trace } := by
  rcases walk_cases va s with h | ⟨h1, h2⟩ | ⟨h1, h2, h3⟩ | ⟨h1, h2, h3⟩
  · simp only [walk_noContext va s h]; rfl
  · simp only [walk_dirAbort va s h1 h2]; rfl
  · simp only [walk_tabAbort va s h1 h2 h3, pass_eq]; rfl
  · simp only [walk_ok va s h1 h2 h3, pass_eq]

/-! ### INIT -/

/-- Bits of the bitmap's first word set, one after the other. -/
theorem mem_foldl_frameSet (fs : List Nat) (hfs : ∀ f ∈ fs, f < 32) (s : State) (b : PAddr) :
    (fs.foldl (fun t f => t.frameSet (BitVec.ofNat 12 f)) s).mem b
      = if b = 0x00000#20 then s.mem b ||| fs.foldr (fun f m => 1#32 <<< f ||| m) 0#32 else s.mem b := by
  induction fs generalizing s with
  | nil => simp
  | cons f fs ih =>
    have hf : f < 32 := hfs f (by simp)
    have hw : bitmapWord (BitVec.ofNat 12 f) = 0x00000#20 := by
      apply BitVec.eq_of_toNat_eq
      rw [bitmapWord_toNat]
      simp
      omega
    have hb : (BitVec.ofNat 12 f).toNat % 32 = f := by
      simp
      omega
    rw [List.foldl_cons, ih fun g hg => hfs g (by simp [hg]), mem_frameSet, hw, hb, List.foldr_cons]
    split
    · rw [BitVec.or_assoc]
    · rfl

/-- What INIT's FrameStore part leaves: frames 0..15 zero, but for the bits 0..15 of the bitmap (R104). -/
theorem mem_initFrames (s : State) (b : PAddr) :
    s.initFrames.mem b
      = if b = 0x00000#20 then 0x0000FFFF#32 else if b.toNat < 0x1000 then 0#32 else s.mem b := by
  have hz : ∀ b : PAddr, ({ s with frames := s.frames.zero 0 4096 } : State).mem b
      = if b.toNat < 0x1000 then 0#32 else s.mem b := by
    intro b
    simp only [State.mem, Memory.read_zero, Nat.zero_le, true_and, Nat.zero_add]
  unfold State.initFrames
  rw [mem_foldl_frameSet _ (by simp; omega)]
  rw [show Config.reservedFrames * Config.frameWords = 4096 from rfl, hz]
  split
  · subst_vars
    rw [if_pos (by decide), BitVec.zero_or]
    decide
  · rfl

theorem foldl_frameSet_eq (fs : List Nat) (s : State) :
    fs.foldl (fun t f => t.frameSet (BitVec.ofNat 12 f)) s
      = { s with frames := (fs.foldl (fun t f => t.frameSet (BitVec.ofNat 12 f)) s).frames } := by
  induction fs generalizing s with
  | nil => rfl
  | cons f fs ih => rw [List.foldl_cons, ih]; rfl

/-- INIT's FrameStore part changes the FrameStore only. -/
theorem initFrames_eq (s : State) : s.initFrames = { s with frames := s.initFrames.frames } := by
  unfold State.initFrames
  rw [foldl_frameSet_eq]

/-- INIT's disk part on this hardware: sector 0's mirror bit set, then the mirror copied to sector 0; no further
bookkeeping sector is zeroed (R104). -/
theorem initSwap_eq (s : State) :
    s.initSwap Config.params = { (s.sectorSet Config.params 0).persistSwap Config.params with
      disk := (((s.sectorSet Config.params 0).persistSwap Config.params).disk).zero 256 0 } := by
  unfold State.initSwap
  simp [diskAddr, List.range_succ]

theorem diskRead_zeroNone (s : State) (a : Nat) (k : Sector) (i : Offset) :
    ({ s with disk := s.disk.zero a 0 } : State).diskRead k i = s.diskRead k i := by
  unfold State.diskRead
  rw [Memory.read_zero, if_neg (by omega)]

/-- INIT on this hardware, field by field. -/
theorem initCmd_eq (s : State) :
    initCmd Config.params s = { s with
      frames := (s.initFrames.sectorSet Config.params 0).frames
      disk := (((s.initFrames.sectorSet Config.params 0).persistSwap Config.params).disk).zero 256 0
      activeDir := 0#12, curPid := 0#8, fva := 0#32, fent := 0#32, rdata := 0#32, status := 0#32 } := by
  unfold initCmd
  dsimp only
  rw [initSwap_eq]
  have h := initFrames_eq s
  rw [h]
  rfl

/-- INIT's FrameStore, word by word (R35, R104). -/
theorem mem_initCmd (s : State) (pa : PAddr) :
    (initCmd Config.params s).mem pa
      = if pa = 0x00000#20 then 0x0000FFFF#32 else if pa = 0x00F00#20 then 0x00000001#32
        else if pa.toNat < 0x1000 then 0#32 else s.mem pa := by
  have e : (initCmd Config.params s).mem pa = (s.initFrames.sectorSet Config.params 0).mem pa := by
    rw [initCmd_eq]
    rfl
  rw [e, mem_sectorSet _ _ (by omega), mem_initFrames]
  rw [show mirrorWord 0 = 0xF00#20 from rfl]
  by_cases h : pa = 0xF00#20
  · subst h
    simp
  · rw [if_neg h, if_neg h]

/-- INIT's DiskStore: sector 0 takes frame 15, the other sectors stay (R35, R104). -/
theorem diskRead_initCmd (s : State) (k : Sector) (i : Offset) :
    (initCmd Config.params s).diskRead k i
      = if k = 0#13 then (initCmd Config.params s).mem (frameWord 15#12 i) else s.diskRead k i := by
  have e : (initCmd Config.params s).diskRead k i
      = ((s.initFrames.sectorSet Config.params 0).persistSwap Config.params).diskRead k i := by
    rw [initCmd_eq]
    exact diskRead_zeroNone ((s.initFrames.sectorSet Config.params 0).persistSwap Config.params) 256 k i
  have e2 : (initCmd Config.params s).mem (frameWord 15#12 i)
      = (s.initFrames.sectorSet Config.params 0).mem (frameWord 15#12 i) := by
    rw [initCmd_eq]
    rfl
  have e3 : s.initFrames.disk = s.disk := by rw [initFrames_eq]
  rw [e, e2, diskRead_persistSwap]
  simp only [State.diskRead, State.sectorSet_disk, e3]

end Sys2Proof.Machine
end

