-- ==== Sys2Proof/Laws/Mapping.lean ====
section
/-! SUPPORT. The steps of MAP and the cascade of UNMAP (spec/41_map_unmap.md R87, R90): what each can answer, and what it
leaves at every address and in the bitmap. -/

namespace Sys2Proof.Machine

/-! ### MAP's steps -/

theorem mapDirectory_reused (s : State) (k : Nat) (h : s.registeredAt s.curPid k) :
    mapDirectory Config.params s
      = .ok ((s.setActiveDir (entryFrame (s.slot k))).emit (.struct .dir (entryFrame (s.slot k)) .reused)) := by
  simp only [mapDirectory, (regFind_eq_some s _ k).2 h]
  rfl

/-- MAP's Step 1 with a new Directory f, registered in slot k. -/
def State.newDirectory (s : State) (f : Frame) (k : Nat) : State :=
  ((((s.frameSet f).zeroFrame f).setActiveDir f).memWrite (slotAddr Config.params k)
    (regEntry Config.params s.curPid f)).emit (.struct .dir f .new)

theorem mapDirectory_new (s : State) (f : Frame) (k : Nat) (h : s.unregistered s.curPid)
    (hf : s.lowestFree f) (hk : s.lowestFreeSlot k) :
    mapDirectory Config.params s = .ok (s.newDirectory f k) := by
  simp only [mapDirectory, (regFind_eq_none s _).2 h, (frameScan_eq_some s f).2 hf,
    (regFreeSlot_eq_some s k).2 hk]
  rfl

theorem mapDirectory_noFrame (s : State) (h : s.unregistered s.curPid) (hf : s.allFramesUsed) :
    mapDirectory Config.params s = .error .outOfFrames := by
  simp only [mapDirectory, (regFind_eq_none s _).2 h, (frameScan_eq_none s).2 hf]

theorem mapDirectory_noSlot (s : State) (f : Frame) (h : s.unregistered s.curPid) (hf : s.lowestFree f)
    (hk : ∀ k, k < 3584 → s.slot k ≠ 0#32) :
    mapDirectory Config.params s = .error .registryExhausted := by
  simp only [mapDirectory, (regFind_eq_none s _).2 h, (frameScan_eq_some s f).2 hf,
    (regFreeSlot_eq_none s).2 hk]

/-- Everything Step 1 can answer. -/
theorem mapDirectory_cases (s : State) :
    (∃ k, s.registeredAt s.curPid k ∧ mapDirectory Config.params s
      = .ok ((s.setActiveDir (entryFrame (s.slot k))).emit (.struct .dir (entryFrame (s.slot k)) .reused))) ∨
    (∃ f k, s.unregistered s.curPid ∧ s.lowestFree f ∧ s.lowestFreeSlot k ∧
      mapDirectory Config.params s = .ok (s.newDirectory f k)) ∨
    (s.unregistered s.curPid ∧ s.allFramesUsed ∧ mapDirectory Config.params s = .error .outOfFrames) ∨
    (s.unregistered s.curPid ∧ (∀ k, k < 3584 → s.slot k ≠ 0#32) ∧
      mapDirectory Config.params s = .error .registryExhausted) := by
  cases h : s.regFind Config.params s.curPid with
  | some k =>
    have h := (regFind_eq_some s _ k).1 h
    exact .inl ⟨k, h, mapDirectory_reused s k h⟩
  | none =>
    have h := (regFind_eq_none s _).1 h
    cases hf : s.frameScan Config.params with
    | none =>
      have hf := (frameScan_eq_none s).1 hf
      exact .inr (.inr (.inl ⟨h, hf, mapDirectory_noFrame s h hf⟩))
    | some f =>
      have hf := (frameScan_eq_some s f).1 hf
      cases hk : s.regFreeSlot Config.params with
      | none =>
        have hk := (regFreeSlot_eq_none s).1 hk
        exact .inr (.inr (.inr ⟨h, hk, mapDirectory_noSlot s f h hf hk⟩))
      | some k =>
        have hk := (regFreeSlot_eq_some s k).1 hk
        exact .inr (.inl ⟨f, k, h, hf, hk, mapDirectory_new s f k h hf hk⟩)

/-- MAP's Step 2 or 3 with a frame f, new or not: the entry written. -/
def State.newEntry (s : State) (role : Role) (ea : PAddr) (f : Frame) : State :=
  ((if role = .table then (s.frameSet f).zeroFrame f else s.frameSet f).emit (.struct role f .new)).memWrite ea
    (mapPte Config.params s.curPid f)

/-- MAP's Step 2 or 3 on an entry that already names the frame f. -/
def State.reusedEntry (s : State) (role : Role) (ea : PAddr) (f : Frame) : State :=
  (s.emit (.struct role f .reused)).memWrite ea (mapPte Config.params s.curPid f)

theorem mapEntry_new (s : State) (role : Role) (ea : PAddr) (f : Frame)
    (he : entryFrame (s.mem ea) = 0#12) (hf : s.lowestFree f) :
    mapEntry Config.params role ea s = .ok (s.newEntry role ea f, f) := by
  simp only [mapEntry, he, (frameScan_eq_some s f).2 hf, if_true]
  rfl

theorem mapEntry_noFrame (s : State) (role : Role) (ea : PAddr)
    (he : entryFrame (s.mem ea) = 0#12) (hf : s.allFramesUsed) :
    mapEntry Config.params role ea s = .error .outOfFrames := by
  simp only [mapEntry, he, (frameScan_eq_none s).2 hf, if_true]

theorem mapEntry_reused (s : State) (role : Role) (ea : PAddr) (f : Frame)
    (he : entryFrame (s.mem ea) = f) (hf : f ≠ 0#12) :
    mapEntry Config.params role ea s = .ok (s.reusedEntry role ea f, f) := by
  subst he
  simp only [mapEntry, if_neg hf]
  rfl

/-- Everything Step 2 or 3 can answer. -/
theorem mapEntry_cases (s : State) (role : Role) (ea : PAddr) :
    (∃ f, entryFrame (s.mem ea) = 0#12 ∧ s.lowestFree f ∧
      mapEntry Config.params role ea s = .ok (s.newEntry role ea f, f)) ∨
    (entryFrame (s.mem ea) = 0#12 ∧ s.allFramesUsed ∧
      mapEntry Config.params role ea s = .error .outOfFrames) ∨
    (∃ f, f ≠ 0#12 ∧ entryFrame (s.mem ea) = f ∧
      mapEntry Config.params role ea s = .ok (s.reusedEntry role ea f, f)) := by
  by_cases he : entryFrame (s.mem ea) = 0#12
  · cases hf : s.frameScan Config.params with
    | none =>
      have hf := (frameScan_eq_none s).1 hf
      exact .inr (.inl ⟨he, hf, mapEntry_noFrame s role ea he hf⟩)
    | some f =>
      have hf := (frameScan_eq_some s f).1 hf
      exact .inl ⟨f, he, hf, mapEntry_new s role ea f he hf⟩
  · exact .inr (.inr ⟨_, he, rfl, mapEntry_reused s role ea _ rfl he⟩)

/-! What the steps leave. -/

theorem newDirectory_eq (s : State) (f : Frame) (k : Nat) :
    s.newDirectory f k = { s with
      frames := (s.newDirectory f k).frames, activeDir := f
      trace := s.trace ++ [.struct .dir f .new] } := rfl

theorem newEntry_eq (s : State) (role : Role) (ea : PAddr) (f : Frame) :
    s.newEntry role ea f = { s with
      frames := (s.newEntry role ea f).frames, trace := s.trace ++ [.struct role f .new] } := by
  unfold State.newEntry
  split <;> rfl

theorem reusedEntry_eq (s : State) (role : Role) (ea : PAddr) (f : Frame) :
    s.reusedEntry role ea f = { s with
      frames := (s.reusedEntry role ea f).frames, trace := s.trace ++ [.struct role f .reused] } := rfl

section fields
variable (s : State) (role : Role) (ea : PAddr) (f : Frame) (k : Nat)
@[simp] theorem State.newDirectory_curPid : (s.newDirectory f k).curPid = s.curPid := rfl
@[simp] theorem State.newDirectory_activeDir : (s.newDirectory f k).activeDir = f := rfl
@[simp] theorem State.newEntry_curPid : (s.newEntry role ea f).curPid = s.curPid := by rw [newEntry_eq]
@[simp] theorem State.newEntry_activeDir : (s.newEntry role ea f).activeDir = s.activeDir := by
  rw [newEntry_eq]
@[simp] theorem State.reusedEntry_curPid : (s.reusedEntry role ea f).curPid = s.curPid := rfl
@[simp] theorem State.reusedEntry_activeDir : (s.reusedEntry role ea f).activeDir = s.activeDir := rfl
end fields

theorem mem_newDirectory (s : State) (f : Frame) (k : Nat) (b : PAddr) :
    (s.newDirectory f k).mem b
      = if b = slotAddr Config.params k then regEntry Config.params s.curPid f
        else if frameOf b = f then 0#32
        else if b = bitmapWord f then s.mem b ||| 1#32 <<< (f.toNat % 32) else s.mem b := by
  simp only [State.newDirectory, mem_emit, mem_memWrite, mem_setActiveDir, mem_zeroFrame, mem_frameSet]

theorem mem_newEntry (s : State) (role : Role) (ea : PAddr) (f : Frame) (b : PAddr) :
    (s.newEntry role ea f).mem b
      = if b = ea then mapPte Config.params s.curPid f
        else if role = .table ∧ frameOf b = f then 0#32
        else if b = bitmapWord f then s.mem b ||| 1#32 <<< (f.toNat % 32) else s.mem b := by
  unfold State.newEntry
  rw [mem_memWrite]
  by_cases h : role = .table
  · simp only [h, if_true, mem_emit, mem_zeroFrame, mem_frameSet, true_and]
  · simp only [h, if_false, mem_emit, mem_frameSet, false_and]

theorem mem_reusedEntry (s : State) (role : Role) (ea : PAddr) (f : Frame) (b : PAddr) :
    (s.reusedEntry role ea f).mem b
      = if b = ea then mapPte Config.params s.curPid f else s.mem b := by
  simp only [State.reusedEntry, mem_memWrite, mem_emit]

theorem slotAddr_ge (k : Nat) (hk : k < 3584) : 128 ≤ (slotAddr Config.params k).toNat := by
  rw [slotAddr_toNat k hk]
  omega

theorem frameUsed_newDirectory (s : State) (f g : Frame) (k : Nat) (hk : k < 3584) (hf : f ≠ 0#12) :
    (s.newDirectory f k).frameUsed g = (decide (g = f) || s.frameUsed g) := by
  unfold State.newDirectory
  rw [frameUsed_emit, frameUsed_memWrite _ _ _ _ (slotAddr_ge k hk), frameUsed_setActiveDir,
    frameUsed_zeroFrame _ _ _ hf, frameUsed_frameSet]

theorem frameUsed_newEntry (s : State) (role : Role) (ea : PAddr) (f g : Frame) (hea : 128 ≤ ea.toNat)
    (hf : role = .table → f ≠ 0#12) :
    (s.newEntry role ea f).frameUsed g = (decide (g = f) || s.frameUsed g) := by
  unfold State.newEntry
  rw [frameUsed_memWrite _ _ _ _ hea, frameUsed_emit]
  split
  · rename_i h
    rw [frameUsed_zeroFrame _ _ _ (hf h), frameUsed_frameSet]
  · rw [frameUsed_frameSet]

theorem frameUsed_reusedEntry (s : State) (role : Role) (ea : PAddr) (f g : Frame) (hea : 128 ≤ ea.toNat) :
    (s.reusedEntry role ea f).frameUsed g = s.frameUsed g := by
  unfold State.reusedEntry
  rw [frameUsed_memWrite _ _ _ _ hea, frameUsed_emit]

/-- Words of a frame that is not frame 0 lie above the free-frame bitmap. -/
theorem frameWord_ge (f : Frame) (i : Offset) (hf : f ≠ 0#12) : 128 ≤ (frameWord f i).toNat := by
  rw [frameWord_toNat]
  have : f.toNat ≠ 0 := fun e => hf (BitVec.eq_of_toNat_eq (by simpa using e))
  omega

/-- Registry slots lie in reserved frames. -/
theorem frameOf_slotAddr_lt (k : Nat) (hk : k < 3584) : (frameOf (slotAddr Config.params k)).toNat < 16 := by
  rw [frameOf_toNat, slotAddr_toNat k hk]
  omega

theorem slotAddr_ne_frameWord (k : Nat) (hk : k < 3584) (f : Frame) (i : Offset) (hf : 16 ≤ f.toNat) :
    slotAddr Config.params k ≠ frameWord f i := by
  intro h
  have := frameOf_slotAddr_lt k hk
  rw [h, frameOf_frameWord] at this
  omega

theorem bitmapWord_ne_frameWord (g f : Frame) (i : Offset) (hf : f ≠ 0#12) : bitmapWord g ≠ frameWord f i := by
  intro h
  have := frameWord_ge f i hf
  have := bitmapWord_lt g
  rw [h] at this
  omega

theorem ne_zero_of_le (f : Frame) (hf : 16 ≤ f.toNat) : f ≠ 0#12 := by
  rintro rfl
  simp at hf

theorem mapExhausted_iff (start s : State) (tpa : PAddr) :
    mapExhausted Config.params start s tpa = true ↔ entryFrame (s.mem tpa) = 0#12 ∧ start.allFramesUsed := by
  unfold mapExhausted
  rw [Bool.and_eq_true, beq_iff_eq, Option.isNone_iff_eq_none, frameScan_eq_none]

/-- A MAP that began with a free frame is not exhausted. -/
theorem mapExhausted_free (start s : State) (tpa : PAddr) (f : Frame) (h : start.frameUsed f = false) :
    mapExhausted Config.params start s tpa = false := by
  rw [← Bool.not_eq_true, mapExhausted_iff]
  rintro ⟨-, hall⟩
  rw [hall f] at h
  cases h

/-- A MAP whose Step 3 finds a data frame is not exhausted. -/
theorem mapExhausted_reused (start s : State) (tpa : PAddr) (h : entryFrame (s.mem tpa) ≠ 0#12) :
    mapExhausted Config.params start s tpa = false := by
  rw [← Bool.not_eq_true, mapExhausted_iff]
  exact fun hc => h hc.1

/-- MAP once its two checks have passed, from its steps' answers. -/
theorem mapCmd_eq (s : State) (va : VAddr) (hw : wordOffset va = 0#8) (hp : s.curPid ≠ 0#8) :
    mapCmd Config.params va s =
      match mapDirectory Config.params s with
      | .error e => s.raise e
      | .ok s1 =>
        match mapEntry Config.params .table (frameWord s1.activeDir (dirIndex va)) s1 with
        | .error e => s1.raise e
        | .ok (s2, t) =>
          if mapExhausted Config.params s s2 (frameWord t (tabIndex va)) then
            { s2 with frames := s.frames }.raise .outOfFrames
          else
            match mapEntry Config.params .data (frameWord t (tabIndex va)) s2 with
            | .error e => s2.raise e
            | .ok (s3, d) => s3.finish (d.setWidth 32) := by
  unfold mapCmd
  refine (if_neg (by simp [frameAligned, hw])).trans ((if_neg hp).trans ?_)
  cases mapDirectory Config.params s with
  | error e => rfl
  | ok s1 => rfl

/-! ### UNMAP's cascade -/

/-- The data frame freed and its Table entry zeroed. -/
def State.unmapData (s : State) (tpa : PAddr) (d : Frame) : State :=
  ((s.frameClear d).emit (.release .data d)).memWrite tpa 0#32

/-- The Table freed and its Directory entry zeroed. -/
def State.unmapTable (s : State) (dpa : PAddr) (t : Frame) : State :=
  ((s.frameClear t).emit (.release .table t)).memWrite dpa 0#32

/-- The Directory freed, its registry entries zeroed and ACTIVE_DIR cleared. -/
def State.unmapDirectory (s : State) (g : Frame) : State :=
  (((s.frameClear g).emit (.release .dir g)).regRemove Config.params g).setActiveDir 0#12

/-- UNMAP's cascade, by its two tests. -/
theorem unmapCascade_eq (g : Frame) (dpa : PAddr) (t : Frame) (tpa : PAddr) (d : Frame) (s : State) :
    unmapCascade Config.params g dpa t tpa d s =
      if (s.unmapData tpa d).frameEmpty t then
        if ((s.unmapData tpa d).unmapTable dpa t).frameEmpty g then
          ((s.unmapData tpa d).unmapTable dpa t).unmapDirectory g
        else (s.unmapData tpa d).unmapTable dpa t
      else s.unmapData tpa d := rfl

/-- UNMAP once its checks have passed. -/
theorem unmapCmd_eq (s : State) (va : VAddr) (hw : wordOffset va = 0#8) (hg : 16 ≤ s.activeDir.toNat)
    (ht : 16 ≤ (entryFrame (s.dirEntry va)).toNat) :
    unmapCmd Config.params va s =
      (unmapCascade Config.params s.activeDir (s.dirEntryAddr va) (entryFrame (s.dirEntry va))
        (s.tabEntryAddr va) (entryFrame (s.tabEntry va)) s).finish 0#32 := by
  rw [← firstFree_le] at hg ht
  unfold unmapCmd
  rw [if_neg (by simp [frameAligned, hw]), if_neg hg]
  unfold State.dirEntry State.dirEntryAddr at ht
  unfold State.tabEntry State.tabEntryAddr State.dirEntry State.dirEntryAddr
  rw [if_neg ht]
  rfl

theorem unmapData_eq (s : State) (tpa : PAddr) (d : Frame) :
    s.unmapData tpa d = { s with
      frames := (s.unmapData tpa d).frames, trace := s.trace ++ [.release .data d] } := rfl

theorem unmapTable_eq (s : State) (dpa : PAddr) (t : Frame) :
    s.unmapTable dpa t = { s with
      frames := (s.unmapTable dpa t).frames, trace := s.trace ++ [.release .table t] } := rfl

theorem unmapDirectory_eq (s : State) (g : Frame) :
    s.unmapDirectory g = { s with
      frames := (s.unmapDirectory g).frames, activeDir := 0#12
      trace := s.trace ++ [.release .dir g] } := by
  obtain ⟨fs, h⟩ : ∃ fs, ((s.frameClear g).emit (.release .dir g)).regRemove Config.params g
      = { (s.frameClear g).emit (.release .dir g) with frames := fs } := ⟨_, regRemove_eq _ g⟩
  rw [State.unmapDirectory, h]
  rfl

section cascadeFields
variable (s : State) (pa : PAddr) (f : Frame)
@[simp] theorem State.unmapData_curPid : (s.unmapData pa f).curPid = s.curPid := rfl
@[simp] theorem State.unmapData_activeDir : (s.unmapData pa f).activeDir = s.activeDir := rfl
@[simp] theorem State.unmapData_wdata : (s.unmapData pa f).wdata = s.wdata := rfl
@[simp] theorem State.unmapData_rdata : (s.unmapData pa f).rdata = s.rdata := rfl
@[simp] theorem State.unmapData_status : (s.unmapData pa f).status = s.status := rfl
@[simp] theorem State.unmapData_fva : (s.unmapData pa f).fva = s.fva := rfl
@[simp] theorem State.unmapData_fent : (s.unmapData pa f).fent = s.fent := rfl
@[simp] theorem State.unmapData_disk : (s.unmapData pa f).disk = s.disk := rfl
@[simp] theorem State.unmapData_inputs : (s.unmapData pa f).inputs = s.inputs := rfl
@[simp] theorem State.unmapData_hostReads : (s.unmapData pa f).hostReads = s.hostReads := rfl
@[simp] theorem State.unmapTable_curPid : (s.unmapTable pa f).curPid = s.curPid := rfl
@[simp] theorem State.unmapTable_activeDir : (s.unmapTable pa f).activeDir = s.activeDir := rfl
@[simp] theorem State.unmapTable_wdata : (s.unmapTable pa f).wdata = s.wdata := rfl
@[simp] theorem State.unmapTable_rdata : (s.unmapTable pa f).rdata = s.rdata := rfl
@[simp] theorem State.unmapTable_status : (s.unmapTable pa f).status = s.status := rfl
@[simp] theorem State.unmapTable_fva : (s.unmapTable pa f).fva = s.fva := rfl
@[simp] theorem State.unmapTable_fent : (s.unmapTable pa f).fent = s.fent := rfl
@[simp] theorem State.unmapTable_disk : (s.unmapTable pa f).disk = s.disk := rfl
@[simp] theorem State.unmapTable_inputs : (s.unmapTable pa f).inputs = s.inputs := rfl
@[simp] theorem State.unmapTable_hostReads : (s.unmapTable pa f).hostReads = s.hostReads := rfl
@[simp] theorem State.unmapDirectory_curPid : (s.unmapDirectory f).curPid = s.curPid := by rw [unmapDirectory_eq]
@[simp] theorem State.unmapDirectory_activeDir : (s.unmapDirectory f).activeDir = 0#12 := rfl
@[simp] theorem State.unmapDirectory_wdata : (s.unmapDirectory f).wdata = s.wdata := by rw [unmapDirectory_eq]
@[simp] theorem State.unmapDirectory_rdata : (s.unmapDirectory f).rdata = s.rdata := by rw [unmapDirectory_eq]
@[simp] theorem State.unmapDirectory_status : (s.unmapDirectory f).status = s.status := by rw [unmapDirectory_eq]
@[simp] theorem State.unmapDirectory_fva : (s.unmapDirectory f).fva = s.fva := by rw [unmapDirectory_eq]
@[simp] theorem State.unmapDirectory_fent : (s.unmapDirectory f).fent = s.fent := by rw [unmapDirectory_eq]
@[simp] theorem State.unmapDirectory_disk : (s.unmapDirectory f).disk = s.disk := by rw [unmapDirectory_eq]
@[simp] theorem State.unmapDirectory_inputs : (s.unmapDirectory f).inputs = s.inputs := by rw [unmapDirectory_eq]
@[simp] theorem State.unmapDirectory_hostReads : (s.unmapDirectory f).hostReads = s.hostReads := by rw [unmapDirectory_eq]
end cascadeFields

theorem mem_unmapData (s : State) (tpa : PAddr) (d : Frame) (b : PAddr) :
    (s.unmapData tpa d).mem b = if b = tpa then 0#32
      else if b = bitmapWord d then s.mem b &&& ~~~(1#32 <<< (d.toNat % 32)) else s.mem b := by
  simp only [State.unmapData, mem_memWrite, mem_emit, mem_frameClear]

theorem mem_unmapTable (s : State) (dpa : PAddr) (t : Frame) (b : PAddr) :
    (s.unmapTable dpa t).mem b = if b = dpa then 0#32
      else if b = bitmapWord t then s.mem b &&& ~~~(1#32 <<< (t.toNat % 32)) else s.mem b := by
  simp only [State.unmapTable, mem_memWrite, mem_emit, mem_frameClear]

theorem mem_unmapDirectory (s : State) (g : Frame) (b : PAddr) :
    (s.unmapDirectory g).mem b
      = if 0x100 ≤ b.toNat ∧ b.toNat < 0xF00 ∧ entryFrame (s.mem b) = g then 0#32
        else if b = bitmapWord g then s.mem b &&& ~~~(1#32 <<< (g.toNat % 32)) else s.mem b := by
  unfold State.unmapDirectory
  rw [mem_setActiveDir, mem_regRemove, mem_emit, mem_frameClear]
  by_cases h : b = bitmapWord g
  · have := bitmapWord_lt g
    have hb : ¬ 0x100 ≤ b.toNat := by rw [h]; omega
    simp only [hb, false_and, if_false]
  · simp only [if_neg h]

theorem frameUsed_unmapData (s : State) (tpa : PAddr) (d f : Frame) (h : 128 ≤ tpa.toNat) :
    (s.unmapData tpa d).frameUsed f = (!decide (f = d) && s.frameUsed f) := by
  unfold State.unmapData
  rw [frameUsed_memWrite _ _ _ _ h, frameUsed_emit, frameUsed_frameClear]

theorem frameUsed_unmapTable (s : State) (dpa : PAddr) (t f : Frame) (h : 128 ≤ dpa.toNat) :
    (s.unmapTable dpa t).frameUsed f = (!decide (f = t) && s.frameUsed f) := by
  unfold State.unmapTable
  rw [frameUsed_memWrite _ _ _ _ h, frameUsed_emit, frameUsed_frameClear]

theorem frameUsed_unmapDirectory (s : State) (g f : Frame) :
    (s.unmapDirectory g).frameUsed f = (!decide (f = g) && s.frameUsed f) := by
  unfold State.unmapDirectory
  rw [frameUsed_setActiveDir, frameUsed_regRemove, frameUsed_emit, frameUsed_frameClear]

end Sys2Proof.Machine
end

