-- ==== Sys2Proof/Laws/Forest.lean ====
section
/-! SUPPORT. What each step of MAP does to the structures that the registry reaches: which frames
are Directories, Tables and data frames, and which entries link them (spec/20_memory.md R66). -/

namespace Sys2Proof.Machine

/-- Words of frames that are not reserved, other than those of frame f, are the same. -/
def State.sameEntries (s u : State) (f : Frame) : Prop :=
  ∀ (g : Frame) (i : Offset), 16 ≤ g.toNat → g ≠ f → u.mem (frameWord g i) = s.mem (frameWord g i)

/-- The registry is the same. -/
def State.sameSlots (s u : State) : Prop := ∀ k, k < 3584 → u.slot k = s.slot k

theorem isDir_congr (s u : State) (h : s.sameSlots u) (f : Frame) : u.isDir f ↔ s.isDir f := by
  unfold State.isDir
  constructor
  · rintro ⟨k, hk, h0, hf⟩
    rw [h k hk] at h0 hf
    exact ⟨k, hk, h0, hf⟩
  · rintro ⟨k, hk, h0, hf⟩
    rw [← h k hk] at h0 hf
    exact ⟨k, hk, h0, hf⟩

/-- A frame that is free in a state that conserves frames has no role. -/
theorem free_noRole (s : State) (f : Frame) (hc : s.framesConserved) (hf : s.frameUsed f = false) :
    16 ≤ f.toNat ∧ ¬ s.isDir f ∧ ¬ s.isTable f ∧ ¬ s.isData f := by
  have h := hc f
  rw [hf] at h
  simp only [Bool.false_eq_true, false_iff, not_or, firstFree_le] at h
  exact h

theorem dir_ge (s : State) (hs : s.forest) (f : Frame) (h : s.isDir f) : 16 ≤ f.toNat :=
  (firstFree_le f).1 (hs.dir_free f h)

theorem table_ge (s : State) (hs : s.forest) (f : Frame) (h : s.isTable f) : 16 ≤ f.toNat :=
  (firstFree_le f).1 (hs.table_free f h)

theorem data_ge (s : State) (hs : s.forest) (f : Frame) (h : s.isData f) : 16 ≤ f.toNat :=
  (firstFree_le f).1 (hs.data_free f h)

/-- The registry lies apart from the frames that are not reserved and from the bitmap. -/
theorem slotAddr_apart (k : Nat) (hk : k < 3584) :
    (∀ f : Frame, 16 ≤ f.toNat → frameOf (slotAddr Config.params k) ≠ f) ∧
    (∀ f, slotAddr Config.params k ≠ bitmapWord f) ∧
    ∀ (f : Frame) (i : Offset), 16 ≤ f.toNat → slotAddr Config.params k ≠ frameWord f i := by
  refine ⟨fun f hf h => ?_, fun f h => ?_, fun f i hf => slotAddr_ne_frameWord k hk f i hf⟩
  · have := frameOf_slotAddr_lt k hk
    rw [h] at this
    omega
  · have hge := slotAddr_ge k hk
    rw [h] at hge
    have := bitmapWord_lt f
    omega

theorem slotAddr_inj (j k : Nat) (hj : j < 3584) (hk : k < 3584)
    (h : slotAddr Config.params j = slotAddr Config.params k) : j = k := by
  have := congrArg BitVec.toNat h
  rw [slotAddr_toNat j hj, slotAddr_toNat k hk] at this
  omega

/-! ### The steps of MAP -/

theorem newDirectory_slot (s : State) (f : Frame) (k j : Nat) (hf : 16 ≤ f.toNat) (hk : k < 3584)
    (hj : j < 3584) :
    (s.newDirectory f k).slot j = if j = k then regEntry Config.params s.curPid f else s.slot j := by
  obtain ⟨h1, h2, -⟩ := slotAddr_apart j hj
  unfold State.slot
  rw [mem_newDirectory, if_neg (h1 f hf), if_neg (h2 f)]
  by_cases h : j = k
  · rw [if_pos (by rw [h]), if_pos h]
  · rw [if_neg fun e => h (slotAddr_inj j k hj hk e), if_neg h]

theorem newDirectory_entry (s : State) (f : Frame) (k : Nat) (g : Frame) (i : Offset) (hk : k < 3584)
    (hg : 16 ≤ g.toNat) :
    (s.newDirectory f k).mem (frameWord g i) = if g = f then 0#32 else s.mem (frameWord g i) := by
  rw [mem_newDirectory, if_neg (slotAddr_ne_frameWord k hk g i hg).symm, frameOf_frameWord,
    if_neg (bitmapWord_ne_frameWord f g i (ne_zero_of_le g hg)).symm]

/-- An entry written by MAP's Step 2 or 3, in a frame that is not reserved, leaves the registry. -/
theorem newEntry_sameSlots (s : State) (role : Role) (g : Frame) (i : Offset) (f : Frame)
    (hg : 16 ≤ g.toNat) (hf : 16 ≤ f.toNat) : s.sameSlots (s.newEntry role (frameWord g i) f) := by
  intro k hk
  obtain ⟨h1, h2, h3⟩ := slotAddr_apart k hk
  unfold State.slot
  rw [mem_newEntry, if_neg (h3 g i hg), if_neg (fun h => h1 f hf h.2), if_neg (h2 f)]

theorem newEntry_entry (s : State) (role : Role) (g : Frame) (i : Offset) (f x : Frame) (j : Offset)
    (hx : 16 ≤ x.toNat) :
    (s.newEntry role (frameWord g i) f).mem (frameWord x j)
      = if x = g ∧ j = i then mapPte Config.params s.curPid f
        else if role = .table ∧ x = f then 0#32 else s.mem (frameWord x j) := by
  rw [mem_newEntry, frameOf_frameWord,
    if_neg (bitmapWord_ne_frameWord f x j (ne_zero_of_le x hx)).symm]
  simp only [frameWord_inj]

theorem reusedEntry_sameSlots (s : State) (role : Role) (g : Frame) (i : Offset) (f : Frame)
    (hg : 16 ≤ g.toNat) : s.sameSlots (s.reusedEntry role (frameWord g i) f) := by
  intro k hk
  unfold State.slot
  rw [mem_reusedEntry, if_neg ((slotAddr_apart k hk).2.2 g i hg)]

/-- An entry that already names the frame keeps its FRAME. -/
theorem reusedEntry_frame (s : State) (role : Role) (ea : PAddr) (f : Frame)
    (he : entryFrame (s.mem ea) = f) (pa : PAddr) :
    entryFrame ((s.reusedEntry role ea f).mem pa) = entryFrame (s.mem pa) := by
  rw [mem_reusedEntry]
  split
  · rename_i h
    rw [entryFrame_mapPte, h, he]
  · rfl

/-- A new Directory in a forest that conserves frames. -/
theorem newDirectory_forest (s : State) (f : Frame) (k : Nat) (hs : s.forest) (hc : s.framesConserved)
    (hp : s.curPid ≠ 0#8) (hf : s.lowestFree f) (hk : s.lowestFreeSlot k) :
    (s.newDirectory f k).forest ∧ (s.newDirectory f k).framesConserved ∧
      (s.newDirectory f k).isDir f := by
  obtain ⟨f16, fd, ft, fx⟩ := free_noRole s f hc hf.1
  have hk0 := hk.1
  set u := s.newDirectory f k
  have slot : ∀ j, j < 3584 → u.slot j = if j = k then regEntry Config.params s.curPid f else s.slot j :=
    fun j hj => newDirectory_slot s f k j f16 hk0 hj
  have ent : ∀ (g : Frame) (i : Offset), 16 ≤ g.toNat →
      u.mem (frameWord g i) = if g = f then 0#32 else s.mem (frameWord g i) :=
    fun g i hg => newDirectory_entry s f k g i hk0 hg
  have dirs : ∀ x, u.isDir x ↔ s.isDir x ∨ x = f := by
    intro x
    constructor
    · rintro ⟨j, hj, h0, hx⟩
      rw [slot j hj] at h0 hx
      by_cases h : j = k
      · rw [if_pos h, entryFrame_regEntry] at hx
        exact .inr hx.symm
      · rw [if_neg h] at h0 hx
        exact .inl ⟨j, hj, h0, hx⟩
    · rintro (⟨j, hj, h0, hx⟩ | rfl)
      · have h : j ≠ k := fun h => h0 (by rw [h]; exact hk.2.1)
        exact ⟨j, hj, by rw [slot j hj, if_neg h]; exact h0, by rw [slot j hj, if_neg h]; exact hx⟩
      · exact ⟨k, hk0, by rw [slot k hk0, if_pos rfl]; exact regEntry_ne_zero _ _ hp,
          by rw [slot k hk0, if_pos rfl, entryFrame_regEntry]⟩
  have lt : ∀ g i x, u.linksTable g i x ↔ s.linksTable g i x := by
    intro g i x
    unfold State.linksTable
    rw [dirs]
    constructor
    · rintro ⟨hg | rfl, he, hx⟩
      · have : g ≠ f := fun h => fd (h ▸ hg)
        rw [ent g i (dir_ge s hs g hg), if_neg this] at he
        exact ⟨hg, he, hx⟩
      · rw [ent g i f16, if_pos rfl] at he
        exact absurd he.symm hx
    · rintro ⟨hg, he, hx⟩
      have : g ≠ f := fun h => fd (h ▸ hg)
      exact ⟨.inl hg, by rw [ent g i (dir_ge s hs g hg), if_neg this]; exact he, hx⟩
  have tabs : ∀ x, u.isTable x ↔ s.isTable x := fun x => by simp only [State.isTable, lt]
  have ld : ∀ t j x, u.linksData t j x ↔ s.linksData t j x := by
    intro t j x
    unfold State.linksData
    rw [tabs]
    refine and_congr_right fun ht => ?_
    have : t ≠ f := fun h => ft (h ▸ ht)
    rw [ent t j (table_ge s hs t ht), if_neg this]
  have datas : ∀ x, u.isData x ↔ s.isData x := fun x => by simp only [State.isData, ld]
  have used : ∀ g, u.frameUsed g = (decide (g = f) || s.frameUsed g) :=
    fun g => frameUsed_newDirectory s f g k hk0 (ne_zero_of_le f f16)
  refine ⟨⟨?_, ?_, ?_, ?_, ?_, ?_, ?_, ?_, ?_⟩, ?_, (dirs f).2 (.inr rfl)⟩
  · intro x hx
    rcases (dirs x).1 hx with h | rfl
    · exact hs.dir_free x h
    · exact (firstFree_le _).2 f16
  · exact fun x hx => hs.table_free x ((tabs x).1 hx)
  · exact fun x hx => hs.data_free x ((datas x).1 hx)
  · intro x hx h
    rw [tabs] at h
    rcases (dirs x).1 hx with hx | rfl
    · exact hs.dir_not_table x hx h
    · exact ft h
  · intro x hx h
    rw [datas] at h
    rcases (dirs x).1 hx with hx | rfl
    · exact hs.dir_not_data x hx h
    · exact fx h
  · exact fun x hx h => hs.table_not_data x ((tabs x).1 hx) ((datas x).1 h)
  · intro i j hi hj h1 h2 he
    rw [slot i hi] at h1 he
    rw [slot j hj] at h2 he
    by_cases ci : i = k <;> by_cases cj : j = k
    · rw [ci, cj]
    · rw [if_pos ci, if_neg cj, entryFrame_regEntry] at he
      rw [if_neg cj] at h2
      exact absurd ⟨j, hj, h2, he.symm⟩ fd
    · rw [if_neg ci, if_pos cj, entryFrame_regEntry] at he
      rw [if_neg ci] at h1
      exact absurd ⟨i, hi, h1, he⟩ fd
    · rw [if_neg ci, if_neg cj] at he
      rw [if_neg ci] at h1
      rw [if_neg cj] at h2
      exact hs.dir_once i j hi hj h1 h2 he
  · intro x g g' i i' h1 h2
    rw [lt] at h1 h2
    exact hs.table_once x g g' i i' h1 h2
  · intro x t t' j j' h1 h2
    rw [ld] at h1 h2
    exact hs.data_once x t t' j j' h1 h2
  · intro x
    rw [used, dirs, tabs, datas, Bool.or_eq_true, decide_eq_true_eq, hc x]
    tauto

/-- A new Table for an empty entry of a registered Directory. -/
theorem newTable_forest (s : State) (g : Frame) (i : Offset) (f : Frame) (hs : s.forest)
    (hc : s.framesConserved) (hg : s.isDir g) (h0 : entryFrame (s.mem (frameWord g i)) = 0#12)
    (hf : s.lowestFree f) :
    (s.newEntry .table (frameWord g i) f).forest ∧ (s.newEntry .table (frameWord g i) f).framesConserved ∧
      (s.newEntry .table (frameWord g i) f).isTable f := by
  obtain ⟨f16, fd, ft, fx⟩ := free_noRole s f hc hf.1
  have g16 := dir_ge s hs g hg
  have fz := ne_zero_of_le f f16
  set u := s.newEntry .table (frameWord g i) f
  have ent : ∀ (x : Frame) (j : Offset), 16 ≤ x.toNat → u.mem (frameWord x j)
      = if x = g ∧ j = i then mapPte Config.params s.curPid f
        else if x = f then 0#32 else s.mem (frameWord x j) := by
    intro x j hx
    rw [newEntry_entry s .table g i f x j hx]
    simp only [true_and]
  have dirs : ∀ x, u.isDir x ↔ s.isDir x :=
    isDir_congr s u (newEntry_sameSlots s .table g i f g16 f16)
  have lt : ∀ x j y, u.linksTable x j y ↔ s.linksTable x j y ∨ (x = g ∧ j = i ∧ y = f) := by
    intro x j y
    unfold State.linksTable
    rw [dirs]
    constructor
    · rintro ⟨hx, he, hy⟩
      have hxf : x ≠ f := fun h => fd (h ▸ hx)
      rw [ent x j (dir_ge s hs x hx)] at he
      by_cases h : x = g ∧ j = i
      · rw [if_pos h, entryFrame_mapPte] at he
        exact .inr ⟨h.1, h.2, he.symm⟩
      · rw [if_neg h, if_neg hxf] at he
        exact .inl ⟨hx, he, hy⟩
    · rintro (⟨hx, he, hy⟩ | ⟨rfl, rfl, rfl⟩)
      · have hxf : x ≠ f := fun h => fd (h ▸ hx)
        have h : ¬ (x = g ∧ j = i) := by
          rintro ⟨rfl, rfl⟩
          exact hy (he ▸ h0)
        exact ⟨hx, by rw [ent x j (dir_ge s hs x hx), if_neg h, if_neg hxf]; exact he, hy⟩
      · exact ⟨hg, by rw [ent x j g16, if_pos ⟨rfl, rfl⟩, entryFrame_mapPte], fz⟩
  have tabs : ∀ y, u.isTable y ↔ s.isTable y ∨ y = f := by
    intro y
    unfold State.isTable
    constructor
    · rintro ⟨x, j, h⟩
      rcases (lt x j y).1 h with h | h
      · exact .inl ⟨x, j, h⟩
      · exact .inr h.2.2
    · rintro (⟨x, j, h⟩ | rfl)
      · exact ⟨x, j, (lt x j y).2 (.inl h)⟩
      · exact ⟨g, i, (lt g i y).2 (.inr ⟨rfl, rfl, rfl⟩)⟩
  have ld : ∀ t j x, u.linksData t j x ↔ s.linksData t j x := by
    intro t j x
    unfold State.linksData
    rw [tabs]
    constructor
    · rintro ⟨ht | rfl, he, hx⟩
      · have htf : t ≠ f := fun h => ft (h ▸ ht)
        have htg : ¬ (t = g ∧ j = i) := fun h => hs.dir_not_table g hg (h.1 ▸ ht)
        rw [ent t j (table_ge s hs t ht), if_neg htg, if_neg htf] at he
        exact ⟨ht, he, hx⟩
      · have htg : ¬ (t = g ∧ j = i) := fun h => fd (h.1 ▸ hg)
        rw [ent t j f16, if_neg htg, if_pos rfl] at he
        exact absurd he.symm hx
    · rintro ⟨ht, he, hx⟩
      have htf : t ≠ f := fun h => ft (h ▸ ht)
      have htg : ¬ (t = g ∧ j = i) := fun h => hs.dir_not_table g hg (h.1 ▸ ht)
      exact ⟨.inl ht, by rw [ent t j (table_ge s hs t ht), if_neg htg, if_neg htf]; exact he, hx⟩
  have datas : ∀ x, u.isData x ↔ s.isData x := fun x => by simp only [State.isData, ld]
  have used : ∀ x, u.frameUsed x = (decide (x = f) || s.frameUsed x) := fun x =>
    frameUsed_newEntry s .table _ f x (frameWord_ge g i (ne_zero_of_le g g16)) fun _ => fz
  refine ⟨⟨?_, ?_, ?_, ?_, ?_, ?_, ?_, ?_, ?_⟩, ?_, (tabs f).2 (.inr rfl)⟩
  · exact fun x hx => hs.dir_free x ((dirs x).1 hx)
  · intro x hx
    rcases (tabs x).1 hx with h | rfl
    · exact hs.table_free x h
    · exact (firstFree_le _).2 f16
  · exact fun x hx => hs.data_free x ((datas x).1 hx)
  · intro x hx h
    rw [dirs] at hx
    rcases (tabs x).1 h with h | rfl
    · exact hs.dir_not_table x hx h
    · exact fd hx
  · exact fun x hx h => hs.dir_not_data x ((dirs x).1 hx) ((datas x).1 h)
  · intro x hx h
    rw [datas] at h
    rcases (tabs x).1 hx with hx | rfl
    · exact hs.table_not_data x hx h
    · exact fx h
  · intro j k hj hk h1 h2 he
    have same := newEntry_sameSlots s .table g i f g16 f16
    rw [same j hj] at h1 he
    rw [same k hk] at h2 he
    exact hs.dir_once j k hj hk h1 h2 he
  · intro y x x' j j' h1 h2
    rcases (lt x j y).1 h1 with h1 | h1 <;> rcases (lt x' j' y).1 h2 with h2 | h2
    · exact hs.table_once y x x' j j' h1 h2
    · exact absurd ⟨x, j, h2.2.2 ▸ h1⟩ ft
    · exact absurd ⟨x', j', h1.2.2 ▸ h2⟩ ft
    · exact ⟨h1.1.trans h2.1.symm, h1.2.1.trans h2.2.1.symm⟩
  · intro x t t' j j' h1 h2
    rw [ld] at h1 h2
    exact hs.data_once x t t' j j' h1 h2
  · intro x
    rw [used, dirs, tabs, datas, Bool.or_eq_true, decide_eq_true_eq, hc x]
    tauto

/-- A new data frame for an empty entry of a Table. -/
theorem newData_forest (s : State) (t : Frame) (j : Offset) (f : Frame) (hs : s.forest)
    (hc : s.framesConserved) (ht : s.isTable t) (h0 : entryFrame (s.mem (frameWord t j)) = 0#12)
    (hf : s.lowestFree f) :
    (s.newEntry .data (frameWord t j) f).forest ∧ (s.newEntry .data (frameWord t j) f).framesConserved := by
  obtain ⟨f16, fd, ft, fx⟩ := free_noRole s f hc hf.1
  have t16 := table_ge s hs t ht
  have fz := ne_zero_of_le f f16
  set u := s.newEntry .data (frameWord t j) f
  have ent : ∀ (x : Frame) (i : Offset), 16 ≤ x.toNat → u.mem (frameWord x i)
      = if x = t ∧ i = j then mapPte Config.params s.curPid f else s.mem (frameWord x i) := by
    intro x i hx
    rw [newEntry_entry s .data t j f x i hx]
    simp only [reduceCtorEq, false_and, if_false]
  have same := newEntry_sameSlots s .data t j f t16 f16
  have dirs : ∀ x, u.isDir x ↔ s.isDir x := isDir_congr s u same
  have lt : ∀ x i y, u.linksTable x i y ↔ s.linksTable x i y := by
    intro x i y
    unfold State.linksTable
    rw [dirs]
    refine and_congr_right fun hx => ?_
    have : ¬ (x = t ∧ i = j) := fun h => hs.dir_not_table x hx (h.1 ▸ ht)
    rw [ent x i (dir_ge s hs x hx), if_neg this]
  have tabs : ∀ y, u.isTable y ↔ s.isTable y := fun y => by simp only [State.isTable, lt]
  have ld : ∀ x i y, u.linksData x i y ↔ s.linksData x i y ∨ (x = t ∧ i = j ∧ y = f) := by
    intro x i y
    unfold State.linksData
    rw [tabs]
    constructor
    · rintro ⟨hx, he, hy⟩
      rw [ent x i (table_ge s hs x hx)] at he
      by_cases h : x = t ∧ i = j
      · rw [if_pos h, entryFrame_mapPte] at he
        exact .inr ⟨h.1, h.2, he.symm⟩
      · rw [if_neg h] at he
        exact .inl ⟨hx, he, hy⟩
    · rintro (⟨hx, he, hy⟩ | ⟨rfl, rfl, rfl⟩)
      · have h : ¬ (x = t ∧ i = j) := by
          rintro ⟨rfl, rfl⟩
          exact hy (he ▸ h0)
        exact ⟨hx, by rw [ent x i (table_ge s hs x hx), if_neg h]; exact he, hy⟩
      · exact ⟨ht, by rw [ent x i t16, if_pos ⟨rfl, rfl⟩, entryFrame_mapPte], fz⟩
  have datas : ∀ y, u.isData y ↔ s.isData y ∨ y = f := by
    intro y
    unfold State.isData
    constructor
    · rintro ⟨x, i, h⟩
      rcases (ld x i y).1 h with h | h
      · exact .inl ⟨x, i, h⟩
      · exact .inr h.2.2
    · rintro (⟨x, i, h⟩ | rfl)
      · exact ⟨x, i, (ld x i y).2 (.inl h)⟩
      · exact ⟨t, j, (ld t j y).2 (.inr ⟨rfl, rfl, rfl⟩)⟩
  have used : ∀ x, u.frameUsed x = (decide (x = f) || s.frameUsed x) := fun x =>
    frameUsed_newEntry s .data _ f x (frameWord_ge t j (ne_zero_of_le t t16)) (by simp)
  refine ⟨⟨?_, ?_, ?_, ?_, ?_, ?_, ?_, ?_, ?_⟩, ?_⟩
  · exact fun x hx => hs.dir_free x ((dirs x).1 hx)
  · exact fun x hx => hs.table_free x ((tabs x).1 hx)
  · intro x hx
    rcases (datas x).1 hx with h | rfl
    · exact hs.data_free x h
    · exact (firstFree_le _).2 f16
  · exact fun x hx h => hs.dir_not_table x ((dirs x).1 hx) ((tabs x).1 h)
  · intro x hx h
    rw [dirs] at hx
    rcases (datas x).1 h with h | rfl
    · exact hs.dir_not_data x hx h
    · exact fd hx
  · intro x hx h
    rw [tabs] at hx
    rcases (datas x).1 h with h | rfl
    · exact hs.table_not_data x hx h
    · exact ft hx
  · intro i k hi hk h1 h2 he
    rw [same i hi] at h1 he
    rw [same k hk] at h2 he
    exact hs.dir_once i k hi hk h1 h2 he
  · intro y x x' i i' h1 h2
    rw [lt] at h1 h2
    exact hs.table_once y x x' i i' h1 h2
  · intro y x x' i i' h1 h2
    rcases (ld x i y).1 h1 with h1 | h1 <;> rcases (ld x' i' y).1 h2 with h2 | h2
    · exact hs.data_once y x x' i i' h1 h2
    · exact absurd ⟨x, i, h2.2.2 ▸ h1⟩ fx
    · exact absurd ⟨x', i', h1.2.2 ▸ h2⟩ fx
    · exact ⟨h1.1.trans h2.1.symm, h1.2.1.trans h2.2.1.symm⟩
  · intro x
    rw [used, dirs, tabs, datas, Bool.or_eq_true, decide_eq_true_eq, hc x]
    tauto

/-- Two states whose registries, entries' FRAMEs and bitmaps agree have the same structures. -/
theorem forest_congr (s u : State) (hslot : s.sameSlots u)
    (hent : ∀ (g : Frame) (i : Offset), entryFrame (u.mem (frameWord g i)) = entryFrame (s.mem (frameWord g i)))
    (hused : ∀ f, u.frameUsed f = s.frameUsed f) (hs : s.forest) (hc : s.framesConserved) :
    u.forest ∧ u.framesConserved ∧ (∀ f, u.isDir f ↔ s.isDir f) ∧ (∀ f, u.isTable f ↔ s.isTable f) := by
  have dirs : ∀ x, u.isDir x ↔ s.isDir x := isDir_congr s u hslot
  have lt : ∀ x i y, u.linksTable x i y ↔ s.linksTable x i y := fun x i y => by
    simp only [State.linksTable, dirs, hent]
  have tabs : ∀ y, u.isTable y ↔ s.isTable y := fun y => by simp only [State.isTable, lt]
  have ld : ∀ x i y, u.linksData x i y ↔ s.linksData x i y := fun x i y => by
    simp only [State.linksData, tabs, hent]
  have datas : ∀ y, u.isData y ↔ s.isData y := fun y => by simp only [State.isData, ld]
  refine ⟨⟨?_, ?_, ?_, ?_, ?_, ?_, ?_, ?_, ?_⟩, ?_, dirs, tabs⟩
  · exact fun x hx => hs.dir_free x ((dirs x).1 hx)
  · exact fun x hx => hs.table_free x ((tabs x).1 hx)
  · exact fun x hx => hs.data_free x ((datas x).1 hx)
  · exact fun x hx h => hs.dir_not_table x ((dirs x).1 hx) ((tabs x).1 h)
  · exact fun x hx h => hs.dir_not_data x ((dirs x).1 hx) ((datas x).1 h)
  · exact fun x hx h => hs.table_not_data x ((tabs x).1 hx) ((datas x).1 h)
  · intro i k hi hk h1 h2 he
    rw [hslot i hi] at h1 he
    rw [hslot k hk] at h2 he
    exact hs.dir_once i k hi hk h1 h2 he
  · intro y x x' i i' h1 h2
    rw [lt] at h1 h2
    exact hs.table_once y x x' i i' h1 h2
  · intro y x x' i i' h1 h2
    rw [ld] at h1 h2
    exact hs.data_once y x x' i i' h1 h2
  · intro x
    rw [hused, dirs, tabs, datas, hc x]

/-- MAP's Step 2 or 3 on an entry that already names its frame. -/
theorem reusedEntry_forest (s : State) (role : Role) (g : Frame) (i : Offset) (f : Frame) (hs : s.forest)
    (hc : s.framesConserved) (hg : 16 ≤ g.toNat) (he : entryFrame (s.mem (frameWord g i)) = f) :
    let u := s.reusedEntry role (frameWord g i) f
    u.forest ∧ u.framesConserved ∧ (∀ x, u.isDir x ↔ s.isDir x) ∧ (∀ x, u.isTable x ↔ s.isTable x) :=
  forest_congr s _ (reusedEntry_sameSlots s role g i f hg) (fun _ _ => reusedEntry_frame s role _ f he _)
    (fun x => frameUsed_reusedEntry s role _ f x (frameWord_ge g i (ne_zero_of_le g hg))) hs hc

end Sys2Proof.Machine
end

