-- ==== Sys2Proof/Laws/PerInstr.lean ====
section
/-! SUPPORT. The family EncodedByItsRow, said of every command: its word is one of its own row's of
opcode_table.json, and of no other row's (spec/30_encoding.md R69 to R74, R78). -/

namespace Sys2Proof.Laws.EncodedByItsRow

/-- The word of the command is accepted by the command's row and by that row only. -/
def Statement (i : Instr) : Prop :=
  (opcodeTable.filter fun r => r.accepts (encode i)).map OpRow.mnemonic = [i.mnemonic]

theorem read (va : VAddr) : Statement (.read va) := by
  unfold Statement
  rw [filter_opcodeTable]
  simp only [encode, opcode_formatV, rsv_formatV]
  simp [opcodeTable, Instr.mnemonic]

theorem write (va : VAddr) : Statement (.write va) := by
  unfold Statement
  rw [filter_opcodeTable]
  simp only [encode, opcode_formatV, rsv_formatV]
  simp [opcodeTable, Instr.mnemonic]

theorem map (va : VAddr) : Statement (.map va) := by
  unfold Statement
  rw [filter_opcodeTable]
  simp only [encode, opcode_formatV, rsv_formatV]
  simp [opcodeTable, Instr.mnemonic]

theorem unmap (va : VAddr) : Statement (.unmap va) := by
  unfold Statement
  rw [filter_opcodeTable]
  simp only [encode, opcode_formatV, rsv_formatV]
  simp [opcodeTable, Instr.mnemonic]

theorem switch (pid : Pid) : Statement (.switch pid) := by
  unfold Statement
  rw [filter_opcodeTable]
  simp only [encode, opcode_formatP, rsv_formatP]
  simp [opcodeTable, Instr.mnemonic]

theorem find : Statement .find := by
  unfold Statement
  rw [filter_opcodeTable]
  rfl

theorem falloc : Statement .falloc := by
  unfold Statement
  rw [filter_opcodeTable]
  rfl

theorem ffree (frame : Frame) : Statement (.ffree frame) := by
  unfold Statement
  rw [filter_opcodeTable]
  simp only [encode, opcode_formatF, rsv_formatF]
  simp [opcodeTable, Instr.mnemonic]

theorem sfind : Statement .sfind := by
  unfold Statement
  rw [filter_opcodeTable]
  rfl

theorem dump (frame : Frame) (sector : Sector) : Statement (.dump frame sector) := by
  unfold Statement
  rw [filter_opcodeTable]
  simp only [encode, opcode_formatSF, rsv_formatSF]
  simp [opcodeTable, Instr.mnemonic]

theorem restore (sector : Sector) (frame : Frame) : Statement (.restore sector frame) := by
  unfold Statement
  rw [filter_opcodeTable]
  simp only [encode, opcode_formatSF, rsv_formatSF]
  simp [opcodeTable, Instr.mnemonic]

theorem init : Statement .init := by
  unfold Statement
  rw [filter_opcodeTable]
  rfl

end Sys2Proof.Laws.EncodedByItsRow
end

