-- ==== Sys2Proof/Tests/Slice0.lean ====
section
/-! SUPPORT. The model's own tests. Expected words and values are those of spec/30_encoding.md R70 to R74 and of the vectors
of spec/95_test_vectors.md (the vector's number stands in each comment), never the model's own answers. After
them, for every claim with hypotheses, a state and operands that meet them together. -/

namespace Sys2Proof.Tests

open Sys2Proof.Machine

set_option Elab.async false

/-! ### Well-formedness (the smoke test) and decoding -/

/-- A DiskStore of half the sectors. -/
def halfDisk : Params := { numSectors := 4096 }

theorem test_wellFormed_refuses_dump_sector :
    (Instr.dump 18#12 4096#13).wellFormedWith halfDisk = false := by decide
theorem test_wellFormed_refuses_restore_sector :
    (Instr.restore 8191#13 18#12).wellFormedWith halfDisk = false := by decide
theorem test_wellFormed_allows_last_sector :
    (Instr.dump 18#12 4095#13).wellFormedWith halfDisk = true ∧
    (Instr.restore 8191#13 18#12).wellFormed = true := by decide
/-- The same word, refused by name on the smaller DiskStore. -/
theorem test_decode_refuses_absent_sector :
    decodeWith halfDisk 0xA1000012#32 = .error .sectorOutOfRange ∧
    decode 0xA1000012#32 = .ok (.dump 18#12 4096#13) := ⟨rfl, rfl⟩

/- The words below are written field by field from the formats: opcode, reserved bits, operand fields. -/
theorem test_decode_read : decode (0b0001#4 ++ 0b0000#4 ++ 0x123456#24) = .ok (.read 0x123456#24) := rfl
theorem test_decode_write : decode (0b0010#4 ++ 0b0000#4 ++ 0xFFFFFF#24) = .ok (.write 0xFFFFFF#24) := rfl
theorem test_decode_map : decode (0b0011#4 ++ 0b0000#4 ++ 0x800100#24) = .ok (.map 0x800100#24) := rfl
theorem test_decode_unmap : decode (0b0100#4 ++ 0b0000#4 ++ 0x010000#24) = .ok (.unmap 0x010000#24) := rfl
theorem test_decode_switch : decode (0b0101#4 ++ 0#20 ++ 0xA5#8) = .ok (.switch 0xA5#8) := rfl
theorem test_decode_find : decode (0b0110#4 ++ 0#28) = .ok .find := rfl
theorem test_decode_falloc : decode (0b0111#4 ++ 0#28) = .ok .falloc := rfl
theorem test_decode_ffree : decode (0b1000#4 ++ 0#16 ++ 0x801#12) = .ok (.ffree 0x801#12) := rfl
theorem test_decode_sfind : decode (0b1001#4 ++ 0#28) = .ok .sfind := rfl
theorem test_decode_dump :
    decode (0b1010#4 ++ 0#3 ++ 0x1001#13 ++ 0x802#12) = .ok (.dump 0x802#12 0x1001#13) := rfl
theorem test_decode_restore :
    decode (0b1011#4 ++ 0#3 ++ 0x1001#13 ++ 0x802#12) = .ok (.restore 0x1001#13 0x802#12) := rfl
theorem test_decode_init : decode (0b1111#4 ++ 0#28) = .ok .init := rfl

/-- I3 to I9: reserved opcodes and reserved bits. -/
theorem test_decode_reserved :
    decode 0x00000000#32 = .error (.reservedOpcode 0x0#4) ∧
    decode 0xC0000000#32 = .error (.reservedOpcode 0xC#4) ∧
    decode 0xD0000000#32 = .error (.reservedOpcode 0xD#4) ∧
    decode 0xE0000000#32 = .error (.reservedOpcode 0xE#4) ∧
    decode 0x31000000#32 = .error .reservedBits ∧ decode 0x50000100#32 = .error .reservedBits ∧
    decode 0x80001010#32 = .error .reservedBits ∧ decode 0xA2000000#32 = .error .reservedBits ∧
    decode 0xF0000001#32 = .error .reservedBits ∧ decode 0x60000001#32 = .error .reservedBits :=
  ⟨rfl, rfl, rfl, rfl, rfl, rfl, rfl, rfl, rfl, rfl⟩

/-- R80, R81: `WRITE va, data` is a write of WDATA, then the command word. -/
theorem test_assemble_write :
    assemble (.WRITEDATA 5 0xDEADBEEF)
      = some [.write 0x04 32 0xDEADBEEF#32, .write 0x00 32 0x20000005#32] := by decide

/-! ### Small states -/

/-- A machine with the given context and FrameStore, everything else as after reset. -/
def machine (pid : Pid) (dir : Frame) (frames : Memory) : State :=
  { State.reset with curPid := pid, activeDir := dir, frames := frames }

/-- S0: after INIT and SWITCH 1, with sector 0 as INIT leaves it. -/
def s0 : State := { machine 1#8 0#12 [(0x00000, 0x0000FFFF#32), (0x00F00, 0x00000001#32)] with disk := [(0, 1#32)] }

/-- S1's FrameStore with the given Directory entry, Table entry and data word 5. -/
def mapped (de te x : Word) : Memory :=
  [(0x00000, 0x0007FFFF#32), (0x00100, 0x01000010#32), (0x00F00, 0x00000001#32), (0x01000, de),
   (0x01100, te), (0x01205, x)]

/-- S1W: S0 after MAP 0x000000 and WRITE 0x000005, 0xDEADBEEF. -/
def s1 : State := machine 1#8 16#12 (mapped 0x0100D011#32 0x0100D012#32 0xDEADBEEF#32)

/-- The next state; reset where there is none. -/
def after (o : Host.Outcome State Fault Refusal) : State :=
  match o with
  | .next s => s
  | .fault _ | .refused _ => State.reset

/-! ### One step of each command -/

/-- T6: V clear in the Table entry. -/
theorem test_read_permission :
    let s := machine 1#8 16#12 (mapped 0x0100D011#32 0x0100C012#32 0xDEADBEEF#32)
    let t := after (exec (.read 0x000005#24) s)
    t.status = 0x200#32 ∧ t.rdata = 0xDEADBEEF#32 ∧ t.fva = 0x02000005#32 ∧ t.fent = 0x0100C012#32 := by
  decide +kernel
/-- T3: a Table entry of 0. -/
theorem test_read_fatal :
    let t := after (exec (.read 0x000100#24) s1)
    t.status = 0x7#32 ∧ t.rdata = 0#32 ∧ t.fva = 0x12000100#32 ∧ t.trace = [.fatal 0x000100#24 .tab 0#32] := by
  decide +kernel
/-- T7. -/
theorem test_write_permission :
    let s := machine 1#8 16#12 (mapped 0x0100D011#32 0x0100C012#32 0xDEADBEEF#32)
    let t := after (exec (.write 0x000005#24) { s with wdata := 0x55#32 })
    t.frames = mapped 0x0100D011#32 0x0100C012#32 0x55#32 ∧ t.status = 0x200#32 ∧ t.rdata = 0#32 := by
  decide +kernel
/-- T9: FRAME 5 in the Table entry; nothing is stored. -/
theorem test_write_fatal :
    let s := machine 1#8 16#12 (mapped 0x0100D011#32 0x0100D005#32 0xDEADBEEF#32)
    let t := after (exec (.write 0x000005#24) { s with wdata := 0x55#32 })
    t.frames = s.frames ∧ t.status = 0x7#32 := by decide +kernel
/-- M1. -/
theorem test_map_first :
    let t := after (exec (.map 0x000000#24) s0)
    t.frames = [(0x00000, 0x0007FFFF#32), (0x00100, 0x01000010#32), (0x00F00, 0x00000001#32),
      (0x01000, 0x0100D011#32), (0x01100, 0x0100D012#32)] ∧ t.activeDir = 16#12 ∧ t.rdata = 0x12#32 := by
  decide +kernel
/-- M3: owner, flags and reserved bits of the Directory entry are rewritten. -/
theorem test_map_rewrites :
    let s := machine 1#8 16#12 (mapped 0x02AB5011#32 0x0100D012#32 0xDEADBEEF#32)
    let t := after (exec (.map 0x000000#24) s)
    t.frames = s1.frames ∧ t.rdata = 0x12#32 ∧ t.status = 0#32 := by decide +kernel
/-- E3, U1: the whole cascade; the data frame's word stays. -/
theorem test_unmap_cascade :
    let t := after (exec (.unmap 0x000000#24) s1)
    t.frames = [(0x00000, 0x0000FFFF#32), (0x00F00, 0x00000001#32), (0x01205, 0xDEADBEEF#32)] ∧
      t.activeDir = 0#12 ∧ t.status = 0#32 := by decide +kernel
/-- U7: a zero Table entry clears bit 0. -/
theorem test_unmap_zero_entry :
    let t := after (exec (.unmap 0x000100#24) s1)
    t.mem 0x00000#20 = 0x0007FFFE#32 ∧ t.trace = [.release .data 0#12] ∧ t.status = 0#32 := by
  decide +kernel
/-- X3. -/
theorem test_switch_keeps_directory :
    let t := after (exec (.switch 2#8) s1)
    ctxWord t.curPid t.activeDir = 0x00001002#32 ∧ t.status = 0#32 := by decide +kernel
/-- X5. -/
theorem test_find_absent :
    let t := after (exec .find s0)
    t.status = 0x8#32 ∧ t.rdata = 0#32 ∧ t.activeDir = 0#12 := by decide +kernel
/-- X6, from line 7 of program P2: the Directory of process 1 is found again. -/
theorem test_find_hit :
    let t := after (exec .find { s1 with activeDir := 19#12 })
    t.activeDir = 16#12 ∧ t.rdata = 0x10#32 ∧ t.status = 0#32 := by decide +kernel
/-- F7: the 33rd FALLOC, from word 1 bit 16. -/
theorem test_falloc_second_word :
    let t := after (exec .falloc (machine 1#8 0#12 [(0, 0xFFFFFFFF#32), (1, 0x0000FFFF#32)]))
    t.rdata = 0x30#32 ∧ t.mem 0x00001#20 = 0x0001FFFF#32 := by decide +kernel
/-- F4: FFREE 0 checks nothing. -/
theorem test_ffree_reserved :
    let t := after (exec (.ffree 0#12) s0)
    t.mem 0x00000#20 = 0x0000FFFE#32 ∧ t.status = 0#32 := by decide +kernel
/-- W1: the mirror changes, sector 0 does not. -/
theorem test_sfind_mirror_only :
    let t := after (exec .sfind s0)
    t.rdata = 1#32 ∧ t.mem 0x00F00#20 = 0x00000003#32 ∧ t.disk = [(0, 1#32)] := by decide +kernel
/-- W6: sector 9 takes frame 0. -/
theorem test_dump_frame0 :
    let t := after (exec (.dump 0#12 9#13) s0)
    t.disk = [(0, 1#32), (9 * 256, 0x0000FFFF#32)] ∧ t.frames = s0.frames := by decide +kernel
/-- W5: sector 0 restored, its bit cleared after the copy, the mirror persisted after that. -/
theorem test_restore_sector0 :
    let s := after (exec .sfind s0)
    let t := after (exec (.restore 0#13 20#12) s)
    t.mem 0x01400#20 = 1#32 ∧ t.mem 0x00F00#20 = 2#32 ∧ t.disk = [(0, 2#32)] := by decide +kernel
/-- I2: frames from 16 on are not written. -/
theorem test_init_keeps_high_frames :
    let t := after (exec .init s1)
    t.frames = [(0x00000, 0x0000FFFF#32), (0x00F00, 0x00000001#32), (0x01000, 0x0100D011#32),
      (0x01100, 0x0100D012#32), (0x01205, 0xDEADBEEF#32)] ∧
      ctxWord t.curPid t.activeDir = 0#32 ∧ t.disk = [(0, 1#32)] := by decide +kernel
/-- I10: an illegal word changes no fault register. -/
theorem test_illegal_keeps_fva :
    let t := after (step ({ s0 with fva := 0x13000000#32 }.withFetchWord 32 0))
    t.status = 0x9#32 ∧ t.fva = 0x13000000#32 := by decide +kernel

/-! ### Witnesses: states and operands that meet each claim's hypotheses, clause by clause -/

/-- A machine with one input waiting. -/
def waiting (i : HostInput) : State := { s1 with inputs := [i] }

theorem witness_DecodeOfEncodeIsTheCommand :
    (Instr.dump 4095#12 4095#13).wellFormedWith halfDisk = true ∧
    (Instr.restore 8191#13 0#12).wellFormed = true := by decide

theorem witness_EncodeOfDecodeIsTheWord : ∃ i, decodeWith halfDisk 0xA0FFFFFF#32 = .ok i := ⟨_, rfl⟩

theorem witness_OpcodeRowsPartitionTheLegalWords :
    (∃ i, decode 0xB1FFFFFF#32 = .ok i) ∧ ∃ e, decode 0xB2000000#32 = .error e := ⟨⟨_, rfl⟩, _, rfl⟩

theorem witness_OperandsAreTheFieldsAsTheyStand :
    decode 0x4FFFFFFF#32 = .error .reservedBits ∧ decode 0x40FFFFFF#32 = .ok (.unmap 0xFFFFFF#24) ∧
    decode 0x500000FF#32 = .ok (.switch 0xFF#8) ∧ decode 0x80000FFF#32 = .ok (.ffree 0xFFF#12) ∧
    decode 0xA1FFFFFF#32 = .ok (.dump 0xFFF#12 0x1FFF#13) ∧ decode 0x70000000#32 = .ok .falloc :=
  ⟨rfl, rfl, rfl, rfl, rfl, rfl⟩

/-- A word for each way of being illegal. -/
theorem witness_IllegalWordsEndIllegalCommand :
    (∀ w ∈ [0x00000000#32, 0xCFFFFFFF#32, 0xEFFFFFFF#32, 0x11000000#32, 0x48000000#32, 0x50000100#32,
      0x80001000#32, 0xA2000000#32, 0xB8000000#32, 0x60000001#32, 0xF8000000#32], illegalWord w) ∧
    (waiting (.write 0x00 32 0xF8000000#32)).inputs = [.write 0x00 32 0xF8000000#32] := by
  refine ⟨?_, rfl⟩
  simp [illegalWord]

theorem witness_StepRunsTheDecodedCommand :
    (waiting (.write 0x00 32 0x70000000#32)).inputs = [.write 0x00 32 0x70000000#32] ∧
    decode 0x70000000#32 = .ok .falloc ∧ decode (BitVec.ofNat 32 0x70000000) = .ok .falloc := ⟨rfl, rfl, rfl⟩

theorem witness_HostPortFollowsTheRegisterMap :
    (0x3C ≤ 0x3F ∧ 0x3C % 4 = 0 ∧ (waiting (.read 0x3C 32)).inputs = [.read 0x3C 32]) ∧
    (0x00 ≤ 0x3F ∧ 0x00 % 4 = 0 ∧ (waiting (.read 0x00 32)).inputs = [.read 0x00 32]) ∧
    (0x1C ≤ 0x3F ∧ 0x1C % 4 = 0 ∧ (waiting (.read 0x1C 32)).inputs = [.read 0x1C 32]) ∧
    ((waiting (.write 0x04 32 7#32)).inputs = [.write 0x04 32 7#32]) ∧
    ((waiting (.write 0x3C 32 7#32)).inputs = [.write 0x3C 32 7#32]) := by decide

theorem witness_UnalignedOrOddWidthAccessIsRefused :
    (0x3F ≤ 0x3F ∧ 0x3F % 4 ≠ 0 ∧ (waiting (.read 0x3F 32)).inputs = [.read 0x3F 32]) ∧
    (0x00 ≤ 0x3F ∧ 16 ≠ 32 ∧ (waiting (.write 0x00 16 0#32)).inputs = [.write 0x00 16 0#32]) := by decide

theorem witness_StepWithoutACommand :
    State.reset.inputs = [] ∧ (waiting .hardwareReset).inputs = [.hardwareReset] := ⟨rfl, rfl⟩

theorem witness_WriteLineIsTwoHostAccesses :
    (0xFFFFFF < 2 ^ 24 ∧ 0xFFFFFFFF < 2 ^ 32) ∧ (2 ^ 24 ≤ 0x1000000 ∨ 2 ^ 32 ≤ 0) := by decide

theorem witness_HandlerAbortsReservedFramesOnly :
    ((0x0100D00F#32).extractLsb' 0 12).toNat < 16 ∧ 16 ≤ ((0x0100D010#32).extractLsb' 0 12).toNat := by decide

/-- Both levels let the access through, one with each kind of entry. -/
theorem witness_ReadReturnsTheTranslatedWord :
    16 ≤ s1.activeDir.toNat ∧ 16 ≤ (entryFrame (s1.dirEntry 0x0000FF#24)).toNat ∧
    16 ≤ (entryFrame (s1.tabEntry 0x0000FF#24)).toNat := by decide +kernel

theorem witness_WriteStoresWdataAtTheTranslatedWord :
    let s := { s1 with curPid := 2#8, wdata := 5#32 }
    16 ≤ s.activeDir.toNat ∧ 16 ≤ (entryFrame (s.dirEntry 0x000005#24)).toNat ∧
    16 ≤ (entryFrame (s.tabEntry 0x000005#24)).toNat ∧ s.permits (s.dirEntry 0x000005#24) = false := by
  decide +kernel

theorem witness_AbortedAccessLeavesOnlyTheFaultRecord :
    ({ s1 with activeDir := 15#12 } : State).activeDir.toNat < 16 ∧
    (16 ≤ s1.activeDir.toNat ∧ (entryFrame (s1.dirEntry 0x010000#24)).toNat < 16) ∧
    (16 ≤ s1.activeDir.toNat ∧ 16 ≤ (entryFrame (s1.dirEntry 0x000100#24)).toNat ∧
      (entryFrame (s1.tabEntry 0x000100#24)).toNat < 16) := by decide +kernel

theorem witness_AccessFrame :
    (∃ u, exec (.read 0x000005#24) s1 = .next u) ∧
    ((∃ u, exec (.write 0x000005#24) s1 = .next u) ∧
      (walk Config.params 0x000005#24 s1).result ≠ .ok 0x01206#20) :=
  ⟨⟨_, rfl⟩, ⟨_, rfl⟩, by decide +kernel⟩

theorem witness_SwitchLeavesAStaleDirectory :
    (2#8 : Pid) ≠ 0#8 ∧ 2#8 ≠ s1.curPid ∧ 16 ≤ s1.activeDir.toNat ∧
    s1.permits (s1.dirEntry 0x000005#24) = true ∧ s1.permits (s1.tabEntry 0x000005#24) = true := by
  decide +kernel

theorem witness_MapChecksAlignmentThenContext :
    (0x0000FF#24 : VAddr).extractLsb' 0 8 ≠ 0#8 ∧
    ((0xFFFF00#24 : VAddr).extractLsb' 0 8 = 0#8 ∧ State.reset.curPid = 0#8) := by decide

theorem s0_unregistered (pid : Pid) (h : s0.regFind Config.params pid = none) : s0.unregistered pid :=
  (regFind_eq_none s0 pid).1 h

theorem s0_lowestFree : s0.lowestFree 16#12 := (frameScan_eq_some s0 16#12).1 (by decide +kernel)

theorem s0_lowestFreeSlot : s0.lowestFreeSlot 0 := (regFreeSlot_eq_some s0 0).1 (by decide +kernel)

theorem s0_reservedUsed : s0.reservedUsed := fun f hf => s0_lowestFree.2 f hf

theorem s1_registeredAt : s1.registeredAt 1#8 0 := (regFind_eq_some s1 1#8 0).1 (by decide +kernel)

theorem s1_lowestFree : s1.lowestFree 19#12 := (frameScan_eq_some s1 19#12).1 (by decide +kernel)

/-- The frame after the lowest one. -/
theorem nextFree_succ (s : State) (f g : Frame) (h : g.toNat = f.toNat + 1) (hg : s.frameUsed g = false) :
    s.nextFree f g :=
  ⟨by rw [BitVec.lt_def]; omega, hg, fun x h1 h2 => by rw [BitVec.lt_def] at h1 h2; omega⟩

theorem witness_MapBuildsAllThreeLevels :
    wordOffset 0xFFFF00#24 = 0#8 ∧ s0.curPid ≠ 0#8 ∧ s0.unregistered s0.curPid ∧ s0.lowestFreeSlot 0 ∧
    s0.lowestFree 16#12 ∧ s0.nextFree 16#12 17#12 ∧ s0.nextFree 17#12 18#12 ∧ 16 ≤ (16#12 : Frame).toNat :=
  ⟨rfl, by decide, s0_unregistered _ (by decide +kernel), s0_lowestFreeSlot, s0_lowestFree,
    nextFree_succ _ _ _ rfl (by decide +kernel), nextFree_succ _ _ _ rfl (by decide +kernel), by decide⟩

theorem witness_MapReusesAMappedAddress :
    wordOffset 0x000000#24 = 0#8 ∧ s1.curPid ≠ 0#8 ∧ s1.registeredAt s1.curPid 0 ∧
    16#12 = entryFrame (s1.slot 0) ∧ 17#12 = entryFrame (s1.mem (frameWord 16#12 (dirIndex 0x000000#24))) ∧
    (17#12 : Frame) ≠ 0#12 ∧ 18#12 = entryFrame (s1.mem (frameWord 17#12 (tabIndex 0x000000#24))) ∧
    (18#12 : Frame) ≠ 0#12 :=
  ⟨rfl, by decide, s1_registeredAt, by decide +kernel, by decide +kernel, by decide, by decide +kernel,
    by decide⟩

theorem witness_MapAddsAPageToATable :
    wordOffset 0x00FF00#24 = 0#8 ∧ s1.curPid ≠ 0#8 ∧ s1.registeredAt s1.curPid 0 ∧
    16#12 = entryFrame (s1.slot 0) ∧ 17#12 = entryFrame (s1.mem (frameWord 16#12 (dirIndex 0x00FF00#24))) ∧
    entryFrame (s1.mem (frameWord 17#12 (tabIndex 0x00FF00#24))) = 0#12 ∧ s1.lowestFree 19#12 :=
  ⟨rfl, by decide, s1_registeredAt, by decide +kernel, by decide +kernel, by decide +kernel, s1_lowestFree⟩

theorem witness_MapAddsATableToADirectory :
    wordOffset 0xFF0000#24 = 0#8 ∧ s1.curPid ≠ 0#8 ∧ s1.registeredAt s1.curPid 0 ∧
    16#12 = entryFrame (s1.slot 0) ∧ s1.frameUsed 16#12 = true ∧
    entryFrame (s1.mem (frameWord 16#12 (dirIndex 0xFF0000#24))) = 0#12 ∧ s1.lowestFree 19#12 ∧
    s1.nextFree 19#12 20#12 :=
  ⟨rfl, by decide, s1_registeredAt, by decide +kernel, by decide +kernel, by decide +kernel, s1_lowestFree,
    nextFree_succ _ _ _ rfl (by decide +kernel)⟩

/-- A free-frame bitmap with every bit set but those the last word leaves clear. -/
def fullBitmap (last : Word) : Memory := (List.range 127).map (fun i => (i, 0xFFFFFFFF#32)) ++ [(127, last)]

/-- M8: every frame used, no Directory. -/
def full : State := machine 1#8 0#12 (fullBitmap 0xFFFFFFFF#32)

/-- M9, with a Directory entry of another owner and other flags: every frame used, process 1 mapped as in S1. -/
def fullMapped : State :=
  machine 1#8 16#12 (fullBitmap 0xFFFFFFFF#32 ++
    [(0x00100, 0x01000010#32), (0x01000, 0x02AB5011#32), (0x01100, 0x0100D012#32)])

theorem fullMapped_registeredAt : fullMapped.registeredAt 1#8 0 :=
  (regFind_eq_some fullMapped 1#8 0).1 (by decide +kernel)

theorem witness_MapWithEveryFrameUsed :
    (full.allFramesUsed ∧ full.curPid ≠ 0#8 ∧ full.unregistered full.curPid) ∧
    (fullMapped.allFramesUsed ∧ fullMapped.registeredAt fullMapped.curPid 0 ∧
      16#12 = entryFrame (fullMapped.slot 0) ∧
      entryFrame (fullMapped.mem (frameWord 16#12 (dirIndex 0x010000#24))) = 0#12) ∧
    (17#12 = entryFrame (fullMapped.mem (frameWord 16#12 (dirIndex 0x000100#24))) ∧
      entryFrame (fullMapped.mem (frameWord 17#12 (tabIndex 0x000100#24))) = 0#12) :=
  ⟨⟨(frameScan_eq_none _).1 (by decide +kernel), by decide, (regFind_eq_none _ _).1 (by decide +kernel)⟩,
    ⟨(frameScan_eq_none _).1 (by decide +kernel), fullMapped_registeredAt, by decide +kernel,
      by decide +kernel⟩, by decide +kernel, by decide +kernel⟩

/-- Every frame used but 4095. -/
def oneFree : State := machine 1#8 0#12 (fullBitmap 0x7FFFFFFF#32)

/-- M11: every frame used but 4094 and 4095. -/
def twoFree : State := machine 1#8 0#12 (fullBitmap 0x3FFFFFFF#32)

/-- Every frame but f is used if every frame is once f is marked. -/
theorem used_of_frameSet (s : State) (f : Frame) (h : (s.frameSet f).frameScan Config.params = none) :
    ∀ g, g ≠ f → s.frameUsed g = true := by
  intro g hg
  have := (frameScan_eq_none _).1 h g
  simpa [hg] using this

/-- Process 1 mapped as in S1, every frame used but 4095. -/
def oneFreeMapped : State :=
  machine 1#8 16#12 (fullBitmap 0x7FFFFFFF#32 ++
    [(0x00100, 0x01000010#32), (0x01000, 0x0100D011#32), (0x01100, 0x0100D012#32)])

theorem witness_PartialMapIsNotRolledBack :
    (oneFree.curPid ≠ 0#8 ∧ oneFree.unregistered oneFree.curPid ∧ oneFree.lowestFreeSlot 0 ∧
      oneFree.frameUsed 4095#12 = false ∧ ∀ g, g ≠ 4095#12 → oneFree.frameUsed g = true) ∧
    (twoFree.curPid ≠ 0#8 ∧ twoFree.unregistered twoFree.curPid ∧ twoFree.lowestFreeSlot 0 ∧
      twoFree.frameUsed 4094#12 = false ∧ 4094#12 < 4095#12 ∧ twoFree.frameUsed 4095#12 = false ∧
      ∀ g, g ≠ 4094#12 → g ≠ 4095#12 → twoFree.frameUsed g = true) ∧
    (oneFreeMapped.curPid ≠ 0#8 ∧ oneFreeMapped.registeredAt oneFreeMapped.curPid 0 ∧
      16#12 = entryFrame (oneFreeMapped.slot 0) ∧
      entryFrame (oneFreeMapped.mem (frameWord 16#12 (dirIndex 0xFF0000#24))) = 0#12 ∧
      oneFreeMapped.frameUsed 4095#12 = false ∧ ∀ g, g ≠ 4095#12 → oneFreeMapped.frameUsed g = true) := by
  refine ⟨⟨by decide, (regFind_eq_none _ _).1 (by decide +kernel),
      (regFreeSlot_eq_some _ _).1 (by decide +kernel), by decide +kernel,
      used_of_frameSet _ _ (by decide +kernel)⟩,
    ⟨by decide, (regFind_eq_none _ _).1 (by decide +kernel), (regFreeSlot_eq_some _ _).1 (by decide +kernel),
      by decide +kernel, by decide, by decide +kernel, fun g h1 h2 => ?_⟩,
    by decide, (regFind_eq_some oneFreeMapped 1#8 0).1 (by decide +kernel), by decide +kernel,
    by decide +kernel, by decide +kernel, used_of_frameSet _ _ (by decide +kernel)⟩
  have := used_of_frameSet (twoFree.frameSet 4094#12) 4095#12 (by decide +kernel) g h2
  simpa [h1] using this

/-- The registry's words, all equal. -/
def registryOf (v : Word) : Memory := (List.range 3584).map fun k => (256 + k, v)

/-- M13: a registry full of entries of process 0xFF. -/
def fullRegistry : State :=
  machine 1#8 0#12 (registryOf 0xFFFFFFFF#32)

theorem read_constant (m : Memory) (v : Word) (a : Nat) (hv : ∀ cell ∈ m, cell.2 = v)
    (ha : ∃ cell ∈ m, cell.1 = a) : m.read a = v := by
  induction m with
  | nil => simp at ha
  | cons cell m ih =>
    obtain ⟨k, w⟩ := cell
    rw [Memory.read_cons]
    by_cases h : k = a
    · rw [if_pos h]
      exact hv (k, w) (by simp)
    · rw [if_neg h]
      refine ih (fun c hc => hv c (by simp [hc])) ?_
      obtain ⟨c, hc, rfl⟩ := ha
      rcases List.mem_cons.1 hc with rfl | hc
      · exact absurd rfl h
      · exact ⟨c, hc, rfl⟩

theorem fullRegistry_slot (k : Nat) (hk : k < 3584) : fullRegistry.slot k = 0xFFFFFFFF#32 := by
  have hf : fullRegistry.frames = registryOf 0xFFFFFFFF#32 := by rw [fullRegistry, machine]
  rw [slot_eq_read _ _ hk, hf]
  refine read_constant _ _ _ ?_ ⟨(256 + k, 0xFFFFFFFF#32), ?_, ?_⟩
  · intro cell hc
    unfold registryOf at hc
    obtain ⟨j, _, hj⟩ := List.mem_map.1 hc
    rw [← hj]
  · unfold registryOf
    exact List.mem_map.2 ⟨k, List.mem_range.2 hk, by simp⟩
  · simp

theorem witness_MapWithAFullRegistry :
    fullRegistry.curPid ≠ 0#8 ∧ fullRegistry.unregistered fullRegistry.curPid ∧
    fullRegistry.frameUsed 16#12 = false ∧ ∀ k, k < 3584 → fullRegistry.slot k ≠ 0#32 := by
  refine ⟨by decide, fun k hk h => ?_, by decide +kernel, fun k hk => ?_⟩
  · have := h.2
    rw [fullRegistry_slot k hk] at this
    revert this
    decide
  · rw [fullRegistry_slot k hk]
    decide

theorem witness_MapFrame :
    (∃ u, exec (.map 0x000000#24) s0 = .next u) ∧ s0.mapStores 0x000000#24 0x01200#20 = false ∧
    s0.mapStores 0x000000#24 0x010FF#20 = true ∧ s0.mapStores 0x000000#24 0x00100#20 = true :=
  ⟨⟨_, rfl⟩, by decide +kernel, by decide +kernel, by decide +kernel⟩

theorem witness_UnmapChecksAlignmentContextMapping :
    (0x0000FF#24 : VAddr).extractLsb' 0 8 ≠ 0#8 ∧
    ((0x000100#24 : VAddr).extractLsb' 0 8 = 0#8 ∧
      ({ s1 with activeDir := 15#12 } : State).activeDir.toNat < 16) ∧
    (16 ≤ s1.activeDir.toNat ∧ (entryFrame (s1.dirEntry 0x010000#24)).toNat < 16) := by decide +kernel

theorem witness_UnmapKeepsATableInUse :
    wordOffset 0x000100#24 = 0#8 ∧ 16 ≤ s1.activeDir.toNat ∧
    16 ≤ (entryFrame (s1.dirEntry 0x000100#24)).toNat ∧ 0#8 ≠ tabIndex 0x000100#24 ∧
    s1.mem (frameWord (entryFrame (s1.dirEntry 0x000100#24)) 0#8) ≠ 0#32 := by decide +kernel

/-- Process 1 with two Tables, 17 and 19, of one page each. -/
def twoTables : State :=
  machine 1#8 16#12 [(0x00000, 0x001FFFFF#32), (0x00100, 0x01000010#32), (0x01000, 0x0100D011#32),
    (0x010FF, 0x0100D013#32), (0x01100, 0x0100D012#32), (0x01300, 0x0100D014#32)]

theorem witness_UnmapFreesAnEmptyTable :
    let t : Frame := 17#12
    16 ≤ twoTables.activeDir.toNat ∧ t = entryFrame (twoTables.dirEntry 0x000000#24) ∧
    16 ≤ t.toNat ∧ t ≠ twoTables.activeDir ∧ 18#12 = entryFrame (twoTables.tabEntry 0x000000#24) ∧
    (∀ j, j ≠ tabIndex 0x000000#24 → twoTables.mem (frameWord t j) = 0#32) ∧
    255#8 ≠ dirIndex 0x000000#24 ∧ twoTables.mem (frameWord twoTables.activeDir 255#8) ≠ 0#32 := by
  decide +kernel

theorem witness_UnmapFreesAnEmptyDirectory :
    let t : Frame := 17#12
    16 ≤ s1.activeDir.toNat ∧ t = entryFrame (s1.dirEntry 0x000000#24) ∧ 16 ≤ t.toNat ∧
    t ≠ s1.activeDir ∧ 18#12 = entryFrame (s1.tabEntry 0x000000#24) ∧
    (∀ j, j ≠ tabIndex 0x000000#24 → s1.mem (frameWord t j) = 0#32) ∧
    ∀ i, i ≠ dirIndex 0x000000#24 → s1.mem (frameWord s1.activeDir i) = 0#32 := by decide +kernel

theorem witness_UnmapOfAZeroEntryFreesFrameZero :
    wordOffset 0x000100#24 = 0#8 ∧ 16 ≤ s1.activeDir.toNat ∧
    16 ≤ (entryFrame (s1.dirEntry 0x000100#24)).toNat ∧ s1.tabEntry 0x000100#24 = 0#32 := by decide +kernel

theorem witness_UnmapFrame :
    (∃ u, exec (.unmap 0x000000#24) s1 = .next u) ∧ s1.unmapStores 0x000000#24 0x01205#20 = false ∧
    s1.unmapStores 0x000000#24 0x00100#20 = true :=
  ⟨⟨_, rfl⟩, by decide +kernel, by decide +kernel⟩

theorem witness_MapWriteReadGivesTheWordBack :
    s0.unregistered s0.curPid ∧ s0.reservedUsed ∧
    (∃ u, exec (.map 0x000000#24) s0 = .next u ∧ u.status = 0#32) ∧
    (0x0000FF#24 : VAddr).extractLsb' 8 16 = (0x000000#24 : VAddr).extractLsb' 8 16 :=
  ⟨s0_unregistered _ (by decide +kernel), s0_reservedUsed, ⟨_, rfl, by decide +kernel⟩, by decide⟩

/-- A word that is not 0 is listed. -/
theorem listed (m : Memory) (a : Nat) (h : m.read a ≠ 0#32) : a ∈ m.map Prod.fst := by
  by_contra hn
  exact h (Memory.read_eq_zero m a fun c hc e => hn (List.mem_map.2 ⟨c, hc, e⟩))

theorem s1_slot (k : Nat) (hk : k < 3584) (h : s1.slot k ≠ 0#32) : k = 0 := by
  rw [slot_eq_read _ _ hk] at h
  have := listed _ _ h
  simp [s1, machine, mapped] at this
  omega

/-- S1 after SWITCH 2: a process with no Directory beside one that has one. -/
def other : State := { s1 with curPid := 2#8 }

theorem witness_MapThenUnmapRestoresTheAllocator :
    other.unregistered other.curPid ∧ other.reservedUsed ∧
    (∀ k, k < 3584 → other.slot k ≠ 0#32 → other.frameUsed (entryFrame (other.slot k)) = true) ∧
    ∃ u, exec (.map 0x000000#24) other = .next u ∧ u.status = 0#32 := by
  have lf : other.lowestFree 19#12 := (frameScan_eq_some _ _).1 (by decide +kernel)
  refine ⟨(regFind_eq_none _ _).1 (by decide +kernel), fun f hf => lf.2 f ?_, fun k hk h => ?_,
    _, rfl, by decide +kernel⟩
  rotate_left
  · rw [s1_slot k hk h]
    decide +kernel
  rw [lt_firstFree] at hf
  rw [BitVec.lt_def]
  exact Nat.lt_trans hf (by decide)

theorem witness_TwoProcessesGetDistinctFrames :
    (2#8 : Pid) ≠ s0.curPid ∧ s0.unregistered s0.curPid ∧ s0.unregistered 2#8 ∧ s0.reservedUsed ∧
    ∃ u v w, exec (.map 0x000000#24) s0 = .next u ∧ u.status = 0#32 ∧ exec (.switch 2#8) u = .next v ∧
      v.status = 0#32 ∧ exec (.map 0x000000#24) v = .next w ∧ w.status = 0#32 :=
  ⟨by decide, s0_unregistered _ (by decide +kernel), s0_unregistered _ (by decide +kernel), s0_reservedUsed,
    _, _, _, rfl, by decide +kernel, rfl, by decide +kernel, rfl, by decide +kernel⟩

/-! The structures of S1: one Directory, one Table, one data frame. -/

theorem s1_isDir (f : Frame) : s1.isDir f ↔ f = 16#12 := by
  constructor
  · rintro ⟨k, hk, h0, rfl⟩
    rw [s1_slot k hk h0]
    decide +kernel
  · rintro rfl
    exact ⟨0, by decide, by decide +kernel, by decide +kernel⟩

theorem s1_linksTable (g : Frame) (i : Offset) (f : Frame) :
    s1.linksTable g i f ↔ g = 16#12 ∧ i = 0#8 ∧ f = 17#12 := by
  have h : ∀ i : Offset, entryFrame (s1.mem (frameWord 16#12 i)) = if i = 0#8 then 17#12 else 0#12 := by
    decide +kernel
  unfold State.linksTable
  rw [s1_isDir]
  constructor
  · rintro ⟨rfl, hf, h0⟩
    rw [h] at hf
    by_cases hi : i = 0#8
    · rw [if_pos hi] at hf
      exact ⟨rfl, hi, hf.symm⟩
    · rw [if_neg hi] at hf
      exact absurd hf.symm h0
  · rintro ⟨rfl, rfl, rfl⟩
    exact ⟨rfl, by rw [h]; rfl, by decide⟩

theorem s1_isTable (f : Frame) : s1.isTable f ↔ f = 17#12 := by
  unfold State.isTable
  simp only [s1_linksTable]
  constructor
  · rintro ⟨g, i, -, -, h⟩
    exact h
  · exact fun h => ⟨_, _, rfl, rfl, h⟩

theorem s1_linksData (t : Frame) (j : Offset) (f : Frame) :
    s1.linksData t j f ↔ t = 17#12 ∧ j = 0#8 ∧ f = 18#12 := by
  have h : ∀ i : Offset, entryFrame (s1.mem (frameWord 17#12 i)) = if i = 0#8 then 18#12 else 0#12 := by
    decide +kernel
  unfold State.linksData
  rw [s1_isTable]
  constructor
  · rintro ⟨rfl, hf, h0⟩
    rw [h] at hf
    by_cases hi : j = 0#8
    · rw [if_pos hi] at hf
      exact ⟨rfl, hi, hf.symm⟩
    · rw [if_neg hi] at hf
      exact absurd hf.symm h0
  · rintro ⟨rfl, rfl, rfl⟩
    exact ⟨rfl, by rw [h]; rfl, by decide⟩

theorem s1_isData (f : Frame) : s1.isData f ↔ f = 18#12 := by
  unfold State.isData
  simp only [s1_linksData]
  constructor
  · rintro ⟨t, j, -, -, h⟩
    exact h
  · exact fun h => ⟨_, _, rfl, rfl, h⟩

theorem s1_forest : s1.forest where
  dir_free := by
    intro f h
    rw [(s1_isDir f).1 h]
    decide
  table_free := by
    intro f h
    rw [(s1_isTable f).1 h]
    decide
  data_free := by
    intro f h
    rw [(s1_isData f).1 h]
    decide
  dir_not_table := by
    intro f h
    rw [(s1_isDir f).1 h, s1_isTable]
    decide
  dir_not_data := by
    intro f h
    rw [(s1_isDir f).1 h, s1_isData]
    decide
  table_not_data := by
    intro f h
    rw [(s1_isTable f).1 h, s1_isData]
    decide
  dir_once := by
    intro j k hj hk h1 h2 _
    rw [s1_slot j hj h1, s1_slot k hk h2]
  table_once := by
    intro f g g' i i' h1 h2
    rw [s1_linksTable] at h1 h2
    exact ⟨h1.1.trans h2.1.symm, h1.2.1.trans h2.2.1.symm⟩
  data_once := by
    intro f t t' j j' h1 h2
    rw [s1_linksData] at h1 h2
    exact ⟨h1.1.trans h2.1.symm, h1.2.1.trans h2.2.1.symm⟩

theorem s1_framesConserved : s1.framesConserved := by
  have h : (List.range 4096).all
      (fun i => s1.frameUsed (BitVec.ofNat 12 i) == decide (i < 19)) = true := by decide +kernel
  intro f
  have hf := List.all_eq_true.1 h f.toNat (List.mem_range.2 f.isLt)
  rw [BitVec.ofNat_toNat, BitVec.setWidth_eq, beq_iff_eq] at hf
  rw [s1_isDir, s1_isTable, s1_isData, hf, lt_firstFree]
  simp only [decide_eq_true_eq, ← BitVec.toNat_inj, BitVec.toNat_ofNat]
  omega

/-- S1 is a forest that conserves frames; MAP of another page, of another Directory slot, and a MAP that is turned away. -/
theorem witness_MapKeepsFramesConserved :
    s1.forest ∧ s1.framesConserved ∧ (∃ u, exec (.map 0x000100#24) s1 = .next u ∧ u.status = 0#32) ∧
    (∃ u, exec (.map 0xFFFF00#24) s1 = .next u ∧ u.status = 0#32) ∧
    ∃ u, exec (.map 0x000001#24) s1 = .next u ∧ u.status = 0x1#32 :=
  ⟨s1_forest, s1_framesConserved, ⟨_, rfl, by decide +kernel⟩, ⟨_, rfl, by decide +kernel⟩,
    _, rfl, by decide +kernel⟩

theorem witness_UnmapKeepsFramesConserved :
    s1.forest ∧ s1.framesConserved ∧ s1.isDir s1.activeDir ∧
    entryFrame (s1.tabEntry 0x000000#24) ≠ 0#12 ∧ ∃ u, exec (.unmap 0x000000#24) s1 = .next u :=
  ⟨s1_forest, s1_framesConserved, (s1_isDir _).2 rfl, by decide +kernel, _, rfl⟩

theorem witness_SwitchSelectsTheProcess : (0xFF#8 : Pid) ≠ 0#8 ∧ (0#8 : Pid) = 0#8 := by decide

theorem witness_FindLooksUpTheLowestEntry :
    State.reset.curPid = 0#8 ∧ (s0.curPid ≠ 0#8 ∧ s0.unregistered s0.curPid) ∧
    (s1.curPid ≠ 0#8 ∧ s1.registeredAt s1.curPid 0) :=
  ⟨rfl, ⟨by decide, s0_unregistered _ (by decide +kernel)⟩, by decide, s1_registeredAt⟩

/-- Each register has a step that changes it. -/
theorem witness_RegistersHaveTheirWriters :
    (∃ u, exec (.switch 2#8) s1 = .next u ∧ u.curPid ≠ s1.curPid) ∧
    (∃ u, exec (.unmap 0x000000#24) s1 = .next u ∧ u.activeDir ≠ s1.activeDir) ∧
    ∃ u, exec (.read 0x000100#24) s1 = .next u ∧ u.fva ≠ s1.fva :=
  ⟨⟨_, rfl, by decide +kernel⟩, ⟨_, rfl, by decide +kernel⟩, _, rfl, by decide +kernel⟩

theorem witness_FallocTakesTheLowestFreeFrame : oneFree.lowestFree 4095#12 ∧ full.allFramesUsed :=
  ⟨(frameScan_eq_some _ _).1 (by decide +kernel), (frameScan_eq_none _).1 (by decide +kernel)⟩

theorem witness_FallocThenFfreeRestoresTheFrameStore :
    s0.storesWf ∧ ∃ u, exec .falloc s0 = .next u ∧ u.status = 0#32 := by
  refine ⟨?_, _, rfl, by decide +kernel⟩
  unfold State.storesWf
  decide +kernel

/-- ALLOC_ORDER = any, with the last clear bit taken. -/
def lastFree : Params := { allocOrder := .any fun clear => clear.length - 1 }

theorem witness_AnyAllocationOrderNamesAClearBit :
    s0.frameScan Config.params = some 16#12 ∧ s0.sectorScan Config.params = some 1 ∧
    Memory.scan lastFree [(0, 0x000000FF#32)] 0 1 16 = some 15 ∧ lastFree.numSectors ≤ 8192 := by decide +kernel

/-- W2: every sector used but the last. -/
def lastSector : State :=
  machine 1#8 0#12 ((List.range 255).map (fun i => (0xF00 + i, 0xFFFFFFFF#32)) ++ [(0xFFF, 0x7FFFFFFF#32)])

theorem witness_SfindTakesTheLowestFreeSector :
    (lastSector.mirrorBit 8191#13 = false ∧ ∀ j : Sector, j < 8191#13 → lastSector.mirrorBit j = true) ∧
    ∀ j : Sector, (lastSector.sectorSet Config.params 8191).mirrorBit j = true := by
  have h : ∀ j : Sector, (lastSector.sectorSet Config.params 8191).mirrorBit j = true := fun j =>
    (sectorScan_eq_none _).1
      (show (lastSector.sectorSet Config.params 8191).sectorScan Config.params = none by decide +kernel)
      j.toNat j.isLt
  refine ⟨⟨by decide +kernel, fun j hj => ?_⟩, h⟩
  have := h j
  rw [BitVec.lt_def] at hj
  simpa [State.mirrorBit, show j.toNat ≠ 8191 from Nat.ne_of_lt hj] using this

theorem witness_DumpThenRestoreCopiesTheFrame :
    (∃ u v, exec (.dump 18#12 1#13) s1 = .next u ∧ exec (.restore 1#13 15#12) u = .next v) ∧
    frameWord 15#12 255#8 ≠ mirrorWord (1#13 : Sector).toNat ∧ (19#12 : Frame) ≠ 15#12 :=
  ⟨⟨_, _, rfl, rfl⟩, by decide +kernel, by decide⟩

theorem witness_SwapBitmapIsPersistedByRestoreAndInit :
    (∃ u, exec (.restore 0#13 20#12) s1 = .next u) ∧ (∃ u, exec .init s1 = .next u) ∧
    ∃ u, exec .sfind s1 = .next u ∧ u.status = 0#32 :=
  ⟨⟨_, rfl⟩, ⟨_, rfl⟩, _, rfl, by decide +kernel⟩

theorem witness_BootThenFirstMap : (0xFF#8 : Pid) ≠ 0#8 ∧ wordOffset 0xFFFF00#24 = 0#8 := by decide

theorem witness_ResetMeetsTheInvariant :
    (mapped 1#32 2#32 3#32).wf Config.frameStoreWords = true ∧
    Memory.wf (Config.params.numSectors * Config.frameWords) [(2097151, 1#32)] = true := by decide +kernel

/-- A state that meets the invariant and has a command waiting. -/
theorem witness_StepKeepsTheInvariant :
    (State.reset.withFetchWord 32 0xF0000000).Inv ∧
    ∃ u, step (State.reset.withFetchWord 32 0xF0000000) = .next u := by
  refine ⟨⟨?_, ⟨.ok, false, false, by decide, by simp, by simp, by simp⟩, .inl ⟨rfl, rfl⟩⟩, _, rfl⟩
  unfold State.storesWf
  decide +kernel

theorem witness_TraceIsNeverRead : ∃ u, exec (.map 0x000000#24) s0 = .next u ∧ u.trace ≠ [] :=
  ⟨_, rfl, by decide +kernel⟩

theorem witness_OnlyThreeCommandsReachTheDisk : ∃ u, exec .sfind s0 = .next u := ⟨_, rfl⟩

/-- S1 has one entry for each process it registers; MAP by a second process and UNMAP by the first. -/
theorem witness_RegistryKeepsOneEntryPerProcess :
    (∀ pid j k, j < 3584 → k < 3584 → other.carries pid j → other.carries pid k → j = k) ∧
    (∃ u, exec (.unmap 0x000000#24) other = .next u) ∧
    ((∃ u, exec (.map 0x000000#24) other = .next u ∧ u.status = 0#32) ∧ other.reservedUsed ∧
      ∀ k, k < 3584 → other.slot k ≠ 0#32 → 16 ≤ (entryFrame (other.slot k)).toNat ∧
        ∀ i, entryFrame (other.mem (frameWord (entryFrame (other.slot k)) i)) = 0#12 ∨
          16 ≤ (entryFrame (other.mem (frameWord (entryFrame (other.slot k)) i))).toNat) := by
  have h : ∀ k, k < 3584 → other.slot k ≠ 0#32 → k = 0 := s1_slot
  refine ⟨?_, ⟨_, rfl⟩, witness_MapThenUnmapRestoresTheAllocator.2.2.2,
    witness_MapThenUnmapRestoresTheAllocator.2.1, ?_⟩
  · intro pid j k hj hk h1 h2
    rw [h j hj h1.1, h k hk h2.1]
  · intro k hk h0
    rw [h k hk h0]
    decide +kernel

end Sys2Proof.Tests
end

/-! The state family (spec/10_state.md): what the host port refuses, the state after hardware reset, and the state
INIT leaves. -/

namespace Sys2Proof.Machine

/-! ### One host access -/

/-- A step with an input waiting takes the oldest one, which is then no longer waiting. -/
theorem step_of_inputs_cons {s : State} {input : HostInput} {rest : List HostInput}
    (h : s.inputs = input :: rest) : step s = takeInput input { s with inputs := rest } := by
  simp only [step, hostStep, h]

/-- The accesses R29 refuses: those inside the window that are not an aligned 32-bit word. -/
theorem accessRefusal_eq_notAlignedWord_iff (offset bits : Nat) :
    accessRefusal offset bits = some .hostAccessNotAlignedWord ↔
      offset ≤ 0x3F ∧ (bits ≠ 32 ∨ offset % 4 ≠ 0) := by
  unfold accessRefusal
  by_cases hw : 0x3F < offset
  · simp [hw, Nat.not_le.2 hw]
  · rw [if_neg hw]
    by_cases ha : bits ≠ 32 ∨ offset % 4 ≠ 0
    · simp [ha, Nat.not_lt.1 hw]
    · simp [ha]

theorem takeInput_read_refused {offset bits : Nat} {r : Refusal} (s : State)
    (h : accessRefusal offset bits = some r) : takeInput (.read offset bits) s = .refused r := by
  simp only [takeInput, h]

theorem takeInput_write_refused {offset bits : Nat} {r : Refusal} (s : State) (v : Word)
    (h : accessRefusal offset bits = some r) : takeInput (.write offset bits v) s = .refused r := by
  simp only [takeInput, h]

/-- Settles O9: the step takes the access, and a read and a write ask the same `accessRefusal`. -/
theorem unalignedOrOddWidthAccessIsRefused : Obligations.UnalignedOrOddWidthAccessIsRefused := by
  intro s rest offset bits v hwindow hodd hinput
  have hrefuse := (accessRefusal_eq_notAlignedWord_iff offset bits).2 ⟨hwindow, hodd⟩
  rcases hinput with hread | hwrite
  · rw [step_of_inputs_cons hread, takeInput_read_refused _ hrefuse]
  · rw [step_of_inputs_cons hwrite, takeInput_write_refused _ v hrefuse]

/-! ### Hardware reset and INIT -/

/-- Settles O11: each register and the trace is the value `resetWith` gives it, and the stores are MEM_INIT and
DISK_INIT themselves. -/
theorem hardwareResetState : Obligations.HardwareResetState :=
  fun _ _ => ⟨rfl, rfl, rfl, rfl, rfl, rfl, rfl, rfl, fun _ => rfl, fun _ _ => rfl⟩

/-- INIT's frame: besides the two stores it writes the registers named here, and nothing else (R35). -/
theorem initCmd_frame (s : State) :
    initCmd Config.params s = { s with
      frames := (initCmd Config.params s).frames, disk := (initCmd Config.params s).disk
      activeDir := 0#12, curPid := 0#8, fva := 0#32, fent := 0#32, rdata := 0#32, status := 0#32 } := by
  rw [initCmd_eq]

/-- Settles O53, from what INIT leaves in the registers, in the FrameStore and in the DiskStore. -/
theorem initLeavesTheBootState : Obligations.InitLeavesTheBootState :=
  fun s => ⟨initCmd Config.params s, rfl, initCmd_frame s, mem_initCmd s, diskRead_initCmd s⟩

end Sys2Proof.Machine

/-! The memory family (spec/20_memory.md): the permission check of an entry. -/

namespace Sys2Proof.Machine

/-! ### The permission check -/

/-- What an entry that passes the check looks like, at either place of the owner tag (R9, R56). -/
theorem entryOk_eq_true_iff (c : Params) (pid : Pid) (e : Word) :
    entryOk c pid e = true ↔
      e.getLsbD 12 = true ∧ e.getLsbD 14 = true ∧ e.getLsbD 15 = true ∧
        16 ≤ (entryFrame e).toNat ∧ entryOwner c e = pid := by
  have hframe : Config.firstFreeFrame ≤ entryFrame e ↔ 16 ≤ (entryFrame e).toNat :=
    BitVec.not_lt.symm.trans (firstFree_le _)
  simp only [entryOk, pteUnpack, Bool.and_eq_true, decide_eq_true_eq, beq_iff_eq, hframe, and_assoc]

/-- Settles O13: this hardware's owner tag is at [31:24]. -/
theorem entryCheckIsTheFiveConditions : Obligations.EntryCheckIsTheFiveConditions :=
  fun pid e => entryOk_eq_true_iff Config.params pid e

end Sys2Proof.Machine

/-! The encoding family (spec/30_encoding.md): the rows of opcode_table.json, the operands as numbers, and what an
illegal word written to CMD does. -/

namespace Sys2Proof.Machine

/-! ### The opcode table's rows and the decoder -/

/-- A word that decodes is its own command's row's, and no other row's: that row's opcode and zero bits are what
decoding found, and no two rows have the same opcode. -/
theorem rows_of_decode_ok {w : Word} {i : Instr} (h : decode w = .ok i) :
    (opcodeTable.filter fun r => r.accepts w).map OpRow.mnemonic = [i.mnemonic] := by
  rw [filter_opcodeTable]
  rcases (decodeWith_eq_ok _ w i).1 h with
    ⟨hop, hrsv, rfl⟩ | ⟨hop, hrsv, rfl⟩ | ⟨hop, hrsv, rfl⟩ | ⟨hop, hrsv, rfl⟩ | ⟨hop, hrsv, rfl⟩ |
    ⟨hop, hrsv, rfl⟩ | ⟨hop, hrsv, rfl⟩ | ⟨hop, hrsv, rfl⟩ | ⟨hop, hrsv, rfl⟩ | ⟨hop, hrsv, -, rfl⟩ |
    ⟨hop, hrsv, -, rfl⟩ | ⟨hop, hrsv, rfl⟩ <;>
    simp [opcodeTable, Instr.mnemonic, hop, hrsv]

/-- Every 13-bit sector number names a sector of this hardware (R76). -/
theorem sector_lt_numSectors (sector : Sector) : sector.toNat < Config.params.numSectors := sector.isLt

/-- A word that a row of opcode_table.json accepts is legal: the rows say nothing of the sector, which always exists. -/
theorem decode_ok_of_accepts {r : OpRow} {w : Word} (hr : r ∈ opcodeTable) (h : r.accepts w = true) :
    ∃ i, decode w = .ok i := by
  have hrow : r ∈ opcodeTable.filter fun r => r.accepts w := List.mem_filter.2 ⟨hr, h⟩
  rw [filter_opcodeTable] at hrow
  have hfields := (List.mem_filter.1 hrow).2
  simp only [decode, decodeWith_eq_ok, sector_lt_numSectors, true_and]
  simp only [opcodeTable, List.mem_cons, List.not_mem_nil, or_false] at hr
  rcases hr with rfl | rfl | rfl | rfl | rfl | rfl | rfl | rfl | rfl | rfl | rfl | rfl <;>
    simp [of_decide_eq_true hfields]

/-- A decoding fails exactly when it gives no command. -/
theorem exists_decode_error_iff (w : Word) : (∃ e, decode w = .error e) ↔ ¬ ∃ i, decode w = .ok i := by
  cases decode w <;> simp

/-- Settles O3: a row that accepted a word would make it legal, and a word no command decodes from is illegal. -/
theorem opcodeRowsPartitionTheLegalWords : Obligations.OpcodeRowsPartitionTheLegalWords := by
  intro w
  refine ⟨fun i => rows_of_decode_ok, fun e he r hr => ?_, ?_⟩
  · exact Bool.eq_false_iff.2 fun haccepts =>
      (exists_decode_error_iff w).1 ⟨e, he⟩ (decode_ok_of_accepts hr haccepts)
  · rw [illegalWord_iff]
    exact Classical.em _

/-! ### The operands as numbers -/

/-- A field that begins at bit 0 is the word's remainder. -/
theorem toNat_lowField {m : Nat} (w : BitVec m) (n : Nat) : (w.extractLsb' 0 n).toNat = w.toNat % 2 ^ n := by
  rw [toNat_field, Nat.pow_zero, Nat.div_one]

/-- Settles O4: every format takes its operands from the word's fields, so each is a quotient or a remainder. -/
theorem operandsAreTheFieldsAsTheyStand : Obligations.OperandsAreTheFieldsAsTheyStand := by
  intro w i h
  rcases (decodeWith_eq_ok _ w i).1 h with
    ⟨-, -, rfl⟩ | ⟨-, -, rfl⟩ | ⟨-, -, rfl⟩ | ⟨-, -, rfl⟩ | ⟨-, -, rfl⟩ | ⟨-, -, rfl⟩ | ⟨-, -, rfl⟩ |
    ⟨-, -, rfl⟩ | ⟨-, -, rfl⟩ | ⟨-, -, -, rfl⟩ | ⟨-, -, -, rfl⟩ | ⟨-, -, rfl⟩
  · exact toNat_lowField w 24
  · exact toNat_lowField w 24
  · exact toNat_lowField w 24
  · exact toNat_lowField w 24
  · exact toNat_lowField w 8
  · trivial
  · trivial
  · exact toNat_lowField w 12
  · trivial
  · exact ⟨toNat_lowField w 12, toNat_field w 12 13⟩
  · exact ⟨toNat_lowField w 12, toNat_field w 12 13⟩
  · trivial

/-! ### Illegal words -/

/-- The host's write of a word to CMD runs it as a command (R26). -/
theorem takeInput_write_cmd (w : Word) (s : State) : takeInput (.write 0x00 32 w) s = runCommand w s := rfl

/-- What an illegal word does: STATUS reads IllegalCommand, RDATA 0 (R76). -/
theorem runCommand_illegal {w : Word} {e : DecodeError} (h : decode w = .error e) (s : State) :
    runCommand w s = .next { s with status := 0x9#32, rdata := 0#32 } := by
  simp only [runCommand, h]
  rfl

/-- Settles O5: the words no command decodes from are the illegal ones, and the step runs the word it takes. -/
theorem illegalWordsEndIllegalCommand : Obligations.IllegalWordsEndIllegalCommand := by
  intro w
  have hillegal : illegalWord w ↔ ∃ e, decode w = .error e :=
    (illegalWord_iff w).trans (exists_decode_error_iff w).symm
  refine ⟨hillegal, fun hw s rest hinput => ?_⟩
  obtain ⟨e, he⟩ := hillegal.1 hw
  rw [step_of_inputs_cons hinput, takeInput_write_cmd, runCommand_illegal he]

end Sys2Proof.Machine

/-! The registry and context family (spec/42_registry_context.md): SWITCH and FIND. -/

namespace Sys2Proof.Machine

/-! ### SWITCH -/

/-- No process has the id 0 (R93). -/
theorem switchCmd_zero (s : State) : switchCmd 0#8 s = s.raise .invalidContext := if_pos rfl

/-- Any other id becomes CUR_PID, with no look at the registry (R93). -/
theorem switchCmd_of_ne_zero {pid : Pid} (s : State) (h : pid ≠ 0#8) :
    switchCmd pid s = { s with curPid := pid }.finish 0#32 := if_neg h

/-- Settles O41, from the two ends of SWITCH: finishing and raising write STATUS and RDATA only. -/
theorem switchSelectsTheProcess : Obligations.SwitchSelectsTheProcess := by
  refine fun s pid => ⟨fun hpid => ?_, ?_⟩
  · exact congrArg Host.Outcome.next (switchCmd_of_ne_zero s hpid)
  · rintro rfl
    exact congrArg Host.Outcome.next (switchCmd_zero s)

/-! ### FIND -/

theorem findCmd_noProcess {s : State} (c : Params) (h : s.curPid = 0#8) :
    findCmd c s = s.raise .invalidContext := if_pos h

/-- A miss on this hardware: ACTIVE_DIR keeps its old value (R9, R94). -/
theorem findCmd_miss {s : State} (hpid : s.curPid ≠ 0#8) (hmiss : s.unregistered s.curPid) :
    findCmd Config.params s = s.raise .absent := by
  simp only [findCmd, if_neg hpid, (regFind_eq_none s s.curPid).2 hmiss]
  rfl

/-- A hit: the found frame becomes ACTIVE_DIR as it stands, reserved or not (R94). -/
theorem findCmd_hit {s : State} {k : Nat} (hpid : s.curPid ≠ 0#8) (hhit : s.registeredAt s.curPid k) :
    findCmd Config.params s =
      (s.setActiveDir (entryFrame (s.slot k))).finish ((entryFrame (s.slot k)).setWidth 32) := by
  simp only [findCmd, if_neg hpid, (regFind_eq_some s s.curPid k).2 hhit]
  rfl

/-- Settles O42: what reg_find answers is the lowest entry with the tag, or that there is none. -/
theorem findLooksUpTheLowestEntry : Obligations.FindLooksUpTheLowestEntry := by
  refine fun s => ⟨fun hnone => ?_, fun hpid hmiss => ?_, fun k hpid hhit => ?_⟩
  · exact congrArg Host.Outcome.next (findCmd_noProcess Config.params hnone)
  · exact congrArg Host.Outcome.next (findCmd_miss hpid hmiss)
  · exact congrArg Host.Outcome.next (findCmd_hit hpid hhit)

end Sys2Proof.Machine

/-! The frame bitmap family (spec/43_frame_bitmap.md): FALLOC and FFREE. -/

namespace Sys2Proof.Machine

/-! ### The frame operations, away from the frame's own bitmap word -/

theorem mem_frameSet_of_ne (s : State) {f : Frame} {pa : PAddr} (h : pa ≠ bitmapWord f) :
    (s.frameSet f).mem pa = s.mem pa := by
  rw [mem_frameSet, if_neg h]

theorem mem_frameClear_of_ne (s : State) {f : Frame} {pa : PAddr} (h : pa ≠ bitmapWord f) :
    (s.frameClear f).mem pa = s.mem pa := by
  rw [mem_frameClear, if_neg h]

/-! ### FALLOC -/

/-- With a frame free, FALLOC marks the lowest one and returns it (R97). -/
theorem fallocCmd_lowestFree {s : State} {f : Frame} (h : s.lowestFree f) :
    fallocCmd Config.params s = (s.frameSet f).finish (f.setWidth 32) := by
  simp only [fallocCmd, (frameScan_eq_some s f).2 h]

/-- With every frame used, FALLOC changes no bit (R97). -/
theorem fallocCmd_allFramesUsed {s : State} (h : s.allFramesUsed) :
    fallocCmd Config.params s = s.raise .outOfFrames := by
  simp only [fallocCmd, (frameScan_eq_none s).2 h]

/-- Settles O44: the scan finds the lowest free frame, or none; beside the FrameStore, marking a frame and ending
the command write RDATA and STATUS only. -/
theorem fallocTakesTheLowestFreeFrame : Obligations.FallocTakesTheLowestFreeFrame := by
  refine fun s => ⟨fun f hfree => ?_, fun hused => ?_⟩
  · refine ⟨(s.frameSet f).finish (f.setWidth 32),
      congrArg Host.Outcome.next (fallocCmd_lowestFree hfree), rfl, fun g => ?_, fun pa hpa => ?_⟩
    · rw [frameUsed_finish, frameUsed_frameSet]
    · rw [mem_finish, mem_frameSet_of_ne s hpa]
  · exact congrArg Host.Outcome.next (fallocCmd_allFramesUsed hused)

/-! ### FFREE -/

/-- Settles O45: FFREE is `frameClear` and the end of the command, with no look at the state before. -/
theorem ffreeClearsTheBit : Obligations.FfreeClearsTheBit := by
  refine fun s f => ⟨(s.frameClear f).finish 0#32, rfl, rfl, fun g => ?_, fun pa hpa => ?_⟩
  · rw [frameUsed_finish, frameUsed_frameClear]
  · rw [mem_finish, mem_frameClear_of_ne s hpa]

end Sys2Proof.Machine

/-! The swap family (spec/44_swap.md): SFIND, DUMP and RESTORE. -/

namespace Sys2Proof.Machine

/-! ### The swap mirror, sector by sector -/

/-- The mirror's bit of a sector given as a number (R49). -/
theorem sectorUsed_eq_mirrorBit (s : State) {i : Nat} (h : i < 8192) :
    s.sectorUsed Config.params i = s.mirrorBit (BitVec.ofNat 13 i) := by
  rw [State.mirrorBit, BitVec.toNat_ofNat, Nat.mod_eq_of_lt h]

theorem mirrorBit_sectorSet (s : State) (i j : Sector) :
    (s.sectorSet Config.params i.toNat).mirrorBit j = (decide (j = i) || s.mirrorBit j) := by
  simp only [State.mirrorBit, sectorUsed_sectorSet, BitVec.toNat_inj]

/-- The mirror lies inside frame 15 (R49). -/
theorem frameOf_mirrorWord (i : Sector) : frameOf (mirrorWord i.toNat) = 15#12 := by
  have hi := i.isLt
  rw [frameOf_eq_iff, mirrorWord_toNat _ hi, BitVec.toNat_ofNat]
  omega

/-! ### SFIND -/

/-- sector_scan finds the lowest sector whose mirror bit is 0 (R55). -/
theorem sectorScan_lowestFree {s : State} {i : Sector} (hfree : s.mirrorBit i = false)
    (hbelow : ∀ j : Sector, j < i → s.mirrorBit j = true) : s.sectorScan Config.params = some i.toNat := by
  refine (sectorScan_eq_some s i.toNat).2 ⟨i.isLt, hfree, fun j hj => ?_⟩
  have hj' : j < 8192 := hj.trans i.isLt
  rw [sectorUsed_eq_mirrorBit s hj']
  exact hbelow _ (BitVec.lt_def.2 (by rwa [BitVec.toNat_ofNat, Nat.mod_eq_of_lt hj']))

/-- With every mirror bit 1, sector_scan finds none (R55). -/
theorem sectorScan_allUsed {s : State} (hused : ∀ j : Sector, s.mirrorBit j = true) :
    s.sectorScan Config.params = none :=
  (sectorScan_eq_none s).2 fun _ hj => (sectorUsed_eq_mirrorBit s hj).trans (hused _)

/-- With a sector found, SFIND on this hardware marks it in the mirror and returns it, with nothing persisted
(R9, R100). -/
theorem sfindCmd_found {s : State} {i : Sector} (h : s.sectorScan Config.params = some i.toNat) :
    sfindCmd Config.params s = (s.sectorSet Config.params i.toNat).finish (i.setWidth 32) := by
  simp [sfindCmd, h]

/-- With no sector free, SFIND changes no bit (R100). -/
theorem sfindCmd_none {s : State} (h : s.sectorScan Config.params = none) :
    sfindCmd Config.params s = s.raise .outOfSectors := by
  simp only [sfindCmd, h]

/-- Settles O48: the scan finds the lowest free sector, or none; marking it stores to its mirror word, and beside
the FrameStore the command writes RDATA and STATUS only. -/
theorem sfindTakesTheLowestFreeSector : Obligations.SfindTakesTheLowestFreeSector := by
  refine fun s => ⟨fun i hfree hbelow => ?_, fun hused => ?_⟩
  · have hcmd := sfindCmd_found (sectorScan_lowestFree hfree hbelow)
    refine ⟨_, congrArg Host.Outcome.next hcmd, rfl, mirrorBit_sectorSet s i, fun pa hpa => ?_⟩
    rw [mem_finish, mem_sectorSet s _ i.isLt, if_neg hpa]
  · exact congrArg Host.Outcome.next (sfindCmd_none (sectorScan_allUsed hused))

/-! ### DUMP -/

/-- Settles O49: DUMP is `frameToSector`, its trace event and the end of the command, with no look at the bitmap. -/
theorem dumpCopiesTheFrame : Obligations.DumpCopiesTheFrame :=
  fun s f k => ⟨dumpCmd f k s, rfl, rfl, diskRead_frameToSector s f k⟩

/-! ### RESTORE -/

/-- RESTORE's FrameStore, word by word: the copy, and then the cleared mirror bit (R102). -/
theorem mem_restoreCmd (s : State) (k : Sector) (f : Frame) (pa : PAddr) :
    (restoreCmd Config.params k f s).mem pa =
      if pa = mirrorWord k.toNat then (s.sectorToFrame k f).mem pa &&& ~~~(1#32 <<< (k.toNat % 32))
      else (s.sectorToFrame k f).mem pa :=
  mem_sectorClear (s.sectorToFrame k f) k.toNat k.isLt pa

/-- RESTORE's DiskStore: sector 0 takes the mirror as RESTORE leaves it, the other sectors stay (R102). -/
theorem diskRead_restoreCmd (s : State) (k : Sector) (f : Frame) (k' : Sector) (i : Offset) :
    (restoreCmd Config.params k f s).diskRead k' i =
      if k' = 0#13 then (restoreCmd Config.params k f s).mem (frameWord 15#12 i) else s.diskRead k' i :=
  diskRead_persistSwap ((s.sectorToFrame k f).sectorClear Config.params k.toNat) k' i

/-- Settles O50: away from the sector's mirror word the FrameStore is the copy's; in that word the bit is cleared
after the copy, which reaches it when the target is frame 15. -/
theorem restoreCopiesFreesAndPersists : Obligations.RestoreCopiesFreesAndPersists := by
  refine fun s f k => ⟨restoreCmd Config.params k f s, rfl, rfl, fun pa hpa => ?_, ?_, diskRead_restoreCmd s k f⟩
  · rw [mem_restoreCmd, if_neg hpa, mem_sectorToFrame]
  · rw [mem_restoreCmd, if_pos rfl, mem_sectorToFrame, frameOf_mirrorWord]
    simp only [eq_comm (a := f)]

end Sys2Proof.Machine

/-! The encoding family, continued: decode and encode undo each other, and the pseudo-instruction of R81. -/

namespace Sys2Proof.Machine

/-! ### Encode, then decode -/

/-- Settles O1: each format's decoder finds the opcode, the zero bits and the operands that its encoder put there;
DUMP's and RESTORE's sector exists because the command is well-formed. -/
theorem decodeOfEncodeIsTheCommand : Obligations.DecodeOfEncodeIsTheCommand := by
  intro c i hwf
  cases i with
  | read va | write va | map va | unmap va =>
    simp only [encode, decodeWith, opcode_formatV, decodeV_formatV]
  | switch pid => simp only [encode, decodeWith, opcode_formatP, decodeP_formatP]
  | find | falloc | sfind | init => simp only [encode, decodeWith, opcode_formatN, decodeN_formatN]
  | ffree frame => simp only [encode, decodeWith, opcode_formatF, decodeF_formatF]
  | dump frame sector | restore sector frame =>
    have hsector : sector.toNat < c.numSectors := of_decide_eq_true hwf
    simp only [encode, decodeWith, opcode_formatSF, decodeSF_formatSF, if_pos hsector]

/-! ### Decode, then encode: a word is its opcode, its zero bits and its operands side by side -/

section formats
variable {w : Word} {op : BitVec 4} (hop : opcode w = op)
include hop

theorem formatV_of_fields (hrsv : w.extractLsb' 24 4 = 0#4) : op ++ 0#4 ++ w.extractLsb' 0 24 = w := by
  subst hop
  apply word_ext
  have hrsv := congrArg BitVec.toNat hrsv
  have hw := w.isLt
  simp only [opcode, toNat_field, toNat_append_add, BitVec.toNat_ofNat] at hrsv ⊢
  omega

theorem formatP_of_fields (hrsv : w.extractLsb' 8 20 = 0#20) : op ++ 0#20 ++ w.extractLsb' 0 8 = w := by
  subst hop
  apply word_ext
  have hrsv := congrArg BitVec.toNat hrsv
  have hw := w.isLt
  simp only [opcode, toNat_field, toNat_append_add, BitVec.toNat_ofNat] at hrsv ⊢
  omega

theorem formatF_of_fields (hrsv : w.extractLsb' 12 16 = 0#16) : op ++ 0#16 ++ w.extractLsb' 0 12 = w := by
  subst hop
  apply word_ext
  have hrsv := congrArg BitVec.toNat hrsv
  have hw := w.isLt
  simp only [opcode, toNat_field, toNat_append_add, BitVec.toNat_ofNat] at hrsv ⊢
  omega

theorem formatSF_of_fields (hrsv : w.extractLsb' 25 3 = 0#3) :
    op ++ 0#3 ++ w.extractLsb' 12 13 ++ w.extractLsb' 0 12 = w := by
  subst hop
  apply word_ext
  have hrsv := congrArg BitVec.toNat hrsv
  have hw := w.isLt
  simp only [opcode, toNat_field, toNat_append_add, BitVec.toNat_ofNat] at hrsv ⊢
  omega

theorem formatN_of_fields (hrsv : w.extractLsb' 0 28 = 0#28) : op ++ 0#28 = w := by
  subst hop
  apply word_ext
  have hrsv := congrArg BitVec.toNat hrsv
  have hw := w.isLt
  simp only [opcode, toNat_field, toNat_append_add, BitVec.toNat_ofNat] at hrsv ⊢
  omega

end formats

/-- Settles O2, row by row of what decoding finds: the fields put side by side are the word again, and the sector
was compared with NUM_SECTORS. -/
theorem encodeOfDecodeIsTheWord : Obligations.EncodeOfDecodeIsTheWord := by
  intro c w i h
  rcases (decodeWith_eq_ok c w i).1 h with
    ⟨hop, hrsv, rfl⟩ | ⟨hop, hrsv, rfl⟩ | ⟨hop, hrsv, rfl⟩ | ⟨hop, hrsv, rfl⟩ | ⟨hop, hrsv, rfl⟩ |
    ⟨hop, hrsv, rfl⟩ | ⟨hop, hrsv, rfl⟩ | ⟨hop, hrsv, rfl⟩ | ⟨hop, hrsv, rfl⟩ | ⟨hop, hrsv, hsector, rfl⟩ |
    ⟨hop, hrsv, hsector, rfl⟩ | ⟨hop, hrsv, rfl⟩
  · exact ⟨formatV_of_fields hop hrsv, rfl⟩
  · exact ⟨formatV_of_fields hop hrsv, rfl⟩
  · exact ⟨formatV_of_fields hop hrsv, rfl⟩
  · exact ⟨formatV_of_fields hop hrsv, rfl⟩
  · exact ⟨formatP_of_fields hop hrsv, rfl⟩
  · exact ⟨formatN_of_fields hop hrsv, rfl⟩
  · exact ⟨formatN_of_fields hop hrsv, rfl⟩
  · exact ⟨formatF_of_fields hop hrsv, rfl⟩
  · exact ⟨formatN_of_fields hop hrsv, rfl⟩
  · exact ⟨formatSF_of_fields hop hrsv, decide_eq_true hsector⟩
  · exact ⟨formatSF_of_fields hop hrsv, decide_eq_true hsector⟩
  · exact ⟨formatN_of_fields hop hrsv, rfl⟩

/-- Settles O6: the decoder run on the ten words. -/
theorem sampleWordsDecode : Obligations.SampleWordsDecode :=
  ⟨rfl, rfl, rfl, rfl, rfl, rfl, rfl, rfl, rfl, rfl⟩

/-! ### A command word written to CMD -/

theorem runCommand_legal {w : Word} {i : Instr} (h : decode w = .ok i) (s : State) :
    runCommand w s = exec i s := by
  simp only [runCommand, h]

/-- The step that takes a legal command word (R26). -/
theorem step_legal {s : State} {w : Word} {i : Instr} {rest : List HostInput}
    (hinput : s.inputs = .write 0x00 32 w :: rest) (h : decode w = .ok i) :
    step s = exec i { s with inputs := rest } := by
  rw [step_of_inputs_cons hinput, takeInput_write_cmd, runCommand_legal h]

/-- Settles O7: the step takes the word from the inputs; `withFetchWord` puts the word first among them. -/
theorem stepRunsTheDecodedCommand : Obligations.StepRunsTheDecodedCommand :=
  ⟨fun _ _ _ _ hinput h => step_legal hinput h,
    fun s _ w _ h => step_legal (s := s.withFetchWord _ w) (rest := s.inputs) rfl h⟩

/-! ### The pseudo-instruction -/

theorem fitsField_of_lt {bits n : Nat} (h : n < 2 ^ bits) : fitsField bits n = some (BitVec.ofNat bits n) :=
  if_pos h

theorem fitsField_of_le {bits n : Nat} (h : 2 ^ bits ≤ n) : fitsField bits n = none :=
  if_neg (Nat.not_lt.2 h)

/-- Every command's own word decodes to it on this hardware, since no sector is out of range (R76). -/
theorem decode_encode_write (va : VAddr) : decode (encode (.write va)) = .ok (.write va) :=
  decodeOfEncodeIsTheCommand Config.params (.write va) rfl

/-- Settles O12: the first access is a write of WDATA, the second one of the command's word to CMD. -/
theorem writeLineIsTwoHostAccesses : Obligations.WriteLineIsTwoHostAccesses := by
  refine fun s va data => ⟨fun hva hdata => ?_, fun hbig => ?_⟩
  · refine ⟨.write 0x04 32 (BitVec.ofNat 32 data), .write 0x00 32 (encode (.write (BitVec.ofNat 24 va))), _,
      ?_, rfl, step_legal rfl (decode_encode_write _)⟩
    simp only [assemble, assembleWith, fitsField_of_lt hva, assembleWr, fitsField_of_lt hdata]
    rfl
  · rcases hbig with hva | hdata
    · simp only [assemble, assembleWith, fitsField_of_le hva]
      rfl
    · simp only [assemble, assembleWith, assembleWr, fitsField_of_le hdata]
      cases fitsField 24 va <;> rfl

end Sys2Proof.Machine

/-! The host port and the entries: the register map, the steps that run no command, the fault handler and the
packing of PTEs. -/

namespace Sys2Proof.Machine

/-! ### Steps that run no command -/

/-- Settles O10: no input, and the input that is hardware reset. -/
theorem stepWithoutACommand : Obligations.StepWithoutACommand := by
  refine ⟨fun s hidle => ?_, fun s rest hinput => ?_⟩
  · simp only [step, hostStep, hidle]
  · rw [step_of_inputs_cons hinput]
    rfl

/-- An aligned 32-bit access inside the window is not refused (R26, R29). -/
theorem accessRefusal_aligned {offset : Nat} (hwindow : offset ≤ 0x3F) (haligned : offset % 4 = 0) :
    accessRefusal offset 32 = none := by
  simp [accessRefusal, Nat.not_lt.2 hwindow, haligned]

theorem takeInput_read_aligned {offset : Nat} (s : State) (hwindow : offset ≤ 0x3F)
    (haligned : offset % 4 = 0) :
    takeInput (.read offset 32) s = .next { s with hostReads := s.hostReads ++ [s.hostRead offset] } := by
  simp only [takeInput, accessRefusal_aligned hwindow haligned]

theorem takeInput_write_aligned {offset : Nat} (s : State) (v : Word) (hwindow : offset ≤ 0x3F)
    (haligned : offset % 4 = 0) : takeInput (.write offset 32 v) s = hostWrite offset v s := by
  simp only [takeInput, accessRefusal_aligned hwindow haligned]

/-- The offsets beyond the last register read 0 (R26). -/
theorem hostRead_beyond (s : State) {offset : Nat} (h : 0x1C ≤ offset) : s.hostRead offset = 0#32 := by
  unfold State.hostRead
  split
  iterate 6 exact absurd h (by decide)
  rfl

/-- A host write that is neither CMD's nor WDATA's is ignored (R26). -/
theorem hostWrite_ignored (s : State) (v : Word) {offset : Nat} (hcmd : offset ≠ 0x00)
    (hwdata : offset ≠ 0x04) : hostWrite offset v s = .next s := by
  unfold hostWrite
  split
  · exact absurd rfl hcmd
  · exact absurd rfl hwdata
  · rfl

/-- CTX's fields (R27). -/
theorem ctxWord_fields (pid : Pid) (dir : Frame) :
    (ctxWord pid dir).extractLsb' 0 8 = pid ∧ (ctxWord pid dir).extractLsb' 8 12 = dir ∧
      (ctxWord pid dir).extractLsb' 20 12 = 0#12 := by
  have hpid := pid.isLt
  have hdir := dir.isLt
  refine ⟨word_ext _ _ ?_, word_ext _ _ ?_, word_ext _ _ ?_⟩ <;>
    simp only [ctxWord, toNat_field, toNat_append_add, BitVec.toNat_ofNat] <;> omega

/-- Settles O8: a read appends what its offset reads, a write is WDATA's or ignored. -/
theorem hostPortFollowsTheRegisterMap : Obligations.HostPortFollowsTheRegisterMap := by
  refine fun s rest offset hwindow haligned => ⟨fun hinput => ?_, fun v hinput => ?_⟩
  · refine ⟨s.hostRead offset, ?_, ?_, ?_, ?_, ?_, ?_, ?_, ?_, hostRead_beyond s⟩
    · rw [step_of_inputs_cons hinput, takeInput_read_aligned _ hwindow haligned]
      rfl
    all_goals rintro rfl
    iterate 4 rfl
    · exact ctxWord_fields s.curPid s.activeDir
    iterate 2 rfl
  · rw [step_of_inputs_cons hinput, takeInput_write_aligned _ v hwindow haligned]
    refine ⟨?_, fun hcmd hwdata => hostWrite_ignored _ v hcmd hwdata⟩
    rintro rfl
    rfl

/-! ### The fault handler and PTEs -/

/-- Settles O14: the handler on this hardware looks at the entry's FRAME only. -/
theorem handlerAbortsReservedFramesOnly : Obligations.HandlerAbortsReservedFramesOnly := by
  refine fun va perm e => ⟨fun hlow => ?_, fun hhigh => ?_⟩
  · exact (faultHandler_eq va perm e).trans (if_pos ((lt_firstFree _).2 hlow))
  · exact (faultHandler_eq va perm e).trans (if_neg ((firstFree_le _).2 hhigh))

/-- Bit by bit, packing what unpacking found drops bits [23:16] only (R46, R47). -/
theorem ptePack_pteUnpack (e : Word) :
    ptePack Config.params (pteUnpack Config.params e) = e &&& 0xFF00FFFF#32 := by
  apply BitVec.eq_of_getLsbD_eq
  intro i hi
  simp only [ptePack, pteUnpack, entryOwner, entryFrame, Config.params_ownerLsb, OwnerLsb.lsb,
    BitVec.getLsbD_append, BitVec.getLsbD_and]
  interval_cases i <;> simp

/-- Settles O15. -/
theorem ptePackingRoundTrips : Obligations.PtePackingRoundTrips :=
  ⟨pteUnpack_ptePack, ptePack_pteUnpack, mapPte_eq, rfl⟩

end Sys2Proof.Machine

/-! The access family (spec/40_translate.md, spec/60_exceptions.md): READ and WRITE. -/

namespace Sys2Proof.Machine

/-! ### READ and WRITE, by the walk's four ends -/

section access
variable (va : VAddr) {s : State}

/-- The state after a walk that both levels let through. -/
def State.walked (s : State) (va : VAddr) : State :=
  (s.pass va .dir (s.dirEntry va)).pass va .tab (s.tabEntry va)

theorem mem_walked (s : State) (va : VAddr) (pa : PAddr) : (s.walked va).mem pa = s.mem pa := by
  rw [State.walked, pass_mem, pass_mem]

/-- An access without a context ends FatalFault (R57, R108). -/
theorem access_noContext (hc : s.activeDir < Config.firstFreeFrame) :
    readCmd Config.params va s = (s.logFault va .ctx 0#32 true).complete .fatalFault false false 0#32 ∧
    writeCmd Config.params va s = (s.logFault va .ctx 0#32 true).complete .fatalFault false false 0#32 := by
  simp only [readCmd, writeCmd, walk_noContext va s hc, and_self]

/-- An access whose Directory entry names a reserved frame ends FatalFault (R57, R108). -/
theorem access_dirAbort (hc : ¬ s.activeDir < Config.firstFreeFrame)
    (hd : entryFrame (s.dirEntry va) < Config.firstFreeFrame) :
    readCmd Config.params va s
      = (s.logFault va .dir (s.dirEntry va) true).complete .fatalFault false false 0#32 ∧
    writeCmd Config.params va s
      = (s.logFault va .dir (s.dirEntry va) true).complete .fatalFault false false 0#32 := by
  simp only [readCmd, writeCmd, walk_dirAbort va s hc hd, and_self]

/-- An access whose Table entry names a reserved frame ends FatalFault, with PFD if the Directory level was logged
(R57, R108, R113). -/
theorem access_tabAbort (hc : ¬ s.activeDir < Config.firstFreeFrame)
    (hd : ¬ entryFrame (s.dirEntry va) < Config.firstFreeFrame)
    (ht : entryFrame (s.tabEntry va) < Config.firstFreeFrame) :
    readCmd Config.params va s
      = ((s.pass va .dir (s.dirEntry va)).logFault va .tab (s.tabEntry va) true).complete .fatalFault
          (!s.permits (s.dirEntry va)) false 0#32 ∧
    writeCmd Config.params va s
      = ((s.pass va .dir (s.dirEntry va)).logFault va .tab (s.tabEntry va) true).complete .fatalFault
          (!s.permits (s.dirEntry va)) false 0#32 := by
  simp only [readCmd, writeCmd, walk_tabAbort va s hc hd ht, and_self]

variable (hc : ¬ s.activeDir < Config.firstFreeFrame)
  (hd : ¬ entryFrame (s.dirEntry va) < Config.firstFreeFrame)
  (ht : ¬ entryFrame (s.tabEntry va) < Config.firstFreeFrame)
include hc hd ht

/-- READ through two entries that are not reserved (R83). -/
theorem readCmd_ok : readCmd Config.params va s
    = ((s.walked va).emit (.access .read va (s.dataAddr va) (s.mem (s.dataAddr va)))).complete .ok
        (!s.permits (s.dirEntry va)) (!s.permits (s.tabEntry va)) (s.mem (s.dataAddr va)) := by
  simp only [readCmd, walk_ok va s hc hd ht, pass_mem, State.walked]

/-- WRITE through two entries that are not reserved (R84). -/
theorem writeCmd_ok : writeCmd Config.params va s
    = (((s.walked va).memWrite (s.dataAddr va) s.wdata).emit
        (.access .write va (s.dataAddr va) s.wdata)).complete .ok
        (!s.permits (s.dirEntry va)) (!s.permits (s.tabEntry va)) 0#32 := by
  simp only [writeCmd, walk_ok va s hc hd ht, State.walked]

end access

/-- Settles O16: the walk succeeds, and each level either passes or is logged. -/
theorem readReturnsTheTranslatedWord : Obligations.ReadReturnsTheTranslatedWord := by
  intro s va hc hd ht
  rw [← firstFree_le] at hc hd ht
  refine congrArg Host.Outcome.next ((readCmd_ok va hc hd ht).trans ?_)
  rw [State.walked, pass_pass, ← statusWord_access]
  rfl

/-- Settles O17: READ's walk, and then one word stored. -/
theorem writeStoresWdataAtTheTranslatedWord : Obligations.WriteStoresWdataAtTheTranslatedWord := by
  intro s va hc hd ht
  rw [← firstFree_le] at hc hd ht
  refine ⟨_, congrArg Host.Outcome.next (writeCmd_ok va hc hd ht), fun pa => ?_, ?_⟩
  · rw [mem_complete, mem_emit, mem_memWrite, mem_walked]
  · rw [State.walked, pass_pass, ← statusWord_access]
    rfl

/-- Settles O18: READ and WRITE end alike at each of the three levels where a walk can abort. -/
theorem abortedAccessLeavesOnlyTheFaultRecord : Obligations.AbortedAccessLeavesOnlyTheFaultRecord := by
  refine fun s va => ⟨fun hc => ?_, fun hc hd => ?_, fun hc hd ht => ?_⟩
  · obtain ⟨hr, hw⟩ := access_noContext va ((lt_firstFree _).2 hc)
    rintro i (rfl | rfl)
    · exact congrArg Host.Outcome.next hr
    · exact congrArg Host.Outcome.next hw
  · obtain ⟨hr, hw⟩ := access_dirAbort va ((firstFree_le _).2 hc) ((lt_firstFree _).2 hd)
    rintro i (rfl | rfl)
    · exact congrArg Host.Outcome.next hr
    · exact congrArg Host.Outcome.next hw
  · obtain ⟨hr, hw⟩ := access_tabAbort va ((firstFree_le _).2 hc) ((firstFree_le _).2 hd)
      ((lt_firstFree _).2 ht)
    have hstate : ((s.pass va .dir (s.dirEntry va)).logFault va .tab (s.tabEntry va) true).complete .fatalFault
        (!s.permits (s.dirEntry va)) false 0#32 = { s with
          rdata := 0#32
          status := if s.permits (s.dirEntry va) then 0x007#32 else 0x107#32
          fva := 0x12#8 ++ va, fent := s.tabEntry va
          trace := s.trace ++ (if s.permits (s.dirEntry va) then [] else [.perm va .dir (s.dirEntry va)]) ++
            [.fatal va .tab (s.tabEntry va)] } := by
      rw [pass_eq]
      cases s.permits (s.dirEntry va) <;> rfl
    rintro i (rfl | rfl)
    · exact congrArg Host.Outcome.next (hr.trans hstate)
    · exact congrArg Host.Outcome.next (hw.trans hstate)

/-! ### The frame of READ and WRITE -/

section walkFields
variable (va : VAddr) (s : State)
@[simp] theorem walk_curPid : (walk Config.params va s).state.curPid = s.curPid := by rw [walk_state_eq]
@[simp] theorem walk_activeDir : (walk Config.params va s).state.activeDir = s.activeDir := by rw [walk_state_eq]
@[simp] theorem walk_wdata : (walk Config.params va s).state.wdata = s.wdata := by rw [walk_state_eq]
@[simp] theorem walk_frames : (walk Config.params va s).state.frames = s.frames := by rw [walk_state_eq]
@[simp] theorem walk_disk : (walk Config.params va s).state.disk = s.disk := by rw [walk_state_eq]
@[simp] theorem walk_inputs : (walk Config.params va s).state.inputs = s.inputs := by rw [walk_state_eq]
@[simp] theorem walk_hostReads : (walk Config.params va s).state.hostReads = s.hostReads := by rw [walk_state_eq]
end walkFields

section byResult
variable {c : Params} {va : VAddr} {s : State} {pa : PAddr}

theorem readCmd_fatal (h : (walk c va s).result = .fatal) :
    readCmd c va s = (walk c va s).state.complete .fatalFault (walk c va s).pfd (walk c va s).pft 0#32 := by
  simp only [readCmd, h]

theorem readCmd_result (h : (walk c va s).result = .ok pa) :
    readCmd c va s = ((walk c va s).state.emit (.access .read va pa ((walk c va s).state.mem pa))).complete .ok
      (walk c va s).pfd (walk c va s).pft ((walk c va s).state.mem pa) := by
  simp only [readCmd, h]

theorem writeCmd_fatal (h : (walk c va s).result = .fatal) :
    writeCmd c va s = (walk c va s).state.complete .fatalFault (walk c va s).pfd (walk c va s).pft 0#32 := by
  simp only [writeCmd, h]

theorem writeCmd_result (h : (walk c va s).result = .ok pa) :
    writeCmd c va s = (((walk c va s).state.memWrite pa s.wdata).emit (.access .write va pa s.wdata)).complete .ok
      (walk c va s).pfd (walk c va s).pft 0#32 := by
  simp only [writeCmd, h]

end byResult

/-- READ leaves the FrameStore, the context, WDATA, the DiskStore and the host's side (R38). -/
theorem readCmd_frame (va : VAddr) (s : State) :
    let u := readCmd Config.params va s
    u.frames = s.frames ∧ u.curPid = s.curPid ∧ u.activeDir = s.activeDir ∧ u.wdata = s.wdata ∧
      u.disk = s.disk ∧ u.inputs = s.inputs ∧ u.hostReads = s.hostReads := by
  cases h : (walk Config.params va s).result with
  | fatal => simp [readCmd_fatal h]
  | ok pa => simp [readCmd_result h]

/-- WRITE leaves the context, WDATA, the DiskStore and the host's side (R38). -/
theorem writeCmd_frame (va : VAddr) (s : State) :
    let u := writeCmd Config.params va s
    u.curPid = s.curPid ∧ u.activeDir = s.activeDir ∧ u.wdata = s.wdata ∧
      u.disk = s.disk ∧ u.inputs = s.inputs ∧ u.hostReads = s.hostReads := by
  cases h : (walk Config.params va s).result with
  | fatal => simp [writeCmd_fatal h]
  | ok pa => simp [writeCmd_result h]

/-- WRITE leaves every word but the one its walk found. -/
theorem mem_writeCmd_of_ne {va : VAddr} {s : State} {pa : PAddr}
    (hpa : (walk Config.params va s).result ≠ .ok pa) : (writeCmd Config.params va s).mem pa = s.mem pa := by
  cases h : (walk Config.params va s).result with
  | fatal =>
    rw [writeCmd_fatal h, mem_complete]
    exact mem_congr _ _ pa (walk_frames va s)
  | ok pa' =>
    have hne : pa ≠ pa' := by
      rintro rfl
      exact hpa h
    rw [writeCmd_result h, mem_complete, mem_emit, mem_memWrite, if_neg hne]
    exact mem_congr _ _ pa (walk_frames va s)

/-- Settles O19, from the frames of the two commands. -/
theorem accessFrame : Obligations.AccessFrame := by
  refine fun s u va => ⟨?_, ?_, ?_⟩
  · rintro (⟨⟨⟩⟩ | ⟨⟨⟩⟩)
    · exact (readCmd_frame va s).2
    · exact writeCmd_frame va s
  · rintro ⟨⟨⟩⟩ pa
    exact mem_congr _ _ pa (readCmd_frame va s).1
  · rintro ⟨⟨⟩⟩ pa hpa
    exact mem_writeCmd_of_ne hpa

/-! ### The stale Directory -/

/-- An entry with another owner's tag fails the check (R56). -/
theorem not_entryOk_other {cur pid : Pid} {e : Word} (h : entryOk Config.params cur e = true) (hne : pid ≠ cur) :
    entryOk Config.params pid e = false := by
  obtain ⟨-, -, -, -, howner⟩ := (entryOk_eq_true_iff _ _ _).1 h
  rw [← Bool.not_eq_true, entryOk_eq_true_iff, howner]
  exact fun hpid => hne hpid.2.2.2.2.symm

/-- Settles O20: SWITCH leaves ACTIVE_DIR, so both entries are the old process's, which name frames that are not
reserved but carry another tag. -/
theorem switchLeavesAStaleDirectory : Obligations.SwitchLeavesAStaleDirectory := by
  intro s va pid hpid hother hc hdir htab
  let u : State := { s with curPid := pid }.finish 0#32
  have hswitch : exec (.switch pid) s = .next u := congrArg Host.Outcome.next (switchCmd_of_ne_zero s hpid)
  have hd := (firstFree_le _).1 (entryOk_frame _ _ _ hdir)
  have ht := (firstFree_le _).1 (entryOk_frame _ _ _ htab)
  have hdir' : u.permits (s.dirEntry va) = false := not_entryOk_other hdir hother
  have htab' : u.permits (s.tabEntry va) = false := not_entryOk_other htab hother
  refine ⟨u, _, hswitch, readReturnsTheTranslatedWord u va hc hd ht, rfl, rfl, rfl, ?_⟩
  change (if u.permits (s.dirEntry va) then 0x000#32 else 0x100#32) |||
    (if u.permits (s.tabEntry va) then 0x000#32 else 0x200#32) = 0x300#32
  rw [hdir', htab']
  rfl

end Sys2Proof.Machine

/-! The MAP family (spec/41_map_unmap.md R87, R88): what MAP answers in each of its cases. -/

namespace Sys2Proof.Machine

/-! ### The free frames, in order -/

/-- A free frame means that there is a lowest one. -/
theorem exists_lowestFree {s : State} {f : Frame} (h : s.frameUsed f = false) : ∃ g, s.lowestFree g := by
  cases hscan : s.frameScan Config.params with
  | none =>
    rw [(frameScan_eq_none s).1 hscan f] at h
    cases h
  | some g => exact ⟨g, (frameScan_eq_some s g).1 hscan⟩

/-- With a reserved frame marked, the lowest free frame is not reserved. -/
theorem lowestFree_ge {s : State} {f : Frame} (hres : s.reservedUsed) (hf : s.lowestFree f) : 16 ≤ f.toNat := by
  rw [← firstFree_le]
  intro hlt
  have := hf.1
  rw [hres f hlt] at this
  cases this

section marked
variable {s u : State} {f : Frame} (hu : ∀ g, u.frameUsed g = (decide (g = f) || s.frameUsed g))
include hu

/-- Once the lowest free frame is marked, the next one is the lowest. -/
theorem lowestFree_of_marked {t : Frame} (hf : s.lowestFree f) (ht : s.nextFree f t) : u.lowestFree t := by
  obtain ⟨hlt, hfree, hbetween⟩ := ht
  refine ⟨?_, fun g hg => ?_⟩
  · rw [hu, hfree, decide_eq_false (BitVec.ne_of_lt hlt).symm]
    rfl
  · rw [hu, Bool.or_eq_true, decide_eq_true_eq]
    by_contra hfalse
    obtain ⟨hne, hfree'⟩ := not_or.1 hfalse
    rcases Nat.lt_trichotomy g.toNat f.toNat with hlow | heq | hhigh
    · exact hfree' (hf.2 g hlow)
    · exact hne (BitVec.eq_of_toNat_eq heq)
    · exact hfree' (hbetween g hhigh hg)

/-- Marking a lower frame leaves the order above it. -/
theorem nextFree_of_marked {t d : Frame} (hft : f < t) (hd : s.nextFree t d) : u.nextFree t d := by
  obtain ⟨hlt, hfree, hbetween⟩ := hd
  refine ⟨hlt, ?_, fun g hlow hhigh => ?_⟩
  · rw [hu, hfree, decide_eq_false (BitVec.ne_of_lt (BitVec.lt_trans hft hlt)).symm]
    rfl
  · rw [hu, hbetween g hlow hhigh, Bool.or_true]

/-- With one frame free, marking it marks them all. -/
theorem allFramesUsed_of_marked (h : ∀ g, g ≠ f → s.frameUsed g = true) : u.allFramesUsed := by
  intro g
  rw [hu, Bool.or_eq_true, decide_eq_true_eq]
  exact or_iff_not_imp_left.2 (h g)

theorem reservedUsed_of_marked (h : s.reservedUsed) : u.reservedUsed := by
  intro g hg
  rw [hu, h g hg, Bool.or_true]

end marked

/-- With one frame free it is the lowest one. -/
theorem lowestFree_of_only {s : State} {f : Frame} (hf : s.frameUsed f = false)
    (h : ∀ g, g ≠ f → s.frameUsed g = true) : s.lowestFree f :=
  ⟨hf, fun g hg => h g (BitVec.ne_of_lt hg)⟩

/-! ### MAP from its steps' answers -/

section steps
variable {s s1 s2 s3 : State} {va : VAddr} {t d : Frame} {e : Status}
  (hw : wordOffset va = 0#8) (hp : s.curPid ≠ 0#8)

theorem mapCmd_unaligned (h : wordOffset va ≠ 0#8) : mapCmd Config.params va s = s.raise .alignmentError :=
  if_pos (by simpa [frameAligned] using h)

include hw in
theorem mapCmd_noProcess (h : s.curPid = 0#8) : mapCmd Config.params va s = s.raise .invalidContext :=
  (if_neg (by simp [frameAligned, hw])).trans (if_pos h)

include hw hp

theorem mapCmd_dirError (h1 : mapDirectory Config.params s = .error e) :
    mapCmd Config.params va s = s.raise e := by
  simp only [mapCmd_eq s va hw hp, h1]

variable (h1 : mapDirectory Config.params s = .ok s1)
include h1

theorem mapCmd_tableError
    (h2 : mapEntry Config.params .table (frameWord s1.activeDir (dirIndex va)) s1 = .error e) :
    mapCmd Config.params va s = s1.raise e := by
  simp only [mapCmd_eq s va hw hp, h1, h2]

variable (h2 : mapEntry Config.params .table (frameWord s1.activeDir (dirIndex va)) s1 = .ok (s2, t))
include h2

theorem mapCmd_exhausted (hx : mapExhausted Config.params s s2 (frameWord t (tabIndex va)) = true) :
    mapCmd Config.params va s = { s2 with frames := s.frames }.raise .outOfFrames := by
  simp only [mapCmd_eq s va hw hp, h1, h2, hx, if_true]

variable (hx : mapExhausted Config.params s s2 (frameWord t (tabIndex va)) = false)
include hx

theorem mapCmd_dataError (h3 : mapEntry Config.params .data (frameWord t (tabIndex va)) s2 = .error e) :
    mapCmd Config.params va s = s2.raise e := by
  simp only [mapCmd_eq s va hw hp, h1, h2, hx, h3, Bool.false_eq_true, if_false]

theorem mapCmd_done (h3 : mapEntry Config.params .data (frameWord t (tabIndex va)) s2 = .ok (s3, d)) :
    mapCmd Config.params va s = s3.finish (d.setWidth 32) := by
  simp only [mapCmd_eq s va hw hp, h1, h2, hx, h3, Bool.false_eq_true, if_false]

end steps

/-- Settles O21: MAP's two checks come first, in this order. -/
theorem mapChecksAlignmentThenContext : Obligations.MapChecksAlignmentThenContext :=
  fun _ _ => ⟨fun h => congrArg Host.Outcome.next (mapCmd_unaligned h),
    fun hw hp => congrArg Host.Outcome.next (mapCmd_noProcess hw hp)⟩

/-- Settles O28: the frame is found before the registry is seen to be full, and neither is written. -/
theorem mapWithAFullRegistry : Obligations.MapWithAFullRegistry := by
  intro s va f hw hp hun hf hfull
  obtain ⟨g, hg⟩ := exists_lowestFree hf
  exact congrArg Host.Outcome.next (mapCmd_dirError hw hp (mapDirectory_noSlot s g hun hg hfull))

/-! ### What MAP's steps leave beside the FrameStore -/

/-- u is s with another FrameStore, with g in ACTIVE_DIR and with the events appended to the trace. -/
def State.rebuilt (s u : State) (g : Frame) (events : List Event) : Prop :=
  ∃ fs : Memory, u = { s with frames := fs, activeDir := g, trace := s.trace ++ events }

section rebuilt
variable {s u : State} {g : Frame} {events : List Event}

theorem rebuilt_reusedDirectory (s : State) (g : Frame) :
    s.rebuilt ((s.setActiveDir g).emit (.struct .dir g .reused)) g [.struct .dir g .reused] := ⟨s.frames, rfl⟩

theorem rebuilt_newDirectory (s : State) (f : Frame) (k : Nat) :
    s.rebuilt (s.newDirectory f k) f [.struct .dir f .new] := ⟨_, newDirectory_eq s f k⟩

variable (h : s.rebuilt u g events)
include h

theorem rebuilt_newEntry (role : Role) (ea : PAddr) (f : Frame) :
    s.rebuilt (u.newEntry role ea f) g (events ++ [.struct role f .new]) := by
  obtain ⟨fs, rfl⟩ := h
  rw [State.rebuilt, ← List.append_assoc]
  exact ⟨_, newEntry_eq _ role ea f⟩

theorem rebuilt_reusedEntry (role : Role) (ea : PAddr) (f : Frame) :
    s.rebuilt (u.reusedEntry role ea f) g (events ++ [.struct role f .reused]) := by
  obtain ⟨fs, rfl⟩ := h
  rw [State.rebuilt, ← List.append_assoc]
  exact ⟨_, reusedEntry_eq _ role ea f⟩

theorem rebuilt_curPid : u.curPid = s.curPid := by
  obtain ⟨fs, rfl⟩ := h
  rfl

theorem rebuilt_activeDir : u.activeDir = g := by
  obtain ⟨fs, rfl⟩ := h
  rfl

theorem finish_of_rebuilt (v : Word) : u.finish v = { s with
    frames := (u.finish v).frames, activeDir := g, rdata := v, status := 0#32, trace := s.trace ++ events } := by
  obtain ⟨fs, rfl⟩ := h
  rfl

theorem raise_of_rebuilt (e : Status) : u.raise e = { s with
    frames := (u.raise e).frames, activeDir := g, rdata := 0#32, status := statusWord e false false
    trace := s.trace ++ events } := by
  obtain ⟨fs, rfl⟩ := h
  rfl

end rebuilt

/-! ### The words above the bitmap -/

theorem ne_bitmapWord {pa : PAddr} (h : 128 ≤ pa.toNat) (f : Frame) : pa ≠ bitmapWord f := by
  rintro rfl
  exact absurd (bitmapWord_lt f) (Nat.not_lt.2 h)

section high
variable (s : State) (ea : PAddr) (f : Frame) {pa : PAddr} (h : 128 ≤ pa.toNat)
include h

theorem mem_newDirectory_high (k : Nat) : (s.newDirectory f k).mem pa
    = if pa = slotAddr Config.params k then regEntry Config.params s.curPid f
      else if frameOf pa = f then 0#32 else s.mem pa := by
  rw [mem_newDirectory, if_neg (ne_bitmapWord h f)]

theorem mem_newTable_high : (s.newEntry .table ea f).mem pa
    = if pa = ea then mapPte Config.params s.curPid f else if frameOf pa = f then 0#32 else s.mem pa := by
  rw [mem_newEntry, if_neg (ne_bitmapWord h f)]
  simp only [true_and]

theorem mem_newData_high : (s.newEntry .data ea f).mem pa
    = if pa = ea then mapPte Config.params s.curPid f else s.mem pa := by
  rw [mem_newEntry, if_neg (ne_bitmapWord h f)]
  simp only [reduceCtorEq, false_and, if_false]

end high

/-! ### A process with no Directory -/

section newProcess
variable {s : State} {f t : Frame} {k : Nat} (hk : k < 3584) (hf : 16 ≤ f.toNat) (ht : 16 ≤ t.toNat)

/-- Steps 1 and 2 of MAP with a new Directory f and a new Table t. -/
def State.newTwoLevels (s : State) (f : Frame) (k : Nat) (i : Offset) (t : Frame) : State :=
  (s.newDirectory f k).newEntry .table (frameWord f i) t

include hk hf in
theorem mapTable_newDirectory {i : Offset} (hfree : (s.newDirectory f k).lowestFree t) :
    mapEntry Config.params .table (frameWord f i) (s.newDirectory f k)
      = .ok (s.newTwoLevels f k i t, t) := by
  refine mapEntry_new _ _ _ _ ?_ hfree
  rw [newDirectory_entry s f k f i hk hf, if_pos rfl, entryFrame_zero]

include ht in
theorem newTwoLevels_table_empty {i j : Offset} (hne : t ≠ f) :
    entryFrame ((s.newTwoLevels f k i t).mem (frameWord t j)) = 0#12 := by
  rw [State.newTwoLevels, newEntry_entry _ .table f i t t j ht, if_neg fun h => hne h.1, if_pos ⟨rfl, rfl⟩,
    entryFrame_zero]

include hk hf ht in
theorem frameUsed_newTwoLevels (i : Offset) (g : Frame) :
    (s.newTwoLevels f k i t).frameUsed g = (decide (g = t) || (decide (g = f) || s.frameUsed g)) := by
  rw [State.newTwoLevels,
    frameUsed_newEntry _ _ _ _ _ (frameWord_ge f _ (ne_zero_of_le f hf)) fun _ => ne_zero_of_le t ht,
    frameUsed_newDirectory _ _ _ _ hk (ne_zero_of_le f hf)]

theorem mem_newTwoLevels (i : Offset) {pa : PAddr} (h : 128 ≤ pa.toNat) :
    (s.newTwoLevels f k i t).mem pa
      = if pa = frameWord f i then mapPte Config.params s.curPid t
        else if frameOf pa = t then 0#32
        else if pa = slotAddr Config.params k then regEntry Config.params s.curPid f
        else if frameOf pa = f then 0#32 else s.mem pa := by
  rw [State.newTwoLevels, mem_newTable_high _ _ _ h, mem_newDirectory_high _ _ h]
  rfl

end newProcess

/-- Settles O22: each of the three steps takes the lowest frame that the steps before it left free. -/
theorem mapBuildsAllThreeLevels : Obligations.MapBuildsAllThreeLevels := by
  intro s va f t d k hw hp hun hk hf hft htd f16
  have hlt : f < t := hft.1
  have htd' : t < d := htd.1
  have t16 : 16 ≤ t.toNat := Nat.le_trans f16 (Nat.le_of_lt hlt)
  have d16 : 16 ≤ d.toNat := Nat.le_trans t16 (Nat.le_of_lt htd')
  have used1 := fun g => frameUsed_newDirectory s f g k hk.1 (ne_zero_of_le f f16)
  have used2 := frameUsed_newTwoLevels (s := s) hk.1 f16 t16 (dirIndex va)
  have free1 : (s.newDirectory f k).lowestFree t := lowestFree_of_marked used1 hf hft
  have free2 : (s.newTwoLevels f k (dirIndex va) t).lowestFree d :=
    lowestFree_of_marked (fun g => by rw [used2, used1]) free1 (nextFree_of_marked used1 hlt htd)
  have ne : t ≠ f := (BitVec.ne_of_lt hlt).symm
  refine ⟨_, congrArg Host.Outcome.next (mapCmd_done hw hp (mapDirectory_new s f k hun hf hk)
    (mapTable_newDirectory hk.1 f16 free1) (mapExhausted_free _ _ _ f hf.1)
    (mapEntry_new _ _ _ d (newTwoLevels_table_empty t16 ne) free2)), ?_, fun g => ?_, fun pa hpa => ?_⟩
  · exact finish_of_rebuilt (rebuilt_newEntry (rebuilt_newEntry (rebuilt_newDirectory s f k) _ _ _) _ _ _) _
  · rw [frameUsed_finish, frameUsed_newEntry _ _ _ _ _ (frameWord_ge t _ (ne_zero_of_le t t16)) (by simp), used2]
    grind
  · have hslot := slotAddr_apart k hk.1
    rw [mem_finish, mem_newData_high _ _ _ hpa, mem_newTwoLevels _ hpa, ← mapPte_eq, ← mapPte_eq, ← regEntry_eq]
    have e1 := frameOf_frameWord f (dirIndex va)
    have e2 := frameOf_frameWord t (tabIndex va)
    have e3 := hslot.1 f f16
    have e4 := hslot.1 t t16
    simp only [State.newTwoLevels, State.newEntry_curPid, State.newDirectory_curPid]
    grind

/-! ### A process with a Directory -/

/-- MAP's Step 1 with the registered Directory g: only ACTIVE_DIR and the trace change. -/
def State.reusedDirectory (s : State) (g : Frame) : State :=
  (s.setActiveDir g).emit (.struct .dir g .reused)

/-- Steps 1 and 2 of MAP with a registered Directory g and the Table t that its entry i names. -/
def State.reusedTwoLevels (s : State) (g : Frame) (i : Offset) (t : Frame) : State :=
  (s.reusedDirectory g).reusedEntry .table (frameWord g i) t

/-- Steps 1 and 2 of MAP with a registered Directory g and a new Table t. -/
def State.newTable (s : State) (g : Frame) (i : Offset) (t : Frame) : State :=
  (s.reusedDirectory g).newEntry .table (frameWord g i) t

section registered
variable {s : State} {va : VAddr} {k : Nat} {g t d : Frame}

theorem mapDirectory_registered (hk : s.registeredAt s.curPid k) (hg : g = entryFrame (s.slot k)) :
    mapDirectory Config.params s = .ok (s.reusedDirectory g) := by
  rw [hg]
  exact mapDirectory_reused s k hk

theorem mem_reusedTwoLevels (i : Offset) (pa : PAddr) :
    (s.reusedTwoLevels g i t).mem pa
      = if pa = frameWord g i then mapPte Config.params s.curPid t else s.mem pa :=
  mem_reusedEntry (s.reusedDirectory g) .table (frameWord g i) t pa

/-- The entry's FRAME stays, so the Table's entries name the frames they named. -/
theorem reusedTwoLevels_frame {i : Offset} (ht : t = entryFrame (s.mem (frameWord g i))) (pa : PAddr) :
    entryFrame ((s.reusedTwoLevels g i t).mem pa) = entryFrame (s.mem pa) :=
  reusedEntry_frame (s.reusedDirectory g) .table (frameWord g i) t ht.symm pa

theorem mapTable_reused {i : Offset} (ht : t = entryFrame (s.mem (frameWord g i))) (h0 : t ≠ 0#12) :
    mapEntry Config.params .table (frameWord g i) (s.reusedDirectory g) = .ok (s.reusedTwoLevels g i t, t) :=
  mapEntry_reused (s.reusedDirectory g) .table (frameWord g i) t ht.symm h0

theorem frameUsed_reusedTwoLevels (i : Offset) (f : Frame) (hg : g ≠ 0#12) :
    (s.reusedTwoLevels g i t).frameUsed f = s.frameUsed f :=
  frameUsed_reusedEntry (s.reusedDirectory g) .table _ t f (frameWord_ge g i hg)

theorem rebuilt_reusedTwoLevels (i : Offset) : s.rebuilt (s.reusedTwoLevels g i t) g
    [.struct .dir g .reused, .struct .table t .reused] :=
  rebuilt_reusedEntry (rebuilt_reusedDirectory s g) .table _ t

theorem mapTable_new {i : Offset} (h0 : entryFrame (s.mem (frameWord g i)) = 0#12) (ht : s.lowestFree t) :
    mapEntry Config.params .table (frameWord g i) (s.reusedDirectory g) = .ok (s.newTable g i t, t) :=
  mapEntry_new (s.reusedDirectory g) .table (frameWord g i) t h0 ht

theorem mem_newTable (i : Offset) {pa : PAddr} (h : 128 ≤ pa.toNat) :
    (s.newTable g i t).mem pa
      = if pa = frameWord g i then mapPte Config.params s.curPid t
        else if frameOf pa = t then 0#32 else s.mem pa :=
  mem_newTable_high (s.reusedDirectory g) (frameWord g i) t h

theorem newTable_table_empty {i j : Offset} (ht : 16 ≤ t.toNat) (hne : t ≠ g) :
    entryFrame ((s.newTable g i t).mem (frameWord t j)) = 0#12 := by
  rw [State.newTable, newEntry_entry _ .table g i t t j ht, if_neg fun h => hne h.1, if_pos ⟨rfl, rfl⟩,
    entryFrame_zero]

theorem frameUsed_newTable (i : Offset) (f : Frame) (hg : g ≠ 0#12) (ht : t ≠ 0#12) :
    (s.newTable g i t).frameUsed f = (decide (f = t) || s.frameUsed f) :=
  frameUsed_newEntry (s.reusedDirectory g) .table _ t f (frameWord_ge g i hg) fun _ => ht

theorem rebuilt_newTable (i : Offset) : s.rebuilt (s.newTable g i t) g
    [.struct .dir g .reused, .struct .table t .new] :=
  rebuilt_newEntry (rebuilt_reusedDirectory s g) .table _ t

end registered

/-- Settles O23: both entries already name their frames, so each step writes its entry back and scans nothing. -/
theorem mapReusesAMappedAddress : Obligations.MapReusesAMappedAddress := by
  intro s va k g t d hw hp hk hg ht t0 hd d0
  have hdata : entryFrame ((s.reusedTwoLevels g (dirIndex va) t).mem (frameWord t (tabIndex va))) = d :=
    (reusedTwoLevels_frame ht _).trans hd.symm
  have h3 := mapEntry_reused _ .data _ d hdata d0
  have hx := mapExhausted_reused s _ _ (hdata.trans_ne d0)
  refine ⟨_, congrArg Host.Outcome.next
    (mapCmd_done hw hp (mapDirectory_registered hk hg) (mapTable_reused ht t0) hx h3), ?_, fun pa => ?_⟩
  · exact finish_of_rebuilt (rebuilt_reusedEntry (rebuilt_reusedTwoLevels _) .data _ d) _
  · rw [mem_finish, mem_reusedEntry, mem_reusedTwoLevels, rebuilt_curPid (rebuilt_reusedTwoLevels _), ← mapPte_eq,
      ← mapPte_eq]

/-- Settles O24: the Table is reused and the data frame is the lowest free one. -/
theorem mapAddsAPageToATable : Obligations.MapAddsAPageToATable := by
  intro s va k g t d hw hp hk hg g16 ht t16 hd hfree
  have g0 := ne_zero_of_le g g16
  have t0 := ne_zero_of_le t t16
  have used2 := fun f => frameUsed_reusedTwoLevels (s := s) (t := t) (dirIndex va) f g0
  have free2 : (s.reusedTwoLevels g (dirIndex va) t).lowestFree d := by
    simpa only [State.lowestFree, used2] using hfree
  have h3 := mapEntry_new _ .data _ d ((reusedTwoLevels_frame ht (frameWord t (tabIndex va))).trans hd) free2
  refine ⟨_, congrArg Host.Outcome.next (mapCmd_done hw hp (mapDirectory_registered hk hg) (mapTable_reused ht t0)
    (mapExhausted_free _ _ _ d hfree.1) h3), ?_, fun f => ?_, fun pa hpa => ?_⟩
  · exact finish_of_rebuilt (rebuilt_newEntry (rebuilt_reusedTwoLevels _) .data _ d) _
  · rw [frameUsed_finish, frameUsed_newEntry _ _ _ _ _ (frameWord_ge t _ t0) (by simp), used2]
  · rw [mem_finish, mem_newData_high _ _ _ hpa, mem_reusedTwoLevels, rebuilt_curPid (rebuilt_reusedTwoLevels _),
      ← mapPte_eq, ← mapPte_eq]

/-- Settles O25: the new Table is zero-filled, so its entry is empty and a data frame is taken after it. -/
theorem mapAddsATableToADirectory : Obligations.MapAddsATableToADirectory := by
  intro s va k g t d hw hp hk hg g16 hused h0 hfree hnext t16
  have g0 := ne_zero_of_le g g16
  have t0 := ne_zero_of_le t t16
  have hne : t ≠ g := by
    rintro rfl
    rw [hfree.1] at hused
    cases hused
  have used2 := fun f => frameUsed_newTable (s := s) (dirIndex va) f g0 t0
  have free2 : (s.newTable g (dirIndex va) t).lowestFree d := lowestFree_of_marked used2 hfree hnext
  have h3 := mapEntry_new _ .data _ d
    (newTable_table_empty (s := s) (i := dirIndex va) (j := tabIndex va) t16 hne) free2
  refine ⟨_, congrArg Host.Outcome.next (mapCmd_done hw hp (mapDirectory_registered hk hg) (mapTable_new h0 hfree)
    (mapExhausted_free _ _ _ t hfree.1) h3), ?_, fun f => ?_, fun pa hpa => ?_⟩
  · exact finish_of_rebuilt (rebuilt_newEntry (rebuilt_newTable _) .data _ d) _
  · rw [frameUsed_finish, frameUsed_newEntry _ _ _ _ _ (frameWord_ge t _ t0) (by simp), used2,
      Bool.decide_or, Bool.or_left_comm, Bool.or_assoc]
  · have hdpa : frameOf (frameWord g (dirIndex va)) ≠ t := by rw [frameOf_frameWord]; exact hne.symm
    rw [mem_finish, mem_newData_high _ _ _ hpa, mem_newTable _ hpa, rebuilt_curPid (rebuilt_newTable _),
      ← mapPte_eq, ← mapPte_eq]
    grind

/-! ### MAP that runs out of frames -/

/-- Settles O26: no step that needs a frame finds one, and a Directory entry rewritten on the way is put back. -/
theorem mapWithEveryFrameUsed : Obligations.MapWithEveryFrameUsed := by
  refine fun s va hw hp hall => ⟨fun hun => ?_, fun k g hk hg h0 => ?_, fun k g t hk hg ht t0 h0 => ?_⟩
  · exact congrArg Host.Outcome.next (mapCmd_dirError hw hp (mapDirectory_noFrame s hun hall))
  · exact congrArg Host.Outcome.next (mapCmd_tableError hw hp (mapDirectory_registered hk hg)
      (mapEntry_noFrame (s.reusedDirectory g) .table _ h0 hall))
  · have hx : mapExhausted Config.params s (s.reusedTwoLevels g (dirIndex va) t) (frameWord t (tabIndex va)) = true :=
      (mapExhausted_iff _ _ _).2 ⟨(reusedTwoLevels_frame ht _).trans h0, hall⟩
    obtain ⟨fs, hfs⟩ := rebuilt_reusedTwoLevels (s := s) (g := g) (t := t) (dirIndex va)
    have h2 := mapTable_reused ht t0
    rw [hfs] at hx h2
    exact congrArg Host.Outcome.next (mapCmd_exhausted hw hp (mapDirectory_registered hk hg) h2 hx)

/-- Settles O27: the steps that found a frame stay done, and the first one that finds none ends the command. -/
theorem partialMapIsNotRolledBack : Obligations.PartialMapIsNotRolledBack := by
  refine fun s va f k hw hp hf f16 =>
    ⟨fun hun hk hused => ?_, fun t hun hk hlt ht hused => ?_, fun g hk hg g0 hgf h0 hused => ?_⟩
  · have hfree := lowestFree_of_only hf hused
    have all1 := allFramesUsed_of_marked (fun x => frameUsed_newDirectory s f x k hk.1 (ne_zero_of_le f f16)) hused
    have h2 := mapEntry_noFrame (s.newDirectory f k) .table (frameWord f (dirIndex va))
      (by rw [newDirectory_entry s f k f _ hk.1 f16, if_pos rfl, entryFrame_zero]) all1
    refine ⟨_, congrArg Host.Outcome.next (mapCmd_tableError hw hp (mapDirectory_new s f k hun hfree hk) h2),
      raise_of_rebuilt (rebuilt_newDirectory s f k) .outOfFrames, all1, fun pa hpa => ?_⟩
    rw [mem_raise, mem_newDirectory_high _ _ hpa, ← regEntry_eq]
  · have t16 : 16 ≤ t.toNat := Nat.le_trans f16 (Nat.le_of_lt hlt)
    have hne : t ≠ f := (BitVec.ne_of_lt hlt).symm
    have hfree : s.lowestFree f := ⟨hf, fun g hg =>
      hused g (BitVec.ne_of_lt hg) (BitVec.ne_of_lt (BitVec.lt_trans hg hlt))⟩
    have hnext : s.nextFree f t := ⟨hlt, ht, fun g hg hgt =>
      hused g (BitVec.ne_of_lt hg).symm (BitVec.ne_of_lt hgt)⟩
    have used1 := fun x => frameUsed_newDirectory s f x k hk.1 (ne_zero_of_le f f16)
    have free1 : (s.newDirectory f k).lowestFree t := lowestFree_of_marked used1 hfree hnext
    have used2 := frameUsed_newTwoLevels (s := s) hk.1 f16 t16 (dirIndex va)
    have all2 : (s.newTwoLevels f k (dirIndex va) t).allFramesUsed := by
      refine allFramesUsed_of_marked (s := s.newDirectory f k) (fun x => by rw [used2, used1]) fun x hx => ?_
      rw [used1, Bool.or_eq_true, decide_eq_true_eq]
      exact or_iff_not_imp_left.2 fun hxf => hused x hxf hx
    have h3 := mapEntry_noFrame _ .data _ (newTwoLevels_table_empty (s := s) (k := k) (i := dirIndex va)
      (j := tabIndex va) t16 hne) all2
    refine ⟨_, congrArg Host.Outcome.next (mapCmd_dataError hw hp (mapDirectory_new s f k hun hfree hk)
      (mapTable_newDirectory hk.1 f16 free1) (mapExhausted_free _ _ _ f hf) h3),
      raise_of_rebuilt (rebuilt_newEntry (rebuilt_newDirectory s f k) _ _ _) .outOfFrames, all2, fun pa hpa => ?_⟩
    obtain ⟨hslot, -, -⟩ := slotAddr_apart k hk.1
    have hslotf := hslot f f16
    have hslott := hslot t t16
    have hdpa := frameOf_frameWord f (dirIndex va)
    rw [mem_raise, mem_newTwoLevels _ hpa, ← regEntry_eq, ← mapPte_eq]
    grind
  · have f0 := ne_zero_of_le f f16
    have hfree := lowestFree_of_only hf hused
    have used2 := fun x => frameUsed_newTable (s := s) (dirIndex va) x g0 f0
    have all2 : (s.newTable g (dirIndex va) f).allFramesUsed := allFramesUsed_of_marked used2 hused
    have h3 := mapEntry_noFrame _ .data _ (newTable_table_empty (s := s) (i := dirIndex va)
      (j := tabIndex va) f16 hgf.symm) all2
    refine ⟨_, congrArg Host.Outcome.next (mapCmd_dataError hw hp (mapDirectory_registered hk hg)
      (mapTable_new h0 hfree) (mapExhausted_free _ _ _ f hf) h3),
      raise_of_rebuilt (rebuilt_newTable _) .outOfFrames, all2, fun pa hpa => ?_⟩
    rw [mem_raise, mem_newTable _ hpa, ← mapPte_eq]
    rfl

end Sys2Proof.Machine

/-! MAP whatever its operands are: how it can end, what it leaves unchanged, and that it keeps the forest of structures
(spec/20_memory.md R38, R66). -/

namespace Sys2Proof.Machine

/-! ### How MAP can end -/

/-- MAP's ends, with the states its steps went through (R87): turned away before any change, out of frames at Step 2
or 3, or done. -/
inductive MapEnds (s : State) (va : VAddr) : State → Prop
  | turnedAway (e : Status) (he : e ≠ .ok) : MapEnds s va (s.raise e)
  | noTable (s1 : State) (hw : wordOffset va = 0#8) (hp : s.curPid ≠ 0#8)
      (h1 : mapDirectory Config.params s = .ok s1)
      (h2 : mapEntry Config.params .table (frameWord s1.activeDir (dirIndex va)) s1 = .error .outOfFrames) :
      MapEnds s va (s1.raise .outOfFrames)
  | exhausted (s1 s2 : State) (t : Frame) (hw : wordOffset va = 0#8) (hp : s.curPid ≠ 0#8)
      (h1 : mapDirectory Config.params s = .ok s1)
      (h2 : mapEntry Config.params .table (frameWord s1.activeDir (dirIndex va)) s1 = .ok (s2, t)) :
      MapEnds s va ({ s2 with frames := s.frames }.raise .outOfFrames)
  | noData (s1 s2 : State) (t : Frame) (hw : wordOffset va = 0#8) (hp : s.curPid ≠ 0#8)
      (h1 : mapDirectory Config.params s = .ok s1)
      (h2 : mapEntry Config.params .table (frameWord s1.activeDir (dirIndex va)) s1 = .ok (s2, t))
      (hx : mapExhausted Config.params s s2 (frameWord t (tabIndex va)) = false)
      (h3 : mapEntry Config.params .data (frameWord t (tabIndex va)) s2 = .error .outOfFrames) :
      MapEnds s va (s2.raise .outOfFrames)
  | done (s1 s2 s3 : State) (t d : Frame) (hw : wordOffset va = 0#8) (hp : s.curPid ≠ 0#8)
      (h1 : mapDirectory Config.params s = .ok s1)
      (h2 : mapEntry Config.params .table (frameWord s1.activeDir (dirIndex va)) s1 = .ok (s2, t))
      (hx : mapExhausted Config.params s s2 (frameWord t (tabIndex va)) = false)
      (h3 : mapEntry Config.params .data (frameWord t (tabIndex va)) s2 = .ok (s3, d)) :
      MapEnds s va (s3.finish (d.setWidth 32))

theorem mapDirectory_error {s : State} {e : Status} (h : mapDirectory Config.params s = .error e) : e ≠ .ok := by
  rcases mapDirectory_cases s with ⟨k, -, h'⟩ | ⟨f, k, -, -, -, h'⟩ | ⟨-, -, h'⟩ | ⟨-, -, h'⟩ <;>
    rw [h'] at h <;> cases h <;> decide

theorem mapEntry_error {s : State} {role : Role} {ea : PAddr} {e : Status}
    (h : mapEntry Config.params role ea s = .error e) : e = .outOfFrames := by
  rcases mapEntry_cases s role ea with ⟨f, -, -, h'⟩ | ⟨-, -, h'⟩ | ⟨f, -, -, h'⟩ <;>
    rw [h'] at h <;> cases h
  rfl

/-- Every MAP ends in one of these ways. -/
theorem mapCmd_ends (s : State) (va : VAddr) : MapEnds s va (mapCmd Config.params va s) := by
  by_cases hw : wordOffset va = 0#8
  case neg =>
    rw [mapCmd_unaligned hw]
    exact .turnedAway _ (by decide)
  by_cases hp : s.curPid = 0#8
  case pos =>
    rw [mapCmd_noProcess hw hp]
    exact .turnedAway _ (by decide)
  cases h1 : mapDirectory Config.params s with
  | error e =>
    rw [mapCmd_dirError hw hp h1]
    exact .turnedAway e (mapDirectory_error h1)
  | ok s1 =>
    cases h2 : mapEntry Config.params .table (frameWord s1.activeDir (dirIndex va)) s1 with
    | error e =>
      obtain rfl := mapEntry_error h2
      rw [mapCmd_tableError hw hp h1 h2]
      exact .noTable s1 hw hp h1 h2
    | ok p =>
      obtain ⟨s2, t⟩ := p
      cases hx : mapExhausted Config.params s s2 (frameWord t (tabIndex va)) with
      | true =>
        rw [mapCmd_exhausted hw hp h1 h2 hx]
        exact .exhausted s1 s2 t hw hp h1 h2
      | false =>
        cases h3 : mapEntry Config.params .data (frameWord t (tabIndex va)) s2 with
        | error e =>
          obtain rfl := mapEntry_error h3
          rw [mapCmd_dataError hw hp h1 h2 hx h3]
          exact .noData s1 s2 t hw hp h1 h2 hx h3
        | ok p =>
          obtain ⟨s3, d⟩ := p
          rw [mapCmd_done hw hp h1 h2 hx h3]
          exact .done s1 s2 s3 t d hw hp h1 h2 hx h3

/-! ### What a step that succeeds has done -/

/-- Step 1 found the registered Directory or built a new one. -/
theorem mapDirectory_ok {s s1 : State} (h : mapDirectory Config.params s = .ok s1) :
    (∃ k, s.registeredAt s.curPid k ∧ s1 = s.reusedDirectory (entryFrame (s.slot k))) ∨
    (∃ f k, s.unregistered s.curPid ∧ s.lowestFree f ∧ s.lowestFreeSlot k ∧ s1 = s.newDirectory f k) := by
  rcases mapDirectory_cases s with ⟨k, hk, h'⟩ | ⟨f, k, hun, hf, hk, h'⟩ | ⟨-, -, h'⟩ | ⟨-, -, h'⟩ <;>
    rw [h'] at h <;> cases h
  · exact .inl ⟨k, hk, rfl⟩
  · exact .inr ⟨f, k, hun, hf, hk, rfl⟩

/-- Step 2 or 3 filled an empty entry with the lowest free frame or wrote the entry's own frame back. -/
theorem mapEntry_ok {s u : State} {role : Role} {ea : PAddr} {f : Frame}
    (h : mapEntry Config.params role ea s = .ok (u, f)) :
    (entryFrame (s.mem ea) = 0#12 ∧ s.lowestFree f ∧ u = s.newEntry role ea f) ∨
    (f ≠ 0#12 ∧ entryFrame (s.mem ea) = f ∧ u = s.reusedEntry role ea f) := by
  rcases mapEntry_cases s role ea with ⟨f', he, hf, h'⟩ | ⟨-, -, h'⟩ | ⟨f', hf, he, h'⟩ <;>
    rw [h'] at h <;> cases h
  · exact .inl ⟨he, hf, rfl⟩
  · exact .inr ⟨hf, he, rfl⟩

theorem rebuilt_mapDirectory {s s1 : State} (h : mapDirectory Config.params s = .ok s1) :
    ∃ g events, s.rebuilt s1 g events := by
  rcases mapDirectory_ok h with ⟨k, -, rfl⟩ | ⟨f, k, -, -, -, rfl⟩
  · exact ⟨_, _, rebuilt_reusedDirectory s _⟩
  · exact ⟨_, _, rebuilt_newDirectory s f k⟩

theorem rebuilt_mapEntry {s s1 u : State} {role : Role} {ea : PAddr} {f g : Frame} {events : List Event}
    (hs : s.rebuilt s1 g events) (h : mapEntry Config.params role ea s1 = .ok (u, f)) :
    ∃ events', s.rebuilt u g events' := by
  rcases mapEntry_ok h with ⟨-, -, rfl⟩ | ⟨-, -, rfl⟩
  · exact ⟨_, rebuilt_newEntry hs role ea f⟩
  · exact ⟨_, rebuilt_reusedEntry hs role ea f⟩

/-- What MAP can change beside the FrameStore: ACTIVE_DIR, STATUS, RDATA and the trace (R87, R105). -/
theorem MapEnds.registers {s u : State} {va : VAddr} (hend : MapEnds s va u) :
    ∃ (fs : Memory) (g : Frame) (events : List Event) (st : Status) (v : Word), (st ≠ .ok → v = 0#32) ∧
      u = { s with
        frames := fs, activeDir := g, trace := s.trace ++ events
        status := statusWord st false false, rdata := v } := by
  cases hend with
  | turnedAway e => exact ⟨s.frames, s.activeDir, [], e, 0#32, fun _ => rfl, by rw [List.append_nil]; rfl⟩
  | noTable s1 hw hp h1 h2 =>
    obtain ⟨g, events, h⟩ := rebuilt_mapDirectory h1
    exact ⟨_, g, events, .outOfFrames, 0#32, fun _ => rfl, raise_of_rebuilt h _⟩
  | exhausted s1 s2 t hw hp h1 h2 =>
    obtain ⟨g, events, h⟩ := rebuilt_mapDirectory h1
    obtain ⟨events, fs, rfl⟩ := rebuilt_mapEntry h h2
    exact ⟨s.frames, g, events, .outOfFrames, 0#32, fun _ => rfl, rfl⟩
  | noData s1 s2 t hw hp h1 h2 hx h3 =>
    obtain ⟨g, events, h⟩ := rebuilt_mapDirectory h1
    obtain ⟨events, h⟩ := rebuilt_mapEntry h h2
    exact ⟨_, g, events, .outOfFrames, 0#32, fun _ => rfl, raise_of_rebuilt h _⟩
  | done s1 s2 s3 t d hw hp h1 h2 hx h3 =>
    obtain ⟨g, events, h⟩ := rebuilt_mapDirectory h1
    obtain ⟨events, h⟩ := rebuilt_mapEntry h h2
    obtain ⟨events, h⟩ := rebuilt_mapEntry h h3
    exact ⟨_, g, events, .ok, _, fun h => absurd rfl h, finish_of_rebuilt h _⟩

/-! ### The words MAP leaves -/

theorem mem_mapDirectory {s s1 : State} {pa : PAddr} (h : mapDirectory Config.params s = .ok s1)
    (hpa : s.mapDirectoryStores pa = false) : s1.mem pa = s.mem pa := by
  rcases mapDirectory_ok h with ⟨k, -, rfl⟩ | ⟨f, k, hun, hf, hk, rfl⟩
  · rfl
  · have hfind := (regFind_eq_none s _).2 hun
    have hscan := (frameScan_eq_some s f).2 hf
    have hslot := (regFreeSlot_eq_some s k).2 hk
    unfold State.mapDirectoryStores at hpa
    simp only [hfind, hscan, hslot, Bool.or_eq_false_iff, beq_eq_false_iff_ne] at hpa
    obtain ⟨⟨hbit, hframe⟩, hslot⟩ := hpa
    rw [mem_newDirectory, if_neg hslot, if_neg hframe, if_neg hbit]

theorem mem_mapEntry {s u : State} {role : Role} {ea pa : PAddr} {f : Frame}
    (h : mapEntry Config.params role ea s = .ok (u, f)) (hpa : s.mapEntryStores role ea pa = false) :
    u.mem pa = s.mem pa := by
  rcases mapEntry_ok h with ⟨he, hf, rfl⟩ | ⟨hf, he, rfl⟩
  · simp only [State.mapEntryStores, he, (frameScan_eq_some s f).2 hf, if_true, Bool.or_eq_false_iff,
      beq_eq_false_iff_ne, Bool.and_eq_false_iff] at hpa
    obtain ⟨⟨hea, hbit⟩, hzero⟩ := hpa
    rw [mem_newEntry, if_neg hea, if_neg (not_and_or.2 hzero), if_neg hbit]
  · rw [State.mapEntryStores, if_neg (he.trans_ne hf), beq_eq_false_iff_ne] at hpa
    rw [mem_reusedEntry, if_neg hpa]

/-- MAP's words, end by end. -/
theorem MapEnds.mem_of_notStored {s u : State} {va : VAddr} {pa : PAddr} (hend : MapEnds s va u)
    (hpa : s.mapStores va pa = false) : u.mem pa = s.mem pa := by
  cases hend with
  | turnedAway e => rfl
  | noTable s1 hw hp h1 h2 =>
    simp only [State.mapStores, frameAligned, hw, hp, h1, h2, beq_self_eq_true, Bool.not_true, Bool.false_or,
      beq_iff_eq, if_false] at hpa
    exact mem_mapDirectory (s1 := s1) h1 hpa
  | exhausted s1 s2 t hw hp h1 h2 => rfl
  | noData s1 s2 t hw hp h1 h2 hx h3 =>
    simp only [State.mapStores, frameAligned, hw, hp, h1, h2, hx, beq_self_eq_true, Bool.not_true, Bool.false_or,
      beq_iff_eq, if_false, Bool.not_false, Bool.true_and, Bool.or_eq_false_iff] at hpa
    exact (mem_mapEntry h2 hpa.1.2).trans (mem_mapDirectory h1 hpa.1.1)
  | done s1 s2 s3 t d hw hp h1 h2 hx h3 =>
    simp only [State.mapStores, frameAligned, hw, hp, h1, h2, hx, beq_self_eq_true, Bool.not_true, Bool.false_or,
      beq_iff_eq, if_false, Bool.not_false, Bool.true_and, Bool.or_eq_false_iff] at hpa
    exact (mem_mapEntry h3 hpa.2).trans ((mem_mapEntry h2 hpa.1.2).trans (mem_mapDirectory h1 hpa.1.1))

/-- Settles O29: the registers MAP can change, and its steps' stores. -/
theorem mapFrame : Obligations.MapFrame := by
  rintro s u va ⟨⟨⟩⟩
  refine ⟨?_, fun pa => (mapCmd_ends s va).mem_of_notStored⟩
  obtain ⟨fs, g, events, st, v, -, h⟩ := (mapCmd_ends s va).registers
  rw [h]
  exact ⟨rfl, rfl, rfl, rfl, rfl, rfl, rfl⟩

/-! ### The forest -/

/-- The structures and the bitmap are the FrameStore's. -/
theorem forest_of_frames {s u : State} (h : u.frames = s.frames) (hs : s.forest) (hc : s.framesConserved) :
    u.forest ∧ u.framesConserved := by
  obtain ⟨hforest, hcons, -⟩ := forest_congr s u (fun k _ => mem_congr s u _ h)
    (fun g i => congrArg entryFrame (mem_congr s u _ h)) (fun f => frameUsed_congr s u f (mem_congr s u _ h)) hs hc
  exact ⟨hforest, hcons⟩

section forest
variable {s u : State} (hs : s.forest) (hc : s.framesConserved)
include hs hc

/-- Step 1 keeps the forest, and ACTIVE_DIR is then one of its Directories. -/
theorem mapDirectory_forest (hp : s.curPid ≠ 0#8) (h : mapDirectory Config.params s = .ok u) :
    u.forest ∧ u.framesConserved ∧ u.isDir u.activeDir := by
  rcases mapDirectory_ok h with ⟨k, ⟨hk, hcarries, -⟩, rfl⟩ | ⟨f, k, -, hf, hk, rfl⟩
  · obtain ⟨hforest, hcons⟩ := forest_of_frames (s := s) (u := s.reusedDirectory (entryFrame (s.slot k))) rfl hs hc
    exact ⟨hforest, hcons, k, hk, hcarries.1, rfl⟩
  · exact newDirectory_forest s f k hs hc hp hf hk

/-- Step 2 keeps the forest, and its frame is then one of the Tables. -/
theorem mapTable_forest {g t : Frame} {i : Offset} (hg : s.isDir g)
    (h : mapEntry Config.params .table (frameWord g i) s = .ok (u, t)) :
    u.forest ∧ u.framesConserved ∧ u.isTable t := by
  rcases mapEntry_ok h with ⟨he, ht, rfl⟩ | ⟨ht, he, rfl⟩
  · exact newTable_forest s g i t hs hc hg he ht
  · obtain ⟨hforest, hcons, -, htables⟩ := reusedEntry_forest s .table g i t hs hc (dir_ge s hs g hg) he
    exact ⟨hforest, hcons, (htables t).2 ⟨g, i, hg, he, ht⟩⟩

/-- Step 3 keeps the forest. -/
theorem mapData_forest {t d : Frame} {j : Offset} (ht : s.isTable t)
    (h : mapEntry Config.params .data (frameWord t j) s = .ok (u, d)) : u.forest ∧ u.framesConserved := by
  rcases mapEntry_ok h with ⟨he, hd, rfl⟩ | ⟨-, he, rfl⟩
  · exact newData_forest s t j d hs hc ht he hd
  · obtain ⟨hforest, hcons, -⟩ := reusedEntry_forest s .data t j d hs hc (table_ge s hs t ht) he
    exact ⟨hforest, hcons⟩

end forest

/-- Wherever MAP ends, the steps it has taken keep the forest (R66). -/
theorem MapEnds.forest {s u : State} {va : VAddr} (hend : MapEnds s va u) (hs : s.forest)
    (hc : s.framesConserved) : u.forest ∧ u.framesConserved := by
  cases hend with
  | turnedAway e => exact forest_of_frames (s := s) rfl hs hc
  | noTable s1 hw hp h1 h2 =>
    obtain ⟨hs1, hc1, -⟩ := mapDirectory_forest hs hc hp h1
    exact forest_of_frames (s := s1) rfl hs1 hc1
  | exhausted s1 s2 t hw hp h1 h2 => exact forest_of_frames (s := s) rfl hs hc
  | noData s1 s2 t hw hp h1 h2 hx h3 =>
    obtain ⟨hs1, hc1, hdir⟩ := mapDirectory_forest hs hc hp h1
    obtain ⟨hs2, hc2, -⟩ := mapTable_forest hs1 hc1 hdir h2
    exact forest_of_frames (s := s2) rfl hs2 hc2
  | done s1 s2 s3 t d hw hp h1 h2 hx h3 =>
    obtain ⟨hs1, hc1, hdir⟩ := mapDirectory_forest hs hc hp h1
    obtain ⟨hs2, hc2, htab⟩ := mapTable_forest hs1 hc1 hdir h2
    obtain ⟨hs3, hc3⟩ := mapData_forest hs2 hc2 htab h3
    exact forest_of_frames (s := s3) rfl hs3 hc3

/-- Settles O39. -/
theorem mapKeepsFramesConserved : Obligations.MapKeepsFramesConserved := by
  rintro s u va hs hc ⟨⟨⟩⟩
  exact (mapCmd_ends s va).forest hs hc

end Sys2Proof.Machine

/-! The UNMAP family (spec/41_map_unmap.md R90 to R92): the cascade level by level, what it leaves unchanged, and
that it keeps the forest of structures. -/

namespace Sys2Proof.Machine

/-! ### How UNMAP can end -/

section levels
variable (s : State) (va : VAddr)

/-- The cascade's first level for va: the data frame freed (R90). -/
def State.freedData : State := s.unmapData (s.tabEntryAddr va) (entryFrame (s.tabEntry va))

/-- The cascade's second level for va: the Table freed too. -/
def State.freedTable : State := (s.freedData va).unmapTable (s.dirEntryAddr va) (entryFrame (s.dirEntry va))

/-- The cascade's third level for va: the Directory freed too. -/
def State.freedDirectory : State := (s.freedTable va).unmapDirectory s.activeDir

end levels

section checks
variable {s : State} {va : VAddr}

theorem unmapCmd_unaligned (h : wordOffset va ≠ 0#8) : unmapCmd Config.params va s = s.raise .alignmentError :=
  if_pos (by simpa [frameAligned] using h)

variable (hw : wordOffset va = 0#8)
include hw

theorem unmapCmd_noContext (hg : s.activeDir.toNat < 16) :
    unmapCmd Config.params va s = s.raise .invalidContext :=
  (if_neg (by simp [frameAligned, hw])).trans (if_pos ((lt_firstFree _).2 hg))

theorem unmapCmd_noTable (hg : 16 ≤ s.activeDir.toNat) (ht : (entryFrame (s.dirEntry va)).toNat < 16) :
    unmapCmd Config.params va s = s.raise .invalidMapping :=
  (if_neg (by simp [frameAligned, hw])).trans
    ((if_neg ((firstFree_le _).2 hg)).trans (if_pos ((lt_firstFree _).2 ht)))

variable (hg : 16 ≤ s.activeDir.toNat) (ht : 16 ≤ (entryFrame (s.dirEntry va)).toNat)
include hg ht

theorem unmapCmd_data (ht' : (s.freedData va).frameEmpty (entryFrame (s.dirEntry va)) = false) :
    unmapCmd Config.params va s = (s.freedData va).finish 0#32 := by
  rw [unmapCmd_eq s va hw hg ht, unmapCascade_eq]
  exact congrArg (State.finish · 0#32) (if_neg (Bool.eq_false_iff.1 ht'))

variable (ht' : (s.freedData va).frameEmpty (entryFrame (s.dirEntry va)) = true)
include ht'

theorem unmapCmd_table (hg' : (s.freedTable va).frameEmpty s.activeDir = false) :
    unmapCmd Config.params va s = (s.freedTable va).finish 0#32 := by
  rw [unmapCmd_eq s va hw hg ht, unmapCascade_eq]
  exact congrArg (State.finish · 0#32) ((if_pos ht').trans (if_neg (Bool.eq_false_iff.1 hg')))

theorem unmapCmd_directory (hg' : (s.freedTable va).frameEmpty s.activeDir = true) :
    unmapCmd Config.params va s = (s.freedDirectory va).finish 0#32 := by
  rw [unmapCmd_eq s va hw hg ht, unmapCascade_eq]
  exact congrArg (State.finish · 0#32) ((if_pos ht').trans (if_pos hg'))

end checks

/-- UNMAP's ends (R90): turned away before any change, or the cascade stopped at one of its levels. -/
inductive UnmapEnds (s : State) (va : VAddr) : State → Prop
  | turnedAway (e : Status) (he : e ≠ .ok) : UnmapEnds s va (s.raise e)
  | data (hw : wordOffset va = 0#8) (hg : 16 ≤ s.activeDir.toNat)
      (ht : 16 ≤ (entryFrame (s.dirEntry va)).toNat)
      (ht' : (s.freedData va).frameEmpty (entryFrame (s.dirEntry va)) = false) :
      UnmapEnds s va ((s.freedData va).finish 0#32)
  | table (hw : wordOffset va = 0#8) (hg : 16 ≤ s.activeDir.toNat)
      (ht : 16 ≤ (entryFrame (s.dirEntry va)).toNat)
      (ht' : (s.freedData va).frameEmpty (entryFrame (s.dirEntry va)) = true)
      (hg' : (s.freedTable va).frameEmpty s.activeDir = false) :
      UnmapEnds s va ((s.freedTable va).finish 0#32)
  | directory (hw : wordOffset va = 0#8) (hg : 16 ≤ s.activeDir.toNat)
      (ht : 16 ≤ (entryFrame (s.dirEntry va)).toNat)
      (ht' : (s.freedData va).frameEmpty (entryFrame (s.dirEntry va)) = true)
      (hg' : (s.freedTable va).frameEmpty s.activeDir = true) :
      UnmapEnds s va ((s.freedDirectory va).finish 0#32)

/-- Every UNMAP ends in one of these ways. -/
theorem unmapCmd_ends (s : State) (va : VAddr) : UnmapEnds s va (unmapCmd Config.params va s) := by
  by_cases hw : wordOffset va = 0#8
  case neg =>
    rw [unmapCmd_unaligned hw]
    exact .turnedAway _ (by decide)
  by_cases hg : 16 ≤ s.activeDir.toNat
  case neg =>
    rw [unmapCmd_noContext hw (Nat.not_le.1 hg)]
    exact .turnedAway _ (by decide)
  by_cases ht : 16 ≤ (entryFrame (s.dirEntry va)).toNat
  case neg =>
    rw [unmapCmd_noTable hw hg (Nat.not_le.1 ht)]
    exact .turnedAway _ (by decide)
  cases ht' : (s.freedData va).frameEmpty (entryFrame (s.dirEntry va)) with
  | false =>
    rw [unmapCmd_data hw hg ht ht']
    exact .data hw hg ht ht'
  | true =>
    cases hg' : (s.freedTable va).frameEmpty s.activeDir with
    | false =>
      rw [unmapCmd_table hw hg ht ht' hg']
      exact .table hw hg ht ht' hg'
    | true =>
      rw [unmapCmd_directory hw hg ht ht' hg']
      exact .directory hw hg ht ht' hg'

/-- Settles O30: UNMAP's three checks come first, in this order. -/
theorem unmapChecksAlignmentContextMapping : Obligations.UnmapChecksAlignmentContextMapping :=
  fun _ _ => ⟨fun h => congrArg Host.Outcome.next (unmapCmd_unaligned h),
    fun hw hg => congrArg Host.Outcome.next (unmapCmd_noContext hw hg),
    fun hw hg ht => congrArg Host.Outcome.next (unmapCmd_noTable hw hg ht)⟩

/-! ### What the levels leave beside the FrameStore -/

section registers
variable (s : State) (va : VAddr)

theorem rebuilt_freedData : s.rebuilt (s.freedData va) s.activeDir [.release .data (entryFrame (s.tabEntry va))] :=
  ⟨_, unmapData_eq s _ _⟩

theorem rebuilt_freedTable : s.rebuilt (s.freedTable va) s.activeDir
    [.release .data (entryFrame (s.tabEntry va)), .release .table (entryFrame (s.dirEntry va))] := by
  obtain ⟨fs, h⟩ := rebuilt_freedData s va
  rw [State.freedTable, h]
  exact ⟨_, (unmapTable_eq _ _ _).trans (by rw [List.append_assoc]; rfl)⟩

theorem rebuilt_freedDirectory : s.rebuilt (s.freedDirectory va) 0#12
    [.release .data (entryFrame (s.tabEntry va)), .release .table (entryFrame (s.dirEntry va)),
      .release .dir s.activeDir] := by
  obtain ⟨fs, h⟩ := rebuilt_freedTable s va
  rw [State.freedDirectory, h]
  exact ⟨_, (unmapDirectory_eq _ _).trans (by rw [List.append_assoc]; rfl)⟩

end registers

/-- What UNMAP can change beside the FrameStore: ACTIVE_DIR, STATUS, RDATA = 0 and the trace (R90, R105). -/
theorem UnmapEnds.registers {s u : State} {va : VAddr} (hend : UnmapEnds s va u) :
    ∃ (fs : Memory) (g : Frame) (events : List Event) (st : Status), u = { s with
      frames := fs, activeDir := g, trace := s.trace ++ events
      status := statusWord st false false, rdata := 0#32 } := by
  cases hend with
  | turnedAway e => exact ⟨s.frames, s.activeDir, [], e, by rw [List.append_nil]; rfl⟩
  | data => exact ⟨_, _, _, .ok, finish_of_rebuilt (rebuilt_freedData s va) _⟩
  | table => exact ⟨_, _, _, .ok, finish_of_rebuilt (rebuilt_freedTable s va) _⟩
  | directory => exact ⟨_, _, _, .ok, finish_of_rebuilt (rebuilt_freedDirectory s va) _⟩

/-! ### The words the levels leave -/

section words
variable {s : State} {va : VAddr}

theorem mem_freedData_high {pa : PAddr} (h : 128 ≤ pa.toNat) :
    (s.freedData va).mem pa = if pa = s.tabEntryAddr va then 0#32 else s.mem pa := by
  rw [State.freedData, mem_unmapData, if_neg (ne_bitmapWord h _)]

theorem mem_freedTable_high {pa : PAddr} (h : 128 ≤ pa.toNat) :
    (s.freedTable va).mem pa
      = if pa = s.tabEntryAddr va ∨ pa = s.dirEntryAddr va then 0#32 else s.mem pa := by
  rw [State.freedTable, mem_unmapTable, if_neg (ne_bitmapWord h _), mem_freedData_high h]
  grind

variable (hg : 16 ≤ s.activeDir.toNat) (ht : 16 ≤ (entryFrame (s.dirEntry va)).toNat)

include ht in
/-- The Table entry lies in a frame that is not reserved. -/
theorem tabEntryAddr_ge : 4096 ≤ (s.tabEntryAddr va).toNat := by
  rw [State.tabEntryAddr, frameWord_toNat]
  omega

include hg in
theorem dirEntryAddr_ge : 4096 ≤ (s.dirEntryAddr va).toNat := by
  rw [State.dirEntryAddr, frameWord_toNat]
  omega

include hg ht in
theorem mem_freedDirectory_high {pa : PAddr} (h : 128 ≤ pa.toNat) :
    (s.freedDirectory va).mem pa
      = if pa = s.tabEntryAddr va ∨ pa = s.dirEntryAddr va then 0#32
        else if 0x100 ≤ pa.toNat ∧ pa.toNat < 0xF00 ∧ entryFrame (s.mem pa) = s.activeDir then 0#32
        else s.mem pa := by
  rw [State.freedDirectory, mem_unmapDirectory, if_neg (ne_bitmapWord h _), mem_freedTable_high h]
  by_cases hentry : pa = s.tabEntryAddr va ∨ pa = s.dirEntryAddr va
  · have hreg : ¬ pa.toNat < 0xF00 := by
      rcases hentry with rfl | rfl
      · have := tabEntryAddr_ge ht
        omega
      · have := dirEntryAddr_ge (va := va) hg
        omega
    simp only [if_pos hentry, hreg, false_and, and_false, if_false]
  · simp only [if_neg hentry]

include ht in
theorem frameUsed_freedData (f : Frame) :
    (s.freedData va).frameUsed f = (!decide (f = entryFrame (s.tabEntry va)) && s.frameUsed f) :=
  frameUsed_unmapData s _ _ f (Nat.le_trans (by decide) (tabEntryAddr_ge ht))

include hg ht in
theorem frameUsed_freedTable (f : Frame) :
    (s.freedTable va).frameUsed f = (!decide (f = entryFrame (s.dirEntry va)) &&
      (!decide (f = entryFrame (s.tabEntry va)) && s.frameUsed f)) := by
  rw [State.freedTable, frameUsed_unmapTable _ _ _ _ (Nat.le_trans (by decide) (dirEntryAddr_ge hg)),
    frameUsed_freedData ht]

include hg ht in
theorem frameUsed_freedDirectory (f : Frame) :
    (s.freedDirectory va).frameUsed f = (!decide (f = s.activeDir) &&
      (!decide (f = entryFrame (s.dirEntry va)) && (!decide (f = entryFrame (s.tabEntry va)) && s.frameUsed f))) := by
  rw [State.freedDirectory, frameUsed_unmapDirectory, frameUsed_freedTable hg ht]

include ht in
/-- The Table is empty after the first level when its other entries were. -/
theorem freedData_frameEmpty :
    (s.freedData va).frameEmpty (entryFrame (s.dirEntry va)) = true ↔
      ∀ j, j ≠ tabIndex va → s.mem (frameWord (entryFrame (s.dirEntry va)) j) = 0#32 := by
  rw [frameEmpty_iff]
  refine forall_congr' fun j => ?_
  rw [mem_freedData_high (frameWord_ge _ j (ne_zero_of_le _ ht)), State.tabEntryAddr]
  by_cases h : j = tabIndex va <;> simp [h, frameWord_inj]

include hg in
/-- The Directory is empty after the second level when its other entries were, if it is not its own Table. -/
theorem freedTable_frameEmpty (hne : entryFrame (s.dirEntry va) ≠ s.activeDir) :
    (s.freedTable va).frameEmpty s.activeDir = true ↔
      ∀ i, i ≠ dirIndex va → s.mem (frameWord s.activeDir i) = 0#32 := by
  rw [frameEmpty_iff]
  refine forall_congr' fun i => ?_
  rw [mem_freedTable_high (frameWord_ge _ i (ne_zero_of_le _ hg)), State.tabEntryAddr, State.dirEntryAddr]
  by_cases h : i = dirIndex va <;> simp [h, hne.symm, frameWord_inj]

end words

/-- Settles O31: the other entry keeps the Table. -/
theorem unmapKeepsATableInUse : Obligations.UnmapKeepsATableInUse := by
  rintro s va j d hw hg ht rfl hj hentry
  have ht' : (s.freedData va).frameEmpty (entryFrame (s.dirEntry va)) = false :=
    Bool.eq_false_iff.2 fun h => hentry ((freedData_frameEmpty ht).1 h j hj)
  refine ⟨_, congrArg Host.Outcome.next (unmapCmd_data hw hg ht ht'), finish_of_rebuilt (rebuilt_freedData s va) _,
    fun f => ?_, fun pa hpa => ?_⟩
  · rw [frameUsed_finish, frameUsed_freedData ht]
  · rw [mem_finish, mem_freedData_high hpa]

/-- Settles O32: the Table is empty, the Directory has another entry. -/
theorem unmapFreesAnEmptyTable : Obligations.UnmapFreesAnEmptyTable := by
  rintro s va i t d hw hg rfl ht hne rfl htab hi hentry
  have hg' : (s.freedTable va).frameEmpty s.activeDir = false :=
    Bool.eq_false_iff.2 fun h => hentry ((freedTable_frameEmpty hg hne).1 h i hi)
  refine ⟨_, congrArg Host.Outcome.next (unmapCmd_table hw hg ht ((freedData_frameEmpty ht).2 htab) hg'),
    finish_of_rebuilt (rebuilt_freedTable s va) _, fun f => ?_, fun pa hpa => ?_⟩
  · rw [frameUsed_finish, frameUsed_freedTable hg ht]
    grind
  · rw [mem_finish, mem_freedTable_high hpa]

/-- Settles O33: Table and Directory are empty, and the sweep looks at the registry as it was. -/
theorem unmapFreesAnEmptyDirectory : Obligations.UnmapFreesAnEmptyDirectory := by
  rintro s va g t d hw rfl hg rfl ht hne rfl htab hdir
  refine ⟨_, congrArg Host.Outcome.next (unmapCmd_directory hw hg ht ((freedData_frameEmpty ht).2 htab)
    ((freedTable_frameEmpty hg hne).2 hdir)), finish_of_rebuilt (rebuilt_freedDirectory s va) _, fun f => ?_,
    fun pa hpa => ?_⟩
  · rw [frameUsed_finish, frameUsed_freedDirectory hg ht]
    grind
  · rw [mem_finish, mem_freedDirectory_high hg ht hpa]

theorem finish_ok (s : State) (v : Word) : (s.finish v).status = 0#32 := rfl

/-- After an UNMAP that found its Table, the bit of the frame its Table entry named is 0, however far the cascade
went. -/
theorem unmapCmd_frees {s : State} {va : VAddr} (hw : wordOffset va = 0#8) (hg : 16 ≤ s.activeDir.toNat)
    (ht : 16 ≤ (entryFrame (s.dirEntry va)).toNat) :
    (unmapCmd Config.params va s).status = 0#32 ∧
      (unmapCmd Config.params va s).frameUsed (entryFrame (s.tabEntry va)) = false := by
  cases ht' : (s.freedData va).frameEmpty (entryFrame (s.dirEntry va)) with
  | false =>
    rw [unmapCmd_data hw hg ht ht', frameUsed_finish, frameUsed_freedData ht]
    exact ⟨finish_ok _ _, by simp⟩
  | true =>
    cases hg' : (s.freedTable va).frameEmpty s.activeDir with
    | false =>
      rw [unmapCmd_table hw hg ht ht' hg', frameUsed_finish, frameUsed_freedTable hg ht]
      exact ⟨finish_ok _ _, by simp⟩
    | true =>
      rw [unmapCmd_directory hw hg ht ht' hg', frameUsed_finish, frameUsed_freedDirectory hg ht]
      exact ⟨finish_ok _ _, by simp⟩

/-- Settles O34: the zero entry names frame 0, which is then the lowest free frame. -/
theorem unmapOfAZeroEntryFreesFrameZero : Obligations.UnmapOfAZeroEntryFreesFrameZero := by
  intro s va hw hg ht hzero
  obtain ⟨hok, hfree⟩ := unmapCmd_frees hw hg ht
  rw [hzero, entryFrame_zero] at hfree
  have hlow : (unmapCmd Config.params va s).lowestFree 0#12 :=
    ⟨hfree, fun g hg => absurd hg (Nat.not_lt_zero g.toNat)⟩
  exact ⟨_, _, rfl, hok, hfree, congrArg Host.Outcome.next (fallocCmd_lowestFree hlow), rfl, rfl⟩

/-! ### The words UNMAP leaves -/

section notStored
variable {s : State} {va : VAddr} {pa : PAddr}

/-- The stores of an UNMAP that passes its checks, by the cascade's own levels. -/
theorem unmapStores_eq (hw : wordOffset va = 0#8) (hg : 16 ≤ s.activeDir.toNat)
    (ht : 16 ≤ (entryFrame (s.dirEntry va)).toNat) :
    s.unmapStores va pa =
      (pa == bitmapWord (entryFrame (s.tabEntry va)) || pa == s.tabEntryAddr va ||
        (s.freedData va).frameEmpty (entryFrame (s.dirEntry va)) &&
          (pa == bitmapWord (entryFrame (s.dirEntry va)) || pa == s.dirEntryAddr va ||
            (s.freedTable va).frameEmpty s.activeDir && (pa == bitmapWord s.activeDir ||
              decide (0x100 ≤ pa.toNat ∧ pa.toNat < 0xF00) &&
                entryFrame ((s.freedTable va).mem pa) == s.activeDir))) :=
  if_neg (by simp [frameAligned, hw, (firstFree_le _).2 hg, (firstFree_le _).2 ht])

/-- An address that UNMAP does not store to, level by level: no store of a level that is reached. -/
theorem not_unmapStored (hw : wordOffset va = 0#8) (hg : 16 ≤ s.activeDir.toNat)
    (ht : 16 ≤ (entryFrame (s.dirEntry va)).toNat) (hpa : s.unmapStores va pa = false) :
    pa ≠ bitmapWord (entryFrame (s.tabEntry va)) ∧ pa ≠ s.tabEntryAddr va ∧
    ((s.freedData va).frameEmpty (entryFrame (s.dirEntry va)) = true →
      pa ≠ bitmapWord (entryFrame (s.dirEntry va)) ∧ pa ≠ s.dirEntryAddr va ∧
      ((s.freedTable va).frameEmpty s.activeDir = true →
        pa ≠ bitmapWord s.activeDir ∧
        ¬ (0x100 ≤ pa.toNat ∧ pa.toNat < 0xF00 ∧ entryFrame ((s.freedTable va).mem pa) = s.activeDir))) := by
  rw [unmapStores_eq hw hg ht] at hpa
  simp only [Bool.or_eq_false_iff, Bool.and_eq_false_imp, beq_eq_false_iff_ne, decide_eq_true_eq] at hpa
  obtain ⟨⟨hd, htpa⟩, htab⟩ := hpa
  refine ⟨hd, htpa, fun ht' => ?_⟩
  obtain ⟨⟨ht, hdpa⟩, hdir⟩ := htab ht'
  refine ⟨ht, hdpa, fun hg' => ?_⟩
  obtain ⟨hg, hslot⟩ := hdir hg'
  exact ⟨hg, fun ⟨hlow, hhigh, hframe⟩ => hslot ⟨hlow, hhigh⟩ hframe⟩

variable (hd : pa ≠ bitmapWord (entryFrame (s.tabEntry va))) (htpa : pa ≠ s.tabEntryAddr va)
include hd htpa

theorem mem_freedData_of_notStored : (s.freedData va).mem pa = s.mem pa := by
  rw [State.freedData, mem_unmapData, if_neg htpa, if_neg hd]

theorem mem_freedTable_of_notStored (ht : pa ≠ bitmapWord (entryFrame (s.dirEntry va)))
    (hdpa : pa ≠ s.dirEntryAddr va) : (s.freedTable va).mem pa = s.mem pa := by
  rw [State.freedTable, mem_unmapTable, if_neg hdpa, if_neg ht, mem_freedData_of_notStored hd htpa]

end notStored

/-- UNMAP's words, level by level. -/
theorem UnmapEnds.mem_of_notStored {s u : State} {va : VAddr} {pa : PAddr} (hend : UnmapEnds s va u)
    (hpa : s.unmapStores va pa = false) : u.mem pa = s.mem pa := by
  cases hend with
  | turnedAway e => rfl
  | data hw hg ht ht' =>
    obtain ⟨hd, htpa, -⟩ := not_unmapStored hw hg ht hpa
    rw [mem_finish, mem_freedData_of_notStored hd htpa]
  | table hw hg ht ht' hg' =>
    obtain ⟨hd, htpa, htab⟩ := not_unmapStored hw hg ht hpa
    obtain ⟨ht, hdpa, -⟩ := htab ht'
    rw [mem_finish, mem_freedTable_of_notStored hd htpa ht hdpa]
  | directory hw hg ht ht' hg' =>
    obtain ⟨hd, htpa, htab⟩ := not_unmapStored hw hg ht hpa
    obtain ⟨ht, hdpa, hdir⟩ := htab ht'
    obtain ⟨hg, hslot⟩ := hdir hg'
    rw [mem_finish, State.freedDirectory, mem_unmapDirectory, if_neg hslot, if_neg hg,
      mem_freedTable_of_notStored hd htpa ht hdpa]

/-- Settles O35: the registers UNMAP can change, and its levels' stores. -/
theorem unmapFrame : Obligations.UnmapFrame := by
  rintro s u va ⟨⟨⟩⟩
  refine ⟨?_, fun pa => (unmapCmd_ends s va).mem_of_notStored⟩
  obtain ⟨fs, g, events, st, h⟩ := (unmapCmd_ends s va).registers
  rw [h]
  exact ⟨rfl, rfl, rfl, rfl, rfl, rfl, rfl⟩

/-! ### The forest -/

/-- A state whose registry entries and links are all another's is a forest if the other is one. -/
theorem forest_of_fewer {s u : State} (hs : s.forest)
    (hslot : ∀ k, k < 3584 → u.slot k ≠ 0#32 → u.slot k = s.slot k)
    (htab : ∀ g i f, u.linksTable g i f → s.linksTable g i f)
    (hdata : ∀ t j f, u.linksData t j f → s.linksData t j f) : u.forest := by
  have dirs : ∀ f, u.isDir f → s.isDir f := by
    rintro f ⟨k, hk, h0, hf⟩
    have same := hslot k hk h0
    rw [same] at h0 hf
    exact ⟨k, hk, h0, hf⟩
  have tables : ∀ f, u.isTable f → s.isTable f := fun f ⟨g, i, h⟩ => ⟨g, i, htab g i f h⟩
  have datas : ∀ f, u.isData f → s.isData f := fun f ⟨t, j, h⟩ => ⟨t, j, hdata t j f h⟩
  exact {
    dir_free := fun f h => hs.dir_free f (dirs f h)
    table_free := fun f h => hs.table_free f (tables f h)
    data_free := fun f h => hs.data_free f (datas f h)
    dir_not_table := fun f h h' => hs.dir_not_table f (dirs f h) (tables f h')
    dir_not_data := fun f h h' => hs.dir_not_data f (dirs f h) (datas f h')
    table_not_data := fun f h h' => hs.table_not_data f (tables f h) (datas f h')
    dir_once := fun j k hj hk h0 h0' he => by
      have same := hslot j hj h0
      have same' := hslot k hk h0'
      rw [same] at h0 he
      rw [same'] at h0' he
      exact hs.dir_once j k hj hk h0 h0' he
    table_once := fun f g g' i i' h h' => hs.table_once f g g' i i' (htab _ _ _ h) (htab _ _ _ h')
    data_once := fun f t t' j j' h h' => hs.data_once f t t' j j' (hdata _ _ _ h) (hdata _ _ _ h') }

/-! Freeing a frame takes its link away: an entry zeroed, or the links of an empty structure. -/

section links
variable {s u : State} {P P' : Frame → Prop} {y z d : Frame} {j : Offset}

/-- With the entry j of y zeroed, every other link is as it was. -/
theorem links_zeroed_iff
    (hmem : ∀ x i, P x → u.mem (frameWord x i) = if x = y ∧ i = j then 0#32 else s.mem (frameWord x i))
    (x : Frame) (i : Offset) (f : Frame) :
    (P x ∧ entryFrame (u.mem (frameWord x i)) = f ∧ f ≠ 0#12) ↔
      (P x ∧ entryFrame (s.mem (frameWord x i)) = f ∧ f ≠ 0#12) ∧ ¬ (x = y ∧ i = j) := by
  rw [and_assoc]
  refine and_congr_right fun hx => ?_
  rw [hmem x i hx]
  by_cases h : x = y ∧ i = j
  · rw [if_pos h, entryFrame_zero]
    exact ⟨fun ⟨he, hf⟩ => absurd he.symm hf, fun ⟨_, hn⟩ => absurd h hn⟩
  · rw [if_neg h]
    exact (and_iff_left h).symm

/-- Without z, which links nothing, the links are as they were. -/
theorem links_emptied_iff (hP : ∀ x, P' x ↔ P x ∧ x ≠ z) (hempty : ∀ i, s.mem (frameWord z i) = 0#32)
    (hmem : ∀ x i, P x → u.mem (frameWord x i) = s.mem (frameWord x i)) (x : Frame) (i : Offset) (f : Frame) :
    (P' x ∧ entryFrame (u.mem (frameWord x i)) = f ∧ f ≠ 0#12) ↔
      (P x ∧ entryFrame (s.mem (frameWord x i)) = f ∧ f ≠ 0#12) := by
  rw [hP, and_assoc]
  refine and_congr_right fun hx => ?_
  rw [hmem x i hx]
  refine and_iff_right_of_imp fun ⟨he, hf⟩ hz => hf ?_
  rw [← he, hz, hempty, entryFrame_zero]

/-- The frame that the removed link named is linked no longer, if it was linked once; the others still are. -/
theorem exists_link_iff {L L' : Frame → Offset → Frame → Prop}
    (h : ∀ x i f, L' x i f ↔ L x i f ∧ ¬ (x = y ∧ i = j)) (once : ∀ x i, L x i d → x = y ∧ i = j)
    (same : ∀ f, L y j f → f = d) (f : Frame) : (∃ x i, L' x i f) ↔ (∃ x i, L x i f) ∧ f ≠ d := by
  constructor
  · rintro ⟨x, i, hlink⟩
    obtain ⟨hlink, hne⟩ := (h x i f).1 hlink
    exact ⟨⟨x, i, hlink⟩, fun e => hne (once x i (e ▸ hlink))⟩
  · rintro ⟨⟨x, i, hlink⟩, hne⟩
    refine ⟨x, i, (h x i f).2 ⟨hlink, ?_⟩⟩
    rintro ⟨rfl, rfl⟩
    exact hne (same f hlink)

/-- Conservation when one frame loses its bit and its role. -/
theorem framesConserved_of_freed (hc : s.framesConserved) (hres : ¬ d < Config.firstFreeFrame)
    (hused : ∀ f, u.frameUsed f = (!decide (f = d) && s.frameUsed f))
    (hdirs : ∀ f, u.isDir f ↔ s.isDir f ∧ f ≠ d) (htabs : ∀ f, u.isTable f ↔ s.isTable f ∧ f ≠ d)
    (hdatas : ∀ f, u.isData f ↔ s.isData f ∧ f ≠ d) : u.framesConserved := by
  intro f
  rw [hused, hdirs, htabs, hdatas, Bool.and_eq_true, hc f, Bool.not_eq_true', decide_eq_false_iff_not]
  by_cases h : f = d
  · simp [h, hres]
  · simp [h]

/-- A role that d does not have is unchanged by dropping d. -/
theorem role_without (h : ∀ f, P' f ↔ P f) (hd : ¬ P d) (f : Frame) : P' f ↔ P f ∧ f ≠ d :=
  (h f).trans (and_iff_left_of_imp fun (hf : P f) (e : f = d) => hd (e ▸ hf)).symm

end links

section freed
variable {s : State} (hs : s.forest) (hc : s.framesConserved)
include hs hc

/-- The data frame d of a Table freed, in a forest. -/
theorem unmapData_forest {t d : Frame} {j : Offset} (hlink : s.linksData t j d) :
    (s.unmapData (frameWord t j) d).forest ∧ (s.unmapData (frameWord t j) d).framesConserved ∧
      ∀ g i f, (s.unmapData (frameWord t j) d).linksTable g i f ↔ s.linksTable g i f := by
  have ht := hlink.1
  have t16 := table_ge s hs t ht
  have hd : s.isData d := ⟨t, j, hlink⟩
  set u := s.unmapData (frameWord t j) d with hu
  have ent : ∀ (x : Frame) (i : Offset), 16 ≤ x.toNat →
      u.mem (frameWord x i) = if x = t ∧ i = j then 0#32 else s.mem (frameWord x i) := by
    intro x i hx
    rw [hu, mem_unmapData, if_neg (ne_bitmapWord (frameWord_ge x i (ne_zero_of_le x hx)) d)]
    simp only [frameWord_inj]
  have slot : s.sameSlots u := by
    intro k hk
    obtain ⟨-, hbit, hentry⟩ := slotAddr_apart k hk
    rw [hu, State.slot, mem_unmapData, if_neg (hentry t j t16), if_neg (hbit d), State.slot]
  have dirs := isDir_congr s u slot
  have lt : ∀ g i f, u.linksTable g i f ↔ s.linksTable g i f := by
    intro g i f
    unfold State.linksTable
    rw [dirs]
    refine and_congr_right fun hg => ?_
    have hne : ¬ (g = t ∧ i = j) := fun h => hs.dir_not_table g hg (h.1 ▸ ht)
    rw [ent g i (dir_ge s hs g hg), if_neg hne]
  have tabs : ∀ f, u.isTable f ↔ s.isTable f := fun f => by simp only [State.isTable, lt]
  have ld : ∀ x i f, u.linksData x i f ↔ s.linksData x i f ∧ ¬ (x = t ∧ i = j) := by
    intro x i f
    unfold State.linksData
    rw [tabs]
    exact links_zeroed_iff (fun x i hx => ent x i (table_ge s hs x hx)) x i f
  have datas : ∀ f, u.isData f ↔ s.isData f ∧ f ≠ d :=
    exists_link_iff ld (fun x i h => hs.data_once d x t i j h hlink) fun f h => h.2.1.symm.trans hlink.2.1
  exact ⟨forest_of_fewer hs (fun k hk _ => slot k hk) (fun g i f => (lt g i f).1) fun x i f h => ((ld x i f).1 h).1,
    framesConserved_of_freed hc (hs.data_free d hd)
      (fun f => frameUsed_unmapData s _ d f (frameWord_ge t j (ne_zero_of_le t t16)))
      (role_without dirs fun h => hs.dir_not_data d h hd) (role_without tabs fun h => hs.table_not_data d h hd) datas,
    lt⟩

/-- An empty Table t of a Directory freed, in a forest. -/
theorem unmapTable_forest {g t : Frame} {i : Offset} (hlink : s.linksTable g i t)
    (hempty : ∀ j, s.mem (frameWord t j) = 0#32) :
    (s.unmapTable (frameWord g i) t).forest ∧ (s.unmapTable (frameWord g i) t).framesConserved ∧
      ∀ f, (s.unmapTable (frameWord g i) t).isDir f ↔ s.isDir f := by
  have hg := hlink.1
  have g16 := dir_ge s hs g hg
  have ht : s.isTable t := ⟨g, i, hlink⟩
  set u := s.unmapTable (frameWord g i) t with hu
  have ent : ∀ (x : Frame) (j : Offset), 16 ≤ x.toNat →
      u.mem (frameWord x j) = if x = g ∧ j = i then 0#32 else s.mem (frameWord x j) := by
    intro x j hx
    rw [hu, mem_unmapTable, if_neg (ne_bitmapWord (frameWord_ge x j (ne_zero_of_le x hx)) t)]
    simp only [frameWord_inj]
  have slot : s.sameSlots u := by
    intro k hk
    obtain ⟨-, hbit, hentry⟩ := slotAddr_apart k hk
    rw [hu, State.slot, mem_unmapTable, if_neg (hentry g i g16), if_neg (hbit t), State.slot]
  have dirs := isDir_congr s u slot
  have lt : ∀ x j f, u.linksTable x j f ↔ s.linksTable x j f ∧ ¬ (x = g ∧ j = i) := by
    intro x j f
    unfold State.linksTable
    rw [dirs]
    exact links_zeroed_iff (fun x j hx => ent x j (dir_ge s hs x hx)) x j f
  have tabs : ∀ f, u.isTable f ↔ s.isTable f ∧ f ≠ t :=
    exists_link_iff lt (fun x j h => hs.table_once t x g j i h hlink) fun f h => h.2.1.symm.trans hlink.2.1
  have entTab : ∀ x j, s.isTable x → u.mem (frameWord x j) = s.mem (frameWord x j) := fun x j hx => by
    rw [ent x j (table_ge s hs x hx), if_neg]
    rintro ⟨rfl, -⟩
    exact hs.dir_not_table x hg hx
  have ld : ∀ x j f, u.linksData x j f ↔ s.linksData x j f := links_emptied_iff tabs hempty entTab
  have datas : ∀ f, u.isData f ↔ s.isData f := fun f => by simp only [State.isData, ld]
  exact ⟨forest_of_fewer hs (fun k hk _ => slot k hk) (fun x j f h => ((lt x j f).1 h).1) fun x j f => (ld x j f).1,
    framesConserved_of_freed hc (hs.table_free t ht)
      (fun f => frameUsed_unmapTable s _ t f (frameWord_ge g i (ne_zero_of_le g g16)))
      (role_without dirs fun h => hs.dir_not_table t h ht) tabs (role_without datas (hs.table_not_data t ht)),
    dirs⟩

/-- An empty Directory g freed and its registry entry removed, in a forest. -/
theorem unmapDirectory_forest {g : Frame} (hg : s.isDir g) (hempty : ∀ i, s.mem (frameWord g i) = 0#32) :
    (s.unmapDirectory g).forest ∧ (s.unmapDirectory g).framesConserved := by
  set u := s.unmapDirectory g with hu
  have ent : ∀ (x : Frame) (j : Offset), 16 ≤ x.toNat → u.mem (frameWord x j) = s.mem (frameWord x j) := by
    intro x j hx
    have hreg : ¬ (frameWord x j).toNat < 0xF00 := by
      rw [frameWord_toNat]
      omega
    rw [hu, mem_unmapDirectory, if_neg fun h => hreg h.2.1,
      if_neg (ne_bitmapWord (frameWord_ge x j (ne_zero_of_le x hx)) g)]
  have slot : ∀ k, k < 3584 → u.slot k = if entryFrame (s.slot k) = g then 0#32 else s.slot k := by
    intro k hk
    obtain ⟨-, hbit, -⟩ := slotAddr_apart k hk
    have hreg : 0x100 ≤ (slotAddr Config.params k).toNat ∧ (slotAddr Config.params k).toNat < 0xF00 := by
      rw [slotAddr_toNat k hk]
      omega
    rw [hu, State.slot, mem_unmapDirectory, if_neg (hbit g)]
    simp only [hreg.1, hreg.2, true_and]
    rfl
  have dirs : ∀ f, u.isDir f ↔ s.isDir f ∧ f ≠ g := by
    intro f
    constructor
    · rintro ⟨k, hk, h0, hf⟩
      rw [slot k hk] at h0 hf
      by_cases h : entryFrame (s.slot k) = g
      · exact absurd (if_pos h) h0
      · rw [if_neg h] at h0 hf
        exact ⟨⟨k, hk, h0, hf⟩, fun e => h (hf.trans e)⟩
    · rintro ⟨⟨k, hk, h0, hf⟩, hne⟩
      have h : entryFrame (s.slot k) ≠ g := fun e => hne (hf.symm.trans e)
      exact ⟨k, hk, by rwa [slot k hk, if_neg h], by rwa [slot k hk, if_neg h]⟩
  have lt : ∀ x j f, u.linksTable x j f ↔ s.linksTable x j f :=
    links_emptied_iff dirs hempty fun x j hx => ent x j (dir_ge s hs x hx)
  have tabs : ∀ f, u.isTable f ↔ s.isTable f := fun f => by simp only [State.isTable, lt]
  have ld : ∀ x j f, u.linksData x j f ↔ s.linksData x j f := by
    intro x j f
    unfold State.linksData
    rw [tabs]
    refine and_congr_right fun hx => ?_
    rw [ent x j (table_ge s hs x hx)]
  have datas : ∀ f, u.isData f ↔ s.isData f := fun f => by simp only [State.isData, ld]
  refine ⟨forest_of_fewer hs (fun k hk h0 => ?_) (fun x j f => (lt x j f).1) fun x j f => (ld x j f).1,
    framesConserved_of_freed hc (hs.dir_free g hg) (frameUsed_unmapDirectory s g) dirs
      (role_without tabs (hs.dir_not_table g hg)) (role_without datas (hs.dir_not_data g hg))⟩
  rw [slot k hk] at h0 ⊢
  exact if_neg fun h => h0 (if_pos h)

end freed

/-- Wherever UNMAP's cascade stops, its levels keep the forest (R66). -/
theorem UnmapEnds.forest {s u : State} {va : VAddr} (hend : UnmapEnds s va u) (hs : s.forest)
    (hc : s.framesConserved) (hdir : s.isDir s.activeDir) (hentry : entryFrame (s.tabEntry va) ≠ 0#12) :
    u.forest ∧ u.framesConserved := by
  by_cases ht16 : 16 ≤ (entryFrame (s.dirEntry va)).toNat
  case neg =>
    cases hend with
    | turnedAway e => exact forest_of_frames (s := s) rfl hs hc
    | data hw hg ht => exact absurd ht ht16
    | table hw hg ht => exact absurd ht ht16
    | directory hw hg ht => exact absurd ht ht16
  have hlinkT : s.linksTable s.activeDir (dirIndex va) (entryFrame (s.dirEntry va)) :=
    ⟨hdir, rfl, ne_zero_of_le _ ht16⟩
  have hlinkD : s.linksData (entryFrame (s.dirEntry va)) (tabIndex va) (entryFrame (s.tabEntry va)) :=
    ⟨⟨_, _, hlinkT⟩, rfl, hentry⟩
  obtain ⟨hs1, hc1, hlt⟩ := unmapData_forest hs hc hlinkD
  have hlinkT1 : (s.freedData va).linksTable s.activeDir (dirIndex va) (entryFrame (s.dirEntry va)) :=
    (hlt _ _ _).2 hlinkT
  cases hend with
  | turnedAway e => exact forest_of_frames (s := s) rfl hs hc
  | data hw hg ht ht' => exact forest_of_frames (State.finish_frames _ _) hs1 hc1
  | table hw hg ht ht' hg' =>
    obtain ⟨hs2, hc2, -⟩ := unmapTable_forest (s := s.freedData va) hs1 hc1 hlinkT1 ((frameEmpty_iff _ _).1 ht')
    exact forest_of_frames (State.finish_frames _ _) hs2 hc2
  | directory hw hg ht ht' hg' =>
    obtain ⟨hs2, hc2, hdirs⟩ := unmapTable_forest (s := s.freedData va) hs1 hc1 hlinkT1 ((frameEmpty_iff _ _).1 ht')
    obtain ⟨hs3, hc3⟩ := unmapDirectory_forest (s := s.freedTable va) hs2 hc2 ((hdirs _).2 hlinkT1.1)
      ((frameEmpty_iff _ _).1 hg')
    exact forest_of_frames (State.finish_frames _ _) hs3 hc3

/-- Settles O40. -/
theorem unmapKeepsFramesConserved : Obligations.UnmapKeepsFramesConserved := by
  rintro s u va hs hc hdir hentry ⟨⟨⟩⟩
  exact (unmapCmd_ends s va).forest hs hc hdir hentry

end Sys2Proof.Machine

/-! The whole machine (spec/45_control.md R105, spec/10_state.md): how every command ends, which registers it can
change, and the invariant that every step keeps. -/

namespace Sys2Proof.Machine

/-! ### One state after each command -/

/-- The state a command leaves. -/
def effect : Instr → State → State
  | .read va => readCmd Config.params va
  | .write va => writeCmd Config.params va
  | .map va => mapCmd Config.params va
  | .unmap va => unmapCmd Config.params va
  | .switch pid => switchCmd pid
  | .find => findCmd Config.params
  | .falloc => fallocCmd Config.params
  | .ffree frame => ffreeCmd frame
  | .sfind => sfindCmd Config.params
  | .dump frame sector => dumpCmd frame sector
  | .restore sector frame => restoreCmd Config.params sector frame
  | .init => initCmd Config.params

/-- Every command completes in one step (R105). -/
theorem exec_eq (i : Instr) (s : State) : exec i s = .next (effect i s) := by
  cases i <;> rfl

/-! What the commands that branch can answer. -/

theorem switchCmd_cases (pid : Pid) (s : State) :
    switchCmd pid s = s.raise .invalidContext ∨ switchCmd pid s = { s with curPid := pid }.finish 0#32 := by
  by_cases h : pid = 0#8
  · exact .inl (if_pos h)
  · exact .inr (switchCmd_of_ne_zero s h)

theorem findCmd_cases (s : State) :
    (∃ e, e ≠ .ok ∧ findCmd Config.params s = s.raise e) ∨
      ∃ g : Frame, findCmd Config.params s = (s.setActiveDir g).finish (g.setWidth 32) := by
  by_cases hp : s.curPid = 0#8
  · exact .inl ⟨_, by decide, findCmd_noProcess _ hp⟩
  · cases h : s.regFind Config.params s.curPid with
    | none => exact .inl ⟨_, by decide, findCmd_miss hp ((regFind_eq_none s _).1 h)⟩
    | some k => exact .inr ⟨_, findCmd_hit hp ((regFind_eq_some s _ k).1 h)⟩

theorem fallocCmd_cases (s : State) :
    fallocCmd Config.params s = s.raise .outOfFrames ∨
      ∃ f : Frame, fallocCmd Config.params s = (s.frameSet f).finish (f.setWidth 32) := by
  cases h : s.frameScan Config.params with
  | none => exact .inl (fallocCmd_allFramesUsed ((frameScan_eq_none s).1 h))
  | some f => exact .inr ⟨f, fallocCmd_lowestFree ((frameScan_eq_some s f).1 h)⟩

theorem sfindCmd_cases (s : State) :
    sfindCmd Config.params s = s.raise .outOfSectors ∨
      ∃ i : Sector, s.mirrorBit i = false ∧
        sfindCmd Config.params s = (s.sectorSet Config.params i.toNat).finish (i.setWidth 32) := by
  cases h : s.sectorScan Config.params with
  | none => exact .inl (sfindCmd_none h)
  | some n =>
    obtain ⟨hn, hfree, -⟩ := (sectorScan_eq_some s n).1 h
    have hi : (BitVec.ofNat 13 n).toNat = n := by rw [BitVec.toNat_ofNat, Nat.mod_eq_of_lt hn]
    exact .inr ⟨BitVec.ofNat 13 n, (sectorUsed_eq_mirrorBit s hn).symm.trans hfree,
      sfindCmd_found (h.trans (congrArg some hi.symm))⟩

/-! ### STATUS and RDATA -/

/-- How a command that is no access ends: no flag, and RDATA = 0 with every code but OK (R14, R105). -/
def State.endsPlain (u : State) : Prop :=
  ∃ st : Status, u.status = statusWord st false false ∧ (st ≠ .ok → u.rdata = 0#32)

theorem endsPlain_finish (t : State) (v : Word) : (t.finish v).endsPlain := ⟨.ok, rfl, fun h => absurd rfl h⟩

theorem endsPlain_raise (t : State) (e : Status) : (t.raise e).endsPlain := ⟨e, rfl, fun _ => rfl⟩

theorem statusLegal_of_endsPlain {u : State} (h : u.endsPlain) : u.statusLegal := by
  obtain ⟨st, hst, hv⟩ := h
  exact ⟨st, false, false, hst, hv, fun h => absurd h (by decide), fun h => absurd h (by decide)⟩

theorem MapEnds.endsPlain {s u : State} {va : VAddr} (h : MapEnds s va u) : u.endsPlain := by
  cases h with
  | done => exact endsPlain_finish _ _
  | turnedAway | noTable | exhausted | noData => exact endsPlain_raise _ _

theorem UnmapEnds.endsPlain {s u : State} {va : VAddr} (h : UnmapEnds s va u) : u.endsPlain := by
  cases h with
  | turnedAway => exact endsPlain_raise _ _
  | data | table | directory => exact endsPlain_finish _ _

/-- The ten commands that are no access. -/
theorem effect_endsPlain {i : Instr} (h : ¬ ∃ va, i = .read va ∨ i = .write va) (s : State) :
    (effect i s).endsPlain := by
  cases i with
  | read va => exact absurd ⟨va, .inl rfl⟩ h
  | write va => exact absurd ⟨va, .inr rfl⟩ h
  | map va => exact (mapCmd_ends s va).endsPlain
  | unmap va => exact (unmapCmd_ends s va).endsPlain
  | switch pid =>
    rcases switchCmd_cases pid s with h | h <;> rw [effect, h]
    · exact endsPlain_raise _ _
    · exact endsPlain_finish _ _
  | find =>
    rcases findCmd_cases s with ⟨e, -, h⟩ | ⟨g, h⟩ <;> rw [effect, h]
    · exact endsPlain_raise _ _
    · exact endsPlain_finish _ _
  | falloc =>
    rcases fallocCmd_cases s with h | ⟨f, h⟩ <;> rw [effect, h]
    · exact endsPlain_raise _ _
    · exact endsPlain_finish _ _
  | sfind =>
    rcases sfindCmd_cases s with h | ⟨i, -, h⟩ <;> rw [effect, h]
    · exact endsPlain_raise _ _
    · exact endsPlain_finish _ _
  | ffree | dump | restore | init => exact endsPlain_finish _ _

/-- A walk that aborts has not logged the Table level as continued (R113). -/
theorem walk_pft_fatal {va : VAddr} {s : State} (h : (walk Config.params va s).result = .fatal) :
    (walk Config.params va s).pft = false := by
  rcases walk_cases va s with hc | ⟨hc, hd⟩ | ⟨hc, hd, ht⟩ | ⟨hc, hd, ht⟩
  · rw [walk_noContext va s hc]
  · rw [walk_dirAbort va s hc hd]
  · rw [walk_tabAbort va s hc hd ht]
  · rw [walk_ok va s hc hd ht] at h
    cases h

theorem statusLegal_fatal (t : State) (pfd : Bool) : (t.complete .fatalFault pfd false 0#32).statusLegal :=
  ⟨.fatalFault, pfd, false, rfl, fun _ => rfl, fun _ => .inr rfl, fun h => absurd h (by decide)⟩

theorem statusLegal_ok (t : State) (pfd pft : Bool) (v : Word) : (t.complete .ok pfd pft v).statusLegal :=
  ⟨.ok, pfd, pft, rfl, fun h => absurd rfl h, fun _ => .inl rfl, fun _ => rfl⟩

/-- Every command leaves a legal STATUS, and RDATA agrees with it (R22, R23). -/
theorem effect_statusLegal (i : Instr) (s : State) : (effect i s).statusLegal := by
  by_cases h : ∃ va, i = .read va ∨ i = .write va
  case neg => exact statusLegal_of_endsPlain (effect_endsPlain h s)
  obtain ⟨va, rfl | rfl⟩ := h
  · cases hr : (walk Config.params va s).result with
    | fatal =>
      rw [effect, readCmd_fatal hr, walk_pft_fatal hr]
      exact statusLegal_fatal _ _
    | ok pa =>
      rw [effect, readCmd_result hr]
      exact statusLegal_ok _ _ _ _
  · cases hr : (walk Config.params va s).result with
    | fatal =>
      rw [effect, writeCmd_fatal hr, walk_pft_fatal hr]
      exact statusLegal_fatal _ _
    | ok pa =>
      rw [effect, writeCmd_result hr]
      exact statusLegal_ok _ _ _ _

/-! ### The registers each command can change -/

/-- Command by command: WDATA and the host's side stay, and the context and the fault record stay but under their
writers (R19, R20, R21, R24, R25). -/
theorem effect_registers (i : Instr) (s : State) :
    ((effect i s).wdata = s.wdata ∧ (effect i s).inputs = s.inputs ∧ (effect i s).hostReads = s.hostReads) ∧
    ((effect i s).curPid = s.curPid ∨ (∃ pid, i = .switch pid) ∨ i = .init) ∧
    ((effect i s).activeDir = s.activeDir ∨ (∃ va, i = .map va ∨ i = .unmap va) ∨ i = .find ∨ i = .init) ∧
    (((effect i s).fva = s.fva ∧ (effect i s).fent = s.fent) ∨ (∃ va, i = .read va ∨ i = .write va) ∨
      i = .init) := by
  cases i with
  | read va =>
    obtain ⟨-, hpid, hdir, hwdata, -, hinputs, hreads⟩ := readCmd_frame va s
    exact ⟨⟨hwdata, hinputs, hreads⟩, .inl hpid, .inl hdir, .inr (.inl ⟨va, .inl rfl⟩)⟩
  | write va =>
    obtain ⟨hpid, hdir, hwdata, -, hinputs, hreads⟩ := writeCmd_frame va s
    exact ⟨⟨hwdata, hinputs, hreads⟩, .inl hpid, .inl hdir, .inr (.inl ⟨va, .inr rfl⟩)⟩
  | map va =>
    obtain ⟨fs, g, events, st, v, -, h⟩ := (mapCmd_ends s va).registers
    rw [effect, h]
    exact ⟨⟨rfl, rfl, rfl⟩, .inl rfl, .inr (.inl ⟨va, .inl rfl⟩), .inl ⟨rfl, rfl⟩⟩
  | unmap va =>
    obtain ⟨fs, g, events, st, h⟩ := (unmapCmd_ends s va).registers
    rw [effect, h]
    exact ⟨⟨rfl, rfl, rfl⟩, .inl rfl, .inr (.inl ⟨va, .inr rfl⟩), .inl ⟨rfl, rfl⟩⟩
  | switch pid =>
    rcases switchCmd_cases pid s with h | h <;> rw [effect, h] <;>
      exact ⟨⟨rfl, rfl, rfl⟩, .inr (.inl ⟨pid, rfl⟩), .inl rfl, .inl ⟨rfl, rfl⟩⟩
  | find =>
    rcases findCmd_cases s with ⟨e, -, h⟩ | ⟨g, h⟩ <;> rw [effect, h] <;>
      exact ⟨⟨rfl, rfl, rfl⟩, .inl rfl, .inr (.inr (.inl rfl)), .inl ⟨rfl, rfl⟩⟩
  | falloc =>
    rcases fallocCmd_cases s with h | ⟨f, h⟩ <;> rw [effect, h] <;>
      exact ⟨⟨rfl, rfl, rfl⟩, .inl rfl, .inl rfl, .inl ⟨rfl, rfl⟩⟩
  | sfind =>
    rcases sfindCmd_cases s with h | ⟨i, -, h⟩ <;> rw [effect, h] <;>
      exact ⟨⟨rfl, rfl, rfl⟩, .inl rfl, .inl rfl, .inl ⟨rfl, rfl⟩⟩
  | ffree | dump => exact ⟨⟨rfl, rfl, rfl⟩, .inl rfl, .inl rfl, .inl ⟨rfl, rfl⟩⟩
  | restore => simp [effect, restoreCmd]
  | init =>
    rw [effect, initCmd_eq]
    exact ⟨⟨rfl, rfl, rfl⟩, .inr (.inr rfl), .inr (.inr (.inr rfl)), .inr (.inr rfl)⟩

/-- Settles O43. -/
theorem registersHaveTheirWriters : Obligations.RegistersHaveTheirWriters := by
  intro i s u hu
  rw [exec_eq] at hu
  obtain rfl := Host.Outcome.next.inj hu
  obtain ⟨⟨hwdata, -, -⟩, hpid, hdir, hfault⟩ := effect_registers i s
  exact ⟨hpid.resolve_left, hdir.resolve_left,
    fun h => hfault.resolve_left fun ⟨hfva, hfent⟩ => h.elim (· hfva) (· hfent), hwdata⟩

/-- Settles O55: an access's STATUS is a legal one, every other command's has no flag. -/
theorem everyCommandEndsWithOneStatus : Obligations.EveryCommandEndsWithOneStatus := by
  intro i s
  obtain ⟨⟨-, hinputs, hreads⟩, -⟩ := effect_registers i s
  by_cases haccess : ∃ va, i = .read va ∨ i = .write va
  · obtain ⟨st, pfd, pft, hst, hv, -, -⟩ := effect_statusLegal i s
    exact ⟨_, st, pfd, pft, exec_eq i s, hst, hv, fun _ => haccess, hinputs, hreads⟩
  · obtain ⟨st, hst, hv⟩ := effect_endsPlain haccess s
    exact ⟨_, st, false, false, exec_eq i s, hst, hv, by simp, hinputs, hreads⟩

/-! ### The stores stay canonical -/

/-! Both bitmaps, every frame and every sector lie inside their stores. -/

theorem bitmap_inside (f : Frame) : Config.fbmBase + f.toNat / 32 < Config.frameStoreWords := by
  have := f.isLt
  simp only [Config.fbmBase, Config.frameStoreWords]
  omega

theorem mirror_inside (i : Sector) : mirrorBase Config.params + i.toNat / 32 < Config.frameStoreWords := by
  have := i.isLt
  simp only [mirrorBase_params, Config.frameStoreWords]
  omega

theorem frame_inside (f : Frame) :
    f.toNat * Config.frameWords + Config.frameWords ≤ Config.frameStoreWords := by
  have := f.isLt
  simp only [Config.frameWords, Config.frameStoreWords]
  omega

theorem sector_inside (k : Sector) :
    diskAddr k.toNat 0 + Config.frameWords ≤ Config.params.numSectors * Config.frameWords := by
  have := k.isLt
  simp only [diskAddr, Config.frameWords, Config.params_numSectors]
  omega

section storesWf
variable {s : State} (h : s.storesWf)
include h

theorem storesWf_finish (v : Word) : (s.finish v).storesWf := h

theorem storesWf_raise (e : Status) : (s.raise e).storesWf := h

theorem storesWf_emit (e : Event) : (s.emit e).storesWf := h

theorem storesWf_setActiveDir (f : Frame) : (s.setActiveDir f).storesWf := h

theorem storesWf_memWrite (pa : PAddr) (v : Word) : (s.memWrite pa v).storesWf :=
  ⟨Memory.wf_write _ _ _ _ h.1 pa.isLt, h.2⟩

theorem storesWf_frameSet (f : Frame) : (s.frameSet f).storesWf :=
  ⟨Memory.wf_setBit _ _ _ _ h.1 (bitmap_inside f), h.2⟩

theorem storesWf_frameClear (f : Frame) : (s.frameClear f).storesWf :=
  ⟨Memory.wf_clearBit _ _ _ _ h.1 (bitmap_inside f), h.2⟩

theorem storesWf_zeroFrame (f : Frame) : (s.zeroFrame f).storesWf := ⟨Memory.wf_zero _ _ _ _ h.1, h.2⟩

theorem storesWf_sectorSet (i : Sector) : (s.sectorSet Config.params i.toNat).storesWf :=
  ⟨Memory.wf_setBit _ _ _ _ h.1 (mirror_inside i), h.2⟩

theorem storesWf_sectorClear (i : Sector) : (s.sectorClear Config.params i.toNat).storesWf :=
  ⟨Memory.wf_clearBit _ _ _ _ h.1 (mirror_inside i), h.2⟩

theorem storesWf_sectorToFrame (k : Sector) (f : Frame) : (s.sectorToFrame k f).storesWf :=
  ⟨Memory.wf_copy _ _ _ _ _ _ _ h.1 h.2 (frame_inside f), h.2⟩

theorem storesWf_frameToSector (f : Frame) (k : Sector) : (s.frameToSector f k).storesWf :=
  ⟨h.1, Memory.wf_copy _ _ _ _ _ _ _ h.2 h.1 (sector_inside k)⟩

theorem storesWf_foldl {ι : Type} {step : State → ι → State} (hstep : ∀ t i, t.storesWf → (step t i).storesWf)
    (is : List ι) : (is.foldl step s).storesWf := by
  induction is generalizing s with
  | nil => exact h
  | cons i is ih => exact ih (hstep s i h)

theorem storesWf_newDirectory (f : Frame) (k : Nat) : (s.newDirectory f k).storesWf :=
  storesWf_emit (storesWf_memWrite (storesWf_setActiveDir (storesWf_zeroFrame (storesWf_frameSet h f) f) f) _ _) _

theorem storesWf_newEntry (role : Role) (ea : PAddr) (f : Frame) : (s.newEntry role ea f).storesWf := by
  refine storesWf_memWrite (storesWf_emit ?_ _) _ _
  split
  · exact storesWf_zeroFrame (storesWf_frameSet h f) f
  · exact storesWf_frameSet h f

theorem storesWf_reusedEntry (role : Role) (ea : PAddr) (f : Frame) : (s.reusedEntry role ea f).storesWf :=
  storesWf_memWrite (storesWf_emit h _) _ _

theorem storesWf_mapDirectory {s1 : State} (h1 : mapDirectory Config.params s = .ok s1) : s1.storesWf := by
  rcases mapDirectory_ok h1 with ⟨k, -, rfl⟩ | ⟨f, k, -, -, -, rfl⟩
  · exact storesWf_emit (storesWf_setActiveDir h _) _
  · exact storesWf_newDirectory h f k

theorem storesWf_mapEntry {role : Role} {ea : PAddr} {u : State} {f : Frame}
    (h1 : mapEntry Config.params role ea s = .ok (u, f)) : u.storesWf := by
  rcases mapEntry_ok h1 with ⟨-, -, rfl⟩ | ⟨-, -, rfl⟩
  · exact storesWf_newEntry h role ea f
  · exact storesWf_reusedEntry h role ea f

theorem MapEnds.storesWf {u : State} {va : VAddr} (hend : MapEnds s va u) : u.storesWf := by
  cases hend with
  | turnedAway e => exact storesWf_raise h e
  | noTable s1 hw hp h1 h2 => exact storesWf_raise (storesWf_mapDirectory h h1) _
  | exhausted s1 s2 t hw hp h1 h2 => exact ⟨h.1, (storesWf_mapEntry (storesWf_mapDirectory h h1) h2).2⟩
  | noData s1 s2 t hw hp h1 h2 hx h3 =>
    exact storesWf_raise (storesWf_mapEntry (storesWf_mapDirectory h h1) h2) _
  | done s1 s2 s3 t d hw hp h1 h2 hx h3 =>
    exact storesWf_finish (storesWf_mapEntry (storesWf_mapEntry (storesWf_mapDirectory h h1) h2) h3) _

theorem storesWf_unmapData (tpa : PAddr) (d : Frame) : (s.unmapData tpa d).storesWf :=
  storesWf_memWrite (storesWf_emit (storesWf_frameClear h d) _) _ _

theorem storesWf_unmapTable (dpa : PAddr) (t : Frame) : (s.unmapTable dpa t).storesWf :=
  storesWf_memWrite (storesWf_emit (storesWf_frameClear h t) _) _ _

theorem storesWf_regRemove (g : Frame) : (s.regRemove Config.params g).storesWf := by
  unfold State.regRemove
  exact storesWf_foldl h (fun _ _ ht => storesWf_memWrite ht _ _) _

theorem storesWf_unmapDirectory (g : Frame) : (s.unmapDirectory g).storesWf :=
  storesWf_setActiveDir (storesWf_regRemove (storesWf_emit (storesWf_frameClear h g) _) g) _

theorem UnmapEnds.storesWf {u : State} {va : VAddr} (hend : UnmapEnds s va u) : u.storesWf := by
  have h1 : (s.freedData va).storesWf := storesWf_unmapData h _ _
  have h2 : (s.freedTable va).storesWf := storesWf_unmapTable h1 _ _
  have h3 : (s.freedDirectory va).storesWf := storesWf_unmapDirectory h2 _
  cases hend with
  | turnedAway e => exact storesWf_raise h e
  | data => exact storesWf_finish h1 _
  | table => exact storesWf_finish h2 _
  | directory => exact storesWf_finish h3 _

theorem storesWf_initFrames : s.initFrames.storesWf :=
  storesWf_foldl (s := { s with frames := s.frames.zero 0 4096 }) ⟨Memory.wf_zero _ _ _ _ h.1, h.2⟩
    (fun _ _ h => storesWf_frameSet h _) _

theorem storesWf_initCmd : (initCmd Config.params s).storesWf := by
  have h1 := storesWf_sectorSet (storesWf_initFrames h) 0#13
  rw [initCmd_eq]
  exact ⟨h1.1, Memory.wf_zero _ _ _ _ (storesWf_frameToSector h1 15#12 0#13).2⟩

theorem storesWf_writeCmd (va : VAddr) : (writeCmd Config.params va s).storesWf := by
  have hw : (walk Config.params va s).state.storesWf := by
    rw [walk_state_eq]
    exact h
  cases hr : (walk Config.params va s).result with
  | fatal =>
    rw [writeCmd_fatal hr]
    exact hw
  | ok pa =>
    rw [writeCmd_result hr]
    exact storesWf_memWrite hw pa s.wdata

/-- Every command keeps both stores canonical and inside their address spaces (R36, R37). -/
theorem effect_storesWf (i : Instr) : (effect i s).storesWf := by
  cases i with
  | read va =>
    obtain ⟨hframes, -, -, -, hdisk, -⟩ := readCmd_frame va s
    exact ⟨(congrArg _ hframes).trans h.1, (congrArg _ hdisk).trans h.2⟩
  | write va => exact storesWf_writeCmd h va
  | map va => exact (mapCmd_ends s va).storesWf h
  | unmap va => exact (unmapCmd_ends s va).storesWf h
  | switch pid => rcases switchCmd_cases pid s with e | e <;> rw [effect, e] <;> exact h
  | find => rcases findCmd_cases s with ⟨_, -, e⟩ | ⟨_, e⟩ <;> rw [effect, e] <;> exact h
  | falloc =>
    rcases fallocCmd_cases s with e | ⟨f, e⟩ <;> rw [effect, e]
    · exact h
    · exact storesWf_frameSet h f
  | ffree f => exact storesWf_finish (storesWf_frameClear h f) _
  | sfind =>
    rcases sfindCmd_cases s with e | ⟨i, -, e⟩ <;> rw [effect, e]
    · exact h
    · exact storesWf_sectorSet h i
  | dump f k => exact storesWf_finish (storesWf_emit (storesWf_frameToSector h f k) _) _
  | restore k f =>
    have hcopied := storesWf_sectorClear (storesWf_sectorToFrame h k f) k
    exact storesWf_finish (storesWf_emit (storesWf_frameToSector hcopied 15#12 0#13) _) _
  | init => exact storesWf_initCmd h

end storesWf

/-! ### The fault record stays legal -/

theorem faultRecordLegal_fatal (s : State) (va : VAddr) (level : Level) {e : Word} (hl : level ≠ .ctx)
    (he : entryFrame e < Config.firstFreeFrame) : (s.logFault va level e true).faultRecordLegal :=
  .inr ⟨true, level, va, rfl, fun h => absurd h hl, fun _ => ⟨fun _ => he, fun _ => rfl⟩⟩

theorem faultRecordLegal_pass {s : State} (h : s.faultRecordLegal) (va : VAddr) {level : Level} {e : Word}
    (hl : level ≠ .ctx) (he : ¬ entryFrame e < Config.firstFreeFrame) : (s.pass va level e).faultRecordLegal := by
  unfold State.pass
  split
  · exact h
  · exact .inr ⟨false, level, va, rfl, fun h => absurd h hl,
      fun _ => ⟨fun h => absurd h (by decide), fun h => absurd h he⟩⟩

/-- A walk logs a fatal fault exactly where the entry's FRAME is reserved, or with no context (R24, R57, R110). -/
theorem walk_faultRecordLegal {s : State} (h : s.faultRecordLegal) (va : VAddr) :
    (walk Config.params va s).state.faultRecordLegal := by
  rcases walk_cases va s with hc | ⟨hc, hd⟩ | ⟨hc, hd, ht⟩ | ⟨hc, hd, ht⟩
  · rw [walk_noContext va s hc]
    exact .inr ⟨true, .ctx, va, rfl, fun _ => ⟨rfl, rfl⟩, fun h => absurd rfl h⟩
  · rw [walk_dirAbort va s hc hd]
    exact faultRecordLegal_fatal _ va .dir (by decide) hd
  · rw [walk_tabAbort va s hc hd ht]
    exact faultRecordLegal_fatal _ va .tab (by decide) ht
  · rw [walk_ok va s hc hd ht]
    exact faultRecordLegal_pass (faultRecordLegal_pass h va (by decide) hd) va (by decide) ht

/-- Every command keeps the fault record legal (R24, R25). -/
theorem effect_faultRecordLegal {s : State} (h : s.faultRecordLegal) (i : Instr) :
    (effect i s).faultRecordLegal := by
  obtain ⟨-, -, -, ⟨hfva, hfent⟩ | ⟨va, rfl | rfl⟩ | rfl⟩ := effect_registers i s
  · unfold State.faultRecordLegal
    rw [hfva, hfent]
    exact h
  · have hw := walk_faultRecordLegal h va
    cases hr : (walk Config.params va s).result with
    | fatal =>
      rw [effect, readCmd_fatal hr]
      exact hw
    | ok pa =>
      rw [effect, readCmd_result hr]
      exact hw
  · have hw := walk_faultRecordLegal h va
    cases hr : (walk Config.params va s).result with
    | fatal =>
      rw [effect, writeCmd_fatal hr]
      exact hw
    | ok pa =>
      rw [effect, writeCmd_result hr]
      exact hw
  · rw [effect, initCmd_eq]
    exact .inl ⟨rfl, rfl⟩

/-! ### The invariant -/

theorem resetWith_inv {m d : Memory} (hm : m.wf Config.frameStoreWords = true)
    (hd : d.wf (Config.params.numSectors * Config.frameWords) = true) : (State.resetWith m d).Inv :=
  ⟨⟨hm, hd⟩, ⟨.ok, false, false, rfl, fun h => absurd rfl h, fun _ => .inl rfl, fun _ => rfl⟩, .inl ⟨rfl, rfl⟩⟩

/-- Settles O56: empty lists are canonical. -/
theorem resetMeetsTheInvariant : Obligations.ResetMeetsTheInvariant :=
  ⟨resetWith_inv (Memory.wf_nil _) (Memory.wf_nil _), fun _ _ => resetWith_inv⟩

/-- A command keeps the invariant. -/
theorem effect_inv {s : State} (h : s.Inv) (i : Instr) : (effect i s).Inv :=
  ⟨effect_storesWf h.1 i, effect_statusLegal i s, effect_faultRecordLegal h.2.2 i⟩

/-- A word written to CMD, legal or not, keeps the invariant (R76). -/
theorem runCommand_inv {s u : State} {w : Word} (h : s.Inv) (hu : runCommand w s = .next u) : u.Inv := by
  cases hd : decode w with
  | ok i =>
    rw [runCommand_legal hd, exec_eq] at hu
    obtain rfl := Host.Outcome.next.inj hu
    exact effect_inv h i
  | error e =>
    rw [runCommand_illegal hd] at hu
    obtain rfl := Host.Outcome.next.inj hu
    exact ⟨h.1, statusLegal_of_endsPlain (endsPlain_raise s .illegalCommand), h.2.2⟩

theorem hostWrite_inv {s u : State} {offset : Nat} {value : Word} (h : s.Inv)
    (hu : hostWrite offset value s = .next u) : u.Inv := by
  unfold hostWrite at hu
  split at hu
  · exact runCommand_inv h hu
  · obtain rfl := Host.Outcome.next.inj hu
    exact h
  · obtain rfl := Host.Outcome.next.inj hu
    exact h

/-- A host access keeps the invariant: only a write to CMD reaches what it speaks of. -/
theorem takeInput_inv {s u : State} {input : HostInput} (h : s.Inv) (hu : takeInput input s = .next u) : u.Inv := by
  cases input with
  | hardwareReset =>
    obtain rfl := Host.Outcome.next.inj hu
    exact resetWith_inv h.1.1 h.1.2
  | read offset bits =>
    cases hr : accessRefusal offset bits with
    | some r =>
      rw [takeInput_read_refused s hr] at hu
      cases hu
    | none =>
      simp only [takeInput, hr] at hu
      obtain rfl := Host.Outcome.next.inj hu
      exact h
  | write offset bits value =>
    cases hr : accessRefusal offset bits with
    | some r =>
      rw [takeInput_write_refused s value hr] at hu
      cases hu
    | none =>
      simp only [takeInput, hr] at hu
      exact hostWrite_inv h hu

/-- Settles O57: a step is idle or takes one input. -/
theorem stepKeepsTheInvariant : Obligations.StepKeepsTheInvariant := by
  intro s u h hu
  cases hinputs : s.inputs with
  | nil =>
    rw [stepWithoutACommand.1 s hinputs] at hu
    obtain rfl := Host.Outcome.next.inj hu
    exact h
  | cons input rest =>
    rw [step_of_inputs_cons hinputs] at hu
    exact takeInput_inv (s := { s with inputs := rest }) h hu

end Sys2Proof.Machine

/-! What the commands do not read: the trace (spec/10_state.md R30), and for all but DUMP, RESTORE and INIT the
DiskStore (spec/20_memory.md R37). Both are shown at once, by running a command beside itself with another trace and
another disk. -/

namespace Sys2Proof.Machine

/-- The same machine with another trace and another DiskStore. -/
def State.withUnread (s : State) (old : List Event) (d : Memory) : State := { s with trace := old, disk := d }

/-! ### The named operations -/

section operations
variable (s : State) (old : List Event) (d : Memory) (f : Frame) (pa : PAddr) (e : Event) (va : VAddr)

theorem mem_withUnread : (s.withUnread old d).mem pa = s.mem pa := rfl

theorem dirEntry_withUnread : (s.withUnread old d).dirEntry va = s.dirEntry va := rfl

theorem tabEntry_withUnread : (s.withUnread old d).tabEntry va = s.tabEntry va := rfl

theorem dataAddr_withUnread : (s.withUnread old d).dataAddr va = s.dataAddr va := rfl

theorem permits_withUnread (w : Word) : (s.withUnread old d).permits w = s.permits w := rfl

theorem emit_withUnread : (s.withUnread old d).emit e = (s.emit e).withUnread (old ++ [e]) d := rfl

theorem complete_withUnread (st : Status) (pfd pft : Bool) (v : Word) :
    (s.withUnread old d).complete st pfd pft v = (s.complete st pfd pft v).withUnread old d := rfl

theorem finish_withUnread (v : Word) : (s.withUnread old d).finish v = (s.finish v).withUnread old d := rfl

theorem raise_withUnread (st : Status) : (s.withUnread old d).raise st = (s.raise st).withUnread old d := rfl

theorem memWrite_withUnread (v : Word) :
    (s.withUnread old d).memWrite pa v = (s.memWrite pa v).withUnread old d := rfl

theorem frameSet_withUnread : (s.withUnread old d).frameSet f = (s.frameSet f).withUnread old d := rfl

theorem frameClear_withUnread : (s.withUnread old d).frameClear f = (s.frameClear f).withUnread old d := rfl

theorem zeroFrame_withUnread : (s.withUnread old d).zeroFrame f = (s.zeroFrame f).withUnread old d := rfl

theorem setActiveDir_withUnread : (s.withUnread old d).setActiveDir f = (s.setActiveDir f).withUnread old d := rfl

theorem sectorSet_withUnread (i : Nat) :
    (s.withUnread old d).sectorSet Config.params i = (s.sectorSet Config.params i).withUnread old d := rfl

theorem logFault_withUnread (level : Level) (w : Word) (fatal : Bool) :
    (s.withUnread old d).logFault va level w fatal = (s.logFault va level w fatal).withUnread
      (old ++ [if fatal then .fatal va level w else .perm va level w]) d := rfl

theorem pass_withUnread (level : Level) (w : Word) : (s.withUnread old d).pass va level w
    = (s.pass va level w).withUnread (old ++ if s.permits w then [] else [.perm va level w]) d := by
  rw [pass_eq, pass_eq]
  rfl

theorem newDirectory_withUnread (k : Nat) : (s.withUnread old d).newDirectory f k
    = (s.newDirectory f k).withUnread (old ++ [.struct .dir f .new]) d := rfl

theorem reusedDirectory_withUnread : (s.withUnread old d).reusedDirectory f
    = (s.reusedDirectory f).withUnread (old ++ [.struct .dir f .reused]) d := rfl

theorem newEntry_withUnread (role : Role) : (s.withUnread old d).newEntry role pa f
    = (s.newEntry role pa f).withUnread (old ++ [.struct role f .new]) d := by
  unfold State.newEntry
  split <;> rfl

theorem reusedEntry_withUnread (role : Role) : (s.withUnread old d).reusedEntry role pa f
    = (s.reusedEntry role pa f).withUnread (old ++ [.struct role f .reused]) d := rfl

theorem unmapData_withUnread : (s.withUnread old d).unmapData pa f
    = (s.unmapData pa f).withUnread (old ++ [.release .data f]) d := rfl

theorem unmapTable_withUnread : (s.withUnread old d).unmapTable pa f
    = (s.unmapTable pa f).withUnread (old ++ [.release .table f]) d := rfl

theorem foldl_withUnread {ι : Type} {step : State → ι → State}
    (hstep : ∀ t i, step (t.withUnread old d) i = (step t i).withUnread old d) (is : List ι) :
    is.foldl step (s.withUnread old d) = (is.foldl step s).withUnread old d := by
  induction is generalizing s with
  | nil => rfl
  | cons i is ih => rw [List.foldl_cons, hstep, ih, List.foldl_cons]

theorem regRemove_withUnread : (s.withUnread old d).regRemove Config.params f
    = (s.regRemove Config.params f).withUnread old d :=
  foldl_withUnread s old d (fun _ _ => rfl) (s.slotsNaming Config.params f)

theorem unmapDirectory_withUnread : (s.withUnread old d).unmapDirectory f
    = (s.unmapDirectory f).withUnread (old ++ [.release .dir f]) d := by
  unfold State.unmapDirectory
  rw [frameClear_withUnread, emit_withUnread, regRemove_withUnread, setActiveDir_withUnread]

end operations

/-! ### The commands -/

/-- The command appends events of its own to whatever trace it is given, and does the same whatever the DiskStore
holds. -/
def Blind (f : State → State) (s : State) : Prop :=
  ∃ events : List Event, ∀ old d, f (s.withUnread old d) = (f s).withUnread (old ++ events) d

/-- A command that appends nothing. -/
theorem blind_of_silent {f : State → State} {s : State}
    (h : ∀ old d, f (s.withUnread old d) = (f s).withUnread old d) : Blind f s :=
  ⟨[], fun old d => by rw [h, List.append_nil]⟩

/-- The events of a walk whose two levels let the access through. -/
def State.walkEvents (s : State) (va : VAddr) : List Event :=
  (if s.permits (s.dirEntry va) then [] else [.perm va .dir (s.dirEntry va)]) ++
    if s.permits (s.tabEntry va) then [] else [.perm va .tab (s.tabEntry va)]

theorem walked_withUnread (s : State) (old : List Event) (d : Memory) (va : VAddr) :
    (s.withUnread old d).walked va = (s.walked va).withUnread (old ++ s.walkEvents va) d := by
  rw [State.walked, dirEntry_withUnread, tabEntry_withUnread, pass_withUnread, pass_withUnread, pass_permits,
    List.append_assoc]
  rfl

/-- An access appends its walk's logs and, if it completes, its own event. -/
theorem access_blind (va : VAddr) (s : State) :
    Blind (readCmd Config.params va) s ∧ Blind (writeCmd Config.params va) s := by
  rcases walk_cases va s with hc | ⟨hc, hd⟩ | ⟨hc, hd, ht⟩ | ⟨hc, hd, ht⟩
  · obtain ⟨hr, hw⟩ := access_noContext va hc
    refine ⟨⟨[.fatal va .ctx 0#32], fun old d => ?_⟩, ⟨[.fatal va .ctx 0#32], fun old d => ?_⟩⟩ <;>
    · obtain ⟨hr', hw'⟩ := access_noContext va (s := s.withUnread old d) hc
      simp only [hr, hw, hr', hw', logFault_withUnread, complete_withUnread, if_true]
  · obtain ⟨hr, hw⟩ := access_dirAbort va hc hd
    refine ⟨⟨[.fatal va .dir (s.dirEntry va)], fun old d => ?_⟩,
      ⟨[.fatal va .dir (s.dirEntry va)], fun old d => ?_⟩⟩ <;>
    · obtain ⟨hr', hw'⟩ := access_dirAbort va (s := s.withUnread old d) hc hd
      simp only [hr, hw, hr', hw', dirEntry_withUnread, logFault_withUnread, complete_withUnread, if_true]
  · obtain ⟨hr, hw⟩ := access_tabAbort va hc hd ht
    let events : List Event := (if s.permits (s.dirEntry va) then [] else [.perm va .dir (s.dirEntry va)]) ++
      [.fatal va .tab (s.tabEntry va)]
    refine ⟨⟨events, fun old d => ?_⟩, ⟨events, fun old d => ?_⟩⟩ <;>
    · obtain ⟨hr', hw'⟩ := access_tabAbort va (s := s.withUnread old d) hc hd ht
      simp only [hr, hw, hr', hw', dirEntry_withUnread, tabEntry_withUnread, permits_withUnread, pass_withUnread,
        logFault_withUnread, complete_withUnread, if_true, List.append_assoc, events]
  · refine ⟨⟨s.walkEvents va ++ [.access .read va (s.dataAddr va) (s.mem (s.dataAddr va))], fun old d => ?_⟩,
      ⟨s.walkEvents va ++ [.access .write va (s.dataAddr va) s.wdata], fun old d => ?_⟩⟩
    · rw [readCmd_ok va hc hd ht, readCmd_ok va (s := s.withUnread old d) hc hd ht, walked_withUnread]
      simp only [dirEntry_withUnread, tabEntry_withUnread, dataAddr_withUnread, mem_withUnread,
        permits_withUnread, emit_withUnread, complete_withUnread, List.append_assoc]
    · rw [writeCmd_ok va hc hd ht, writeCmd_ok va (s := s.withUnread old d) hc hd ht, walked_withUnread]
      simp only [dirEntry_withUnread, tabEntry_withUnread, dataAddr_withUnread,
        permits_withUnread, memWrite_withUnread, emit_withUnread, complete_withUnread, List.append_assoc]
      rfl

/-! MAP, step by step. -/

theorem mapDirectory_blind (s : State) : ∃ events, ∀ old d, mapDirectory Config.params (s.withUnread old d)
    = (mapDirectory Config.params s).map (State.withUnread · (old ++ events) d) := by
  rcases mapDirectory_cases s with ⟨k, hk, h⟩ | ⟨f, k, hun, hf, hk, h⟩ | ⟨hun, hall, h⟩ | ⟨hun, hfull, h⟩
  · rw [h]
    exact ⟨[.struct .dir (entryFrame (s.slot k)) .reused],
      fun old d => mapDirectory_reused (s.withUnread old d) k hk⟩
  · rw [h]
    exact ⟨[.struct .dir f .new], fun old d => mapDirectory_new (s.withUnread old d) f k hun hf hk⟩
  · rw [h]
    exact ⟨[], fun old d => mapDirectory_noFrame (s.withUnread old d) hun hall⟩
  · cases hscan : s.frameScan Config.params with
    | none =>
      rw [mapDirectory_noFrame s hun ((frameScan_eq_none s).1 hscan)] at h
      cases h
    | some f =>
      rw [h]
      have hf := (frameScan_eq_some s f).1 hscan
      exact ⟨[], fun old d => mapDirectory_noSlot (s.withUnread old d) f hun hf hfull⟩

theorem mapEntry_blind (s : State) (role : Role) (ea : PAddr) :
    ∃ events, ∀ old d, mapEntry Config.params role ea (s.withUnread old d)
      = (mapEntry Config.params role ea s).map fun p => (p.1.withUnread (old ++ events) d, p.2) := by
  rcases mapEntry_cases s role ea with ⟨f, he, hf, h⟩ | ⟨he, hall, h⟩ | ⟨f, hf, he, h⟩ <;> rw [h]
  · refine ⟨[.struct role f .new], fun old d => ?_⟩
    rw [mapEntry_new (s.withUnread old d) role ea f he hf, newEntry_withUnread]
    rfl
  · exact ⟨[], fun old d => mapEntry_noFrame (s.withUnread old d) role ea he hall⟩
  · exact ⟨[.struct role f .reused], fun old d => mapEntry_reused (s.withUnread old d) role ea f he hf⟩

theorem mapCmd_blind (va : VAddr) (s : State) : Blind (mapCmd Config.params va) s := by
  by_cases hw : wordOffset va = 0#8
  case neg =>
    refine blind_of_silent fun old d => ?_
    rw [mapCmd_unaligned hw, mapCmd_unaligned hw, raise_withUnread]
  by_cases hp : s.curPid = 0#8
  case pos =>
    refine blind_of_silent fun old d => ?_
    rw [mapCmd_noProcess hw hp, mapCmd_noProcess (s := s.withUnread old d) hw hp, raise_withUnread]
  have hp' := fun old d => show (s.withUnread old d).curPid ≠ 0#8 from hp
  obtain ⟨ev1, hdir⟩ := mapDirectory_blind s
  cases h1 : mapDirectory Config.params s with
  | error e =>
    refine blind_of_silent fun old d => ?_
    rw [mapCmd_dirError hw hp h1, mapCmd_dirError hw (hp' old d) (by rw [hdir, h1]; rfl), raise_withUnread]
  | ok s1 =>
    have h1' := fun old d => (hdir old d).trans (congrArg _ h1)
    obtain ⟨ev2, htab⟩ := mapEntry_blind s1 .table (frameWord s1.activeDir (dirIndex va))
    cases h2 : mapEntry Config.params .table (frameWord s1.activeDir (dirIndex va)) s1 with
    | error e =>
      refine ⟨ev1, fun old d => ?_⟩
      rw [mapCmd_tableError hw hp h1 h2,
        mapCmd_tableError hw (hp' old d) (h1' old d) ((htab _ d).trans (congrArg _ h2)), raise_withUnread]
    | ok p =>
      obtain ⟨s2, t⟩ := p
      have h2' := fun old d => (htab (old ++ ev1) d).trans (congrArg _ h2)
      obtain ⟨ev3, hdata⟩ := mapEntry_blind s2 .data (frameWord t (tabIndex va))
      cases hx : mapExhausted Config.params s s2 (frameWord t (tabIndex va)) with
      | true =>
        refine ⟨ev1 ++ ev2, fun old d => ?_⟩
        rw [mapCmd_exhausted hw hp h1 h2 hx, mapCmd_exhausted hw (hp' old d) (h1' old d) (h2' old d) hx,
          ← List.append_assoc]
        rfl
      | false =>
        cases h3 : mapEntry Config.params .data (frameWord t (tabIndex va)) s2 with
        | error e =>
          refine ⟨ev1 ++ ev2, fun old d => ?_⟩
          rw [mapCmd_dataError hw hp h1 h2 hx h3, mapCmd_dataError hw (hp' old d) (h1' old d) (h2' old d) hx
            ((hdata _ d).trans (congrArg _ h3)), raise_withUnread, List.append_assoc]
        | ok p =>
          obtain ⟨s3, f⟩ := p
          refine ⟨ev1 ++ ev2 ++ ev3, fun old d => ?_⟩
          rw [mapCmd_done hw hp h1 h2 hx h3, mapCmd_done hw (hp' old d) (h1' old d) (h2' old d) hx
            ((hdata _ d).trans (congrArg _ h3)), finish_withUnread, ← List.append_assoc, ← List.append_assoc]

/-! UNMAP, level by level. -/

theorem freedData_withUnread (s : State) (old : List Event) (d : Memory) (va : VAddr) :
    (s.withUnread old d).freedData va
      = (s.freedData va).withUnread (old ++ [.release .data (entryFrame (s.tabEntry va))]) d :=
  unmapData_withUnread s old d _ _

theorem freedTable_withUnread (s : State) (old : List Event) (d : Memory) (va : VAddr) :
    (s.withUnread old d).freedTable va
      = (s.freedTable va).withUnread (old ++ [.release .data (entryFrame (s.tabEntry va)),
          .release .table (entryFrame (s.dirEntry va))]) d := by
  rw [State.freedTable, freedData_withUnread, dirEntry_withUnread, unmapTable_withUnread, List.append_assoc]
  rfl

theorem freedDirectory_withUnread (s : State) (old : List Event) (d : Memory) (va : VAddr) :
    (s.withUnread old d).freedDirectory va
      = (s.freedDirectory va).withUnread (old ++ [.release .data (entryFrame (s.tabEntry va)),
          .release .table (entryFrame (s.dirEntry va)), .release .dir s.activeDir]) d := by
  rw [State.freedDirectory, freedTable_withUnread, unmapDirectory_withUnread, List.append_assoc]
  rfl

theorem unmapCmd_blind (va : VAddr) (s : State) : Blind (unmapCmd Config.params va) s := by
  by_cases hw : wordOffset va = 0#8
  case neg =>
    refine blind_of_silent fun old d => ?_
    rw [unmapCmd_unaligned hw, unmapCmd_unaligned hw, raise_withUnread]
  by_cases hg : 16 ≤ s.activeDir.toNat
  case neg =>
    refine blind_of_silent fun old d => ?_
    have hg := Nat.not_le.1 hg
    rw [unmapCmd_noContext hw hg, unmapCmd_noContext (s := s.withUnread old d) hw hg, raise_withUnread]
  by_cases ht : 16 ≤ (entryFrame (s.dirEntry va)).toNat
  case neg =>
    refine blind_of_silent fun old d => ?_
    have ht := Nat.not_le.1 ht
    rw [unmapCmd_noTable hw hg ht, unmapCmd_noTable (s := s.withUnread old d) hw hg ht, raise_withUnread]
  cases ht' : (s.freedData va).frameEmpty (entryFrame (s.dirEntry va)) with
  | false =>
    refine ⟨[.release .data (entryFrame (s.tabEntry va))], fun old d => ?_⟩
    rw [unmapCmd_data hw hg ht ht', unmapCmd_data (s := s.withUnread old d) hw hg ht
      (by rw [freedData_withUnread]; exact ht'), freedData_withUnread, finish_withUnread]
  | true =>
    have ht'' : ∀ old d, ((s.withUnread old d).freedData va).frameEmpty
        (entryFrame ((s.withUnread old d).dirEntry va)) = true := fun old d => by rw [freedData_withUnread]; exact ht'
    cases hg' : (s.freedTable va).frameEmpty s.activeDir with
    | false =>
      refine ⟨[.release .data (entryFrame (s.tabEntry va)), .release .table (entryFrame (s.dirEntry va))],
        fun old d => ?_⟩
      rw [unmapCmd_table hw hg ht ht' hg', unmapCmd_table (s := s.withUnread old d) hw hg ht (ht'' old d)
        (by rw [freedTable_withUnread]; exact hg'), freedTable_withUnread, finish_withUnread]
    | true =>
      refine ⟨[.release .data (entryFrame (s.tabEntry va)), .release .table (entryFrame (s.dirEntry va)),
        .release .dir s.activeDir], fun old d => ?_⟩
      rw [unmapCmd_directory hw hg ht ht' hg', unmapCmd_directory (s := s.withUnread old d) hw hg ht (ht'' old d)
        (by rw [freedTable_withUnread]; exact hg'), freedDirectory_withUnread, finish_withUnread]

/-! The commands that do not walk or map. -/

theorem findCmd_blind (s : State) : Blind (findCmd Config.params) s := by
  refine blind_of_silent fun old d => ?_
  by_cases hp : s.curPid = 0#8
  · rw [findCmd_noProcess _ hp, findCmd_noProcess (s := s.withUnread old d) _ hp, raise_withUnread]
  · cases h : s.regFind Config.params s.curPid with
    | none =>
      have h := (regFind_eq_none s _).1 h
      rw [findCmd_miss hp h, findCmd_miss (s := s.withUnread old d) hp h, raise_withUnread]
    | some k =>
      have h := (regFind_eq_some s _ k).1 h
      rw [findCmd_hit hp h, findCmd_hit (s := s.withUnread old d) hp h]
      rfl

theorem fallocCmd_blind (s : State) : Blind (fallocCmd Config.params) s := by
  refine blind_of_silent fun old d => ?_
  cases h : s.frameScan Config.params with
  | none =>
    have h := (frameScan_eq_none s).1 h
    rw [fallocCmd_allFramesUsed h, fallocCmd_allFramesUsed (s := s.withUnread old d) h, raise_withUnread]
  | some f =>
    have h := (frameScan_eq_some s f).1 h
    rw [fallocCmd_lowestFree h, fallocCmd_lowestFree (s := s.withUnread old d) h, frameSet_withUnread,
      finish_withUnread]

theorem sfindCmd_blind (s : State) : Blind (sfindCmd Config.params) s := by
  refine blind_of_silent fun old d => ?_
  have same : (s.withUnread old d).sectorScan Config.params = s.sectorScan Config.params := rfl
  unfold sfindCmd
  rw [same]
  cases s.sectorScan Config.params <;> rfl

theorem switchCmd_blind (pid : Pid) (s : State) : Blind (switchCmd pid) s := by
  refine blind_of_silent fun old d => ?_
  by_cases hp : pid = 0#8
  · subst hp
    rw [switchCmd_zero, switchCmd_zero, raise_withUnread]
  · rw [switchCmd_of_ne_zero _ hp, switchCmd_of_ne_zero _ hp]
    rfl

/-- The nine commands that do not reach the DiskStore (R37). -/
theorem effect_blind (i : Instr) (s : State) :
    (∃ f k, i = .dump f k ∨ i = .restore k f) ∨ i = .init ∨ Blind (effect i) s := by
  cases i with
  | read va => exact .inr (.inr (access_blind va s).1)
  | write va => exact .inr (.inr (access_blind va s).2)
  | map va => exact .inr (.inr (mapCmd_blind va s))
  | unmap va => exact .inr (.inr (unmapCmd_blind va s))
  | switch pid => exact .inr (.inr (switchCmd_blind pid s))
  | find => exact .inr (.inr (findCmd_blind s))
  | falloc => exact .inr (.inr (fallocCmd_blind s))
  | ffree f => exact .inr (.inr (blind_of_silent fun _ _ => rfl))
  | sfind => exact .inr (.inr (sfindCmd_blind s))
  | dump f k => exact .inl ⟨f, k, .inl rfl⟩
  | restore k f => exact .inl ⟨f, k, .inr rfl⟩
  | init => exact .inr (.inl rfl)

/-- DUMP and RESTORE append their event to any trace. -/
theorem swap_withTrace (s : State) (f : Frame) (k : Sector) (old : List Event) :
    dumpCmd f k { s with trace := old }
      = { dumpCmd f k s with trace := old ++ [.swapio .dump f k] } ∧
    restoreCmd Config.params k f { s with trace := old }
      = { restoreCmd Config.params k f s with trace := old ++ [.swapio .restore f k] } := ⟨rfl, rfl⟩

theorem initFrames_withUnread (s : State) (old : List Event) (d : Memory) :
    (s.withUnread old d).initFrames = s.initFrames.withUnread old d :=
  foldl_withUnread { s with frames := s.frames.zero 0 4096 } old d (fun _ _ => rfl) _

/-- INIT reads no trace and appends nothing to it (R104). -/
theorem initCmd_withTrace (s : State) (old : List Event) :
    initCmd Config.params { s with trace := old } = { initCmd Config.params s with trace := old } := by
  have hdisk : s.initFrames.disk = s.disk := by rw [initFrames_eq]
  have hframes : ({ s with trace := old } : State).initFrames = { s.initFrames with trace := old } :=
    (initFrames_withUnread s old s.disk).trans (congrArg (s.initFrames.withUnread old) hdisk.symm)
  rw [initCmd_eq, initCmd_eq, hframes]
  generalize s.initFrames = booted
  rfl

/-- What a blind command does to its own trace and its own DiskStore. -/
theorem trace_and_disk_of_blind {f : State → State} {s : State} {events : List Event}
    (h : ∀ old d, f (s.withUnread old d) = (f s).withUnread (old ++ events) d) :
    (f s).trace = s.trace ++ events ∧ (f s).disk = s.disk := by
  have hself : f s = (f s).withUnread (s.trace ++ events) s.disk := h s.trace s.disk
  have hdisk := congrArg State.disk hself
  exact ⟨congrArg State.trace hself, hdisk⟩

/-- Settles O58: DUMP, RESTORE and INIT by themselves, the others from their blindness. -/
theorem traceIsNeverRead : Obligations.TraceIsNeverRead := by
  intro i s u hu
  rw [exec_eq] at hu
  obtain rfl := Host.Outcome.next.inj hu
  rcases effect_blind i s with ⟨f, k, rfl | rfl⟩ | rfl | ⟨events, h⟩
  · exact ⟨_, rfl, fun old => congrArg Host.Outcome.next (swap_withTrace s f k old).1⟩
  · exact ⟨_, rfl, fun old => congrArg Host.Outcome.next (swap_withTrace s f k old).2⟩
  · refine ⟨[], ?_, fun old => ?_⟩
    · rw [effect, initCmd_eq, List.append_nil]
    · rw [List.append_nil]
      exact congrArg Host.Outcome.next (initCmd_withTrace s old)
  · obtain ⟨htrace, hdisk⟩ := trace_and_disk_of_blind h
    refine ⟨events, htrace, fun old => ?_⟩
    rw [exec_eq]
    exact congrArg Host.Outcome.next
      ((h old s.disk).trans (congrArg ((effect i s).withUnread (old ++ events)) hdisk.symm))

/-- Settles O59: a blind command does the same with another DiskStore, and so leaves its own. -/
theorem onlyThreeCommandsReachTheDisk : Obligations.OnlyThreeCommandsReachTheDisk := by
  intro i s u hu
  rw [exec_eq] at hu
  obtain rfl := Host.Outcome.next.inj hu
  refine (effect_blind i s).imp_right (Or.imp_right fun ⟨events, h⟩ => ?_)
  obtain ⟨htrace, hdisk⟩ := trace_and_disk_of_blind h
  refine ⟨hdisk, fun d => ?_⟩
  rw [exec_eq]
  exact congrArg Host.Outcome.next
    ((h s.trace d).trans (congrArg (fun events' => (effect i s).withUnread events' d) htrace.symm))

end Sys2Proof.Machine

/-! Claims about several commands and about other hardware: allocation in any order, FALLOC and FFREE, the disk round
trip and the persisted swap bitmap. -/

namespace Sys2Proof.Machine

/-! ### Scans in any order -/

/-- Lowest-first scanning does not look at the other parameters. -/
theorem scan_lowestFirst {c : Params} (h : c.allocOrder = .lowestFirst) (m : Memory) (base words limit : Nat) :
    m.scan c base words limit = m.scan Config.params base words limit := by
  simp only [Memory.scan, h, Config.params_allocOrder]

/-- A choice among the clear bits finds none only when there is none: its place is taken modulo their number. -/
theorem scan_any_eq_none {c : Params} {choose : List Nat → Nat} (h : c.allocOrder = .any choose) (m : Memory)
    (base words limit : Nat) :
    m.scan c base words limit = none ↔ ∀ i < limit, m.testBit base i = true := by
  have hempty : ∀ (clear : List Nat) (n : Nat), clear[n % clear.length]? = none ↔ clear = [] := by
    intro clear n
    rw [List.getElem?_eq_none_iff, ← List.length_eq_zero_iff]
    constructor
    · intro hle
      by_contra hpos
      exact absurd (Nat.mod_lt n (Nat.pos_of_ne_zero hpos)) (Nat.not_lt.2 hle)
    · intro hzero
      rw [hzero]
      exact Nat.zero_le _
  simp only [Memory.scan, h, hempty, List.filter_eq_nil_iff, List.mem_range, Bool.not_eq_true', Bool.not_eq_false]

/-- Whatever ALLOC_ORDER is, a scan finds none exactly when every bit below its limit is set (R9, D44). -/
theorem scan_eq_none_iff (c : Params) (m : Memory) {base words limit : Nat} (hl : limit ≤ 32 * words) :
    m.scan c base words limit = none ↔ ∀ i < limit, m.testBit base i = true := by
  cases h : c.allocOrder with
  | lowestFirst => rw [scan_lowestFirst h, Memory.scan_eq_none _ _ _ _ hl]
  | any choose => exact scan_any_eq_none h m base words limit

/-- Settles O47. -/
theorem anyAllocationOrderNamesAClearBit : Obligations.AnyAllocationOrderNamesAClearBit := by
  refine fun c s => ⟨fun f hf => ?_, ?_, fun i hi => Memory.scan_clear c _ _ _ _ _ hi, fun hsectors => ?_⟩
  · obtain ⟨i, hi, rfl⟩ := Option.map_eq_some_iff.1 hf
    obtain ⟨hlt, hclear⟩ := Memory.scan_clear c _ _ _ _ _ hi
    exact (testBit_eq_frameUsed s i hlt).symm.trans hclear
  · unfold State.frameScan
    rw [Option.map_eq_none_iff, scan_eq_none_iff c _ (words := Config.fbmWords) (by decide),
      ← Memory.scan_eq_none _ _ Config.fbmWords _ (by decide),
      ← Option.map_eq_none_iff (f := BitVec.ofNat 12)]
    exact frameScan_eq_none s
  · exact scan_eq_none_iff c _ hsectors

/-! ### FALLOC and FFREE -/

/-- Setting a clear bit and clearing it again gives the same words. -/
theorem read_clearBit_setBit {m : Memory} {base i : Nat} (h : m.testBit base i = false) (a : Nat) :
    ((m.setBit base i).clearBit base i).read a = m.read a := by
  rw [Memory.read_clearBit, Memory.read_setBit]
  by_cases ha : a = base + i / 32
  · rw [if_pos ha, if_pos ha, ha]
    apply BitVec.eq_of_getLsbD_eq
    intro b hb
    rw [BitVec.getLsbD_and, BitVec.getLsbD_or, BitVec.getLsbD_not, getLsbD_bitMask i b hb]
    by_cases hbit : b = i % 32
    · rw [hbit]
      unfold Memory.testBit at h
      simp [h]
    · simp [hbit, hb]
  · rw [if_neg ha, if_neg ha]

/-- Settles O46: the bit was clear, so the words are the same, and canonical lists with the same words are equal. -/
theorem fallocThenFfreeRestoresTheFrameStore : Obligations.FallocThenFfreeRestoresTheFrameStore := by
  intro s u hwf hu hok
  obtain rfl := Host.Outcome.next.inj hu
  cases hscan : s.frameScan Config.params with
  | none =>
    rw [fallocCmd_allFramesUsed ((frameScan_eq_none s).1 hscan)] at hok
    cases hok
  | some f =>
    have hfree := (frameScan_eq_some s f).1 hscan
    have hback : (f.setWidth 32).setWidth 12 = f := by simp
    refine ⟨_, rfl, ?_⟩
    rw [fallocCmd_lowestFree hfree]
    change ((s.frames.setBit 0 f.toNat).clearBit 0 ((f.setWidth 32).setWidth 12).toNat) = s.frames
    rw [hback]
    exact Memory.eq_of_read_eq _ _ _ (storesWf_frameClear (storesWf_frameSet hwf f) f).1 hwf.1
      (read_clearBit_setBit hfree.1)

/-! ### The disk round trip and the persisted bitmap -/

/-- RESTORE marks the sector free, whatever the target frame (R102). -/
theorem mirrorBit_restoreCmd (s : State) (k : Sector) (f : Frame) :
    (restoreCmd Config.params k f s).mirrorBit k = false := by
  rw [restoreCmd, State.mirrorBit, sectorUsed_finish, sectorUsed_emit, sectorUsed_persistSwap,
    sectorUsed_sectorClear, decide_eq_true rfl]
  rfl

/-- Settles O51: RESTORE reads back what DUMP wrote; the cleared mirror bit is the last change of the FrameStore. -/
theorem dumpThenRestoreCopiesTheFrame : Obligations.DumpThenRestoreCopiesTheFrame := by
  rintro s u v f f2 k ⟨⟩ ⟨⟩
  have hdumped : ∀ i, (dumpCmd f k s).diskRead k i = s.mem (frameWord f i) := fun i =>
    (diskRead_frameToSector s f k k i).trans (if_pos rfl)
  refine ⟨mirrorBit_restoreCmd _ k f2, fun i hi => ?_⟩
  have hne : frameWord f2 i ≠ mirrorWord k.toNat := by
    rcases hi with hf2 | hne
    · intro h
      exact hf2 (by rw [← frameOf_frameWord f2 i, h, frameOf_mirrorWord])
    · exact hne
  have hoffset : (frameWord f2 i).extractLsb' 0 8 = i := by
    apply word_ext
    have := i.isLt
    rw [toNat_lowField, frameWord_toNat]
    omega
  rw [mem_restoreCmd, if_neg hne, mem_sectorToFrame, frameOf_frameWord, if_pos rfl, hoffset, hdumped]

/-- Settles O52: RESTORE and INIT end with the mirror persisted, SFIND on this hardware does not. -/
theorem swapBitmapIsPersistedByRestoreAndInit : Obligations.SwapBitmapIsPersistedByRestoreAndInit := by
  refine fun s u => ⟨?_, fun hu hok => ?_⟩
  · rintro i (⟨k, f, rfl⟩ | rfl) ⟨⟩ o
    · exact (diskRead_restoreCmd s k f 0#13 o).trans (if_pos rfl)
    · exact (diskRead_initCmd s 0#13 o).trans (if_pos rfl)
  · obtain rfl := Host.Outcome.next.inj hu
    rcases sfindCmd_cases s with h | ⟨i, hfree, h⟩
    · rw [h] at hok
      cases hok
    · have hback : (i.setWidth 32).setWidth 13 = i := by simp
      rw [h]
      change (s.sectorSet Config.params i.toNat).mirrorBit ((i.setWidth 32).setWidth 13) = true ∧
        s.mirrorBit ((i.setWidth 32).setWidth 13) = false ∧ _
      rw [hback, mirrorBit_sectorSet]
      exact ⟨by simp, hfree, fun _ _ => rfl⟩

end Sys2Proof.Machine

/-! What MAP, UNMAP, SWITCH, READ and WRITE promise together (spec/95_test_vectors.md), and the registry's one entry per
process (spec/20_memory.md R67). -/

namespace Sys2Proof.Machine

/-! ### A MAP that built all three levels -/

/-- MAP of va took s to u with a new Directory f in slot k, a new Table t and a new data frame d. -/
structure BuiltAll (s u : State) (va : VAddr) (f t d : Frame) (k : Nat) : Prop where
  aligned : wordOffset va = 0#8
  process : s.curPid ≠ 0#8
  slotFree : s.lowestFreeSlot k
  dirFree : s.lowestFree f
  tableFree : s.nextFree f t
  dataFree : s.nextFree t d
  dir_ge : 16 ≤ f.toNat
  registers : u = { s with
    frames := u.frames, activeDir := f, rdata := d.setWidth 32, status := 0#32
    trace := s.trace ++ [.struct .dir f .new, .struct .table t .new, .struct .data d .new] }
  used : ∀ g, u.frameUsed g = (decide (g = f ∨ g = t ∨ g = d) || s.frameUsed g)
  words : ∀ pa : PAddr, 128 ≤ pa.toNat → u.mem pa =
    if pa = slotAddr Config.params k then s.curPid ++ 0#12 ++ f
    else if pa = frameWord f (dirIndex va) then s.curPid ++ 0x00#8 ++ 0xD#4 ++ t
    else if pa = frameWord t (tabIndex va) then s.curPid ++ 0x00#8 ++ 0xD#4 ++ d
    else if frameOf pa = f ∨ frameOf pa = t then 0#32
    else s.mem pa

/-- MAP with three frames and a slot free, for a process with no Directory (R87). -/
theorem exists_builtAll {s : State} {va : VAddr} {f t d : Frame} {k : Nat} (hw : wordOffset va = 0#8)
    (hp : s.curPid ≠ 0#8) (hun : s.unregistered s.curPid) (hk : s.lowestFreeSlot k) (hf : s.lowestFree f)
    (ht : s.nextFree f t) (hd : s.nextFree t d) (f16 : 16 ≤ f.toNat) :
    ∃ u, exec (.map va) s = .next u ∧ BuiltAll s u va f t d k := by
  obtain ⟨u, hu, hreg, hused, hmem⟩ := mapBuildsAllThreeLevels s va f t d k hw hp hun hk hf ht hd f16
  exact ⟨u, hu, hw, hp, hk, hf, ht, hd, f16, hreg, hused, hmem⟩

section marked
variable {s u : State} {f t d : Frame} (hu : ∀ g, u.frameUsed g = (decide (g = f) || s.frameUsed g))
include hu

/-- The lowest free frame once f, the lowest one, is marked was the next one before. -/
theorem nextFree_of_lowestFree (hf : s.lowestFree f) (ht : u.lowestFree t) : s.nextFree f t := by
  have hfree := ht.1
  rw [hu, Bool.or_eq_false_iff, decide_eq_false_iff_not] at hfree
  obtain ⟨hne, hfree⟩ := hfree
  refine ⟨?_, hfree, fun g hfg hgt => ?_⟩
  · rcases Nat.lt_trichotomy f.toNat t.toNat with hlt | heq | hgt
    · exact hlt
    · exact absurd (BitVec.eq_of_toNat_eq heq).symm hne
    · rw [hf.2 t hgt] at hfree
      cases hfree
  · have hused := ht.2 g hgt
    rwa [hu, decide_eq_false (BitVec.ne_of_lt hfg).symm, Bool.false_or] at hused

/-- What is next above a higher frame was next before f was marked. -/
theorem nextFree_of_nextFree_marked (hft : f < t) (hd : u.nextFree t d) : s.nextFree t d := by
  obtain ⟨hlt, hfree, hbetween⟩ := hd
  rw [hu, Bool.or_eq_false_iff] at hfree
  refine ⟨hlt, hfree.2, fun g htg hgd => ?_⟩
  have hused := hbetween g htg hgd
  rwa [hu, decide_eq_false (BitVec.ne_of_lt (BitVec.lt_trans hft htg)).symm, Bool.false_or] at hused

end marked

/-- Every code but OK shows in STATUS. -/
theorem statusWord_ne_zero {e : Status} (he : e ≠ .ok) : statusWord e false false ≠ 0#32 := by
  cases e with
  | ok => exact absurd rfl he
  | alignmentError | invalidContext | invalidMapping | outOfFrames | outOfSectors | registryExhausted | fatalFault
  | absent | illegalCommand => decide

theorem raise_not_ok (s : State) {e : Status} (he : e ≠ .ok) : (s.raise e).status ≠ 0#32 :=
  statusWord_ne_zero he

/-- A MAP that ends OK for a process with no Directory has built all three levels. -/
theorem builtAll_of_ok {s u : State} {va : VAddr} (hun : s.unregistered s.curPid) (hres : s.reservedUsed)
    (hu : exec (.map va) s = .next u) (hok : u.status = 0#32) : ∃ f t d k, BuiltAll s u va f t d k := by
  obtain ⟨f, t, d, k, hw, hp, hk, hf, ht, hd, f16⟩ : ∃ f t d k, wordOffset va = 0#8 ∧ s.curPid ≠ 0#8 ∧
      s.lowestFreeSlot k ∧ s.lowestFree f ∧ s.nextFree f t ∧ s.nextFree t d ∧ 16 ≤ f.toNat := by
    have hend := mapCmd_ends s va
    rw [show mapCmd Config.params va s = u from Host.Outcome.next.inj hu] at hend
    cases hend with
    | turnedAway e he => exact absurd hok (raise_not_ok _ he)
    | noTable | exhausted | noData => exact absurd hok (raise_not_ok _ (by decide))
    | done s1 s2 s3 t d hw hp h1 h2 hx h3 =>
      rcases mapDirectory_ok h1 with ⟨k, ⟨hk, hcarries, -⟩, -⟩ | ⟨f, k, -, hf, hk, rfl⟩
      · exact absurd hcarries (hun k hk)
      have f16 := lowestFree_ge hres hf
      have used1 := fun g => frameUsed_newDirectory s f g k hk.1 (ne_zero_of_le f f16)
      have h2 : mapEntry Config.params .table (frameWord f (dirIndex va)) (s.newDirectory f k) = .ok (s2, t) := h2
      rcases mapEntry_ok h2 with ⟨-, ht, rfl⟩ | ⟨ht0, he, -⟩
      case inr =>
        rw [newDirectory_entry s f k f _ hk.1 f16, if_pos rfl, entryFrame_zero] at he
        exact absurd he.symm ht0
      have hnext := nextFree_of_lowestFree used1 hf ht
      have t16 : 16 ≤ t.toNat := Nat.le_trans f16 (Nat.le_of_lt hnext.1)
      have hne : t ≠ f := (BitVec.ne_of_lt hnext.1).symm
      rcases mapEntry_ok h3 with ⟨-, hd, -⟩ | ⟨hd0, he, -⟩
      case inr =>
        have hempty := newTwoLevels_table_empty (s := s) (k := k) (i := dirIndex va) (j := tabIndex va) t16 hne
        exact absurd (he.symm.trans hempty) hd0
      have used2 := fun g => frameUsed_newEntry (s.newDirectory f k) .table (frameWord f (dirIndex va)) t g
        (frameWord_ge f _ (ne_zero_of_le f f16)) fun _ => ne_zero_of_le t t16
      exact ⟨f, t, d, k, hw, hp, hk, hf, hnext,
        nextFree_of_nextFree_marked used1 hnext.1 (nextFree_of_lowestFree used2 ht hd), f16⟩
  obtain ⟨u', hu', hbuilt⟩ := exists_builtAll hw hp hun hk hf ht hd f16
  obtain rfl := Host.Outcome.next.inj (hu.symm.trans hu')
  exact ⟨f, t, d, k, hbuilt⟩

section built
variable {s u : State} {va : VAddr} {f t d : Frame} {k : Nat} (h : BuiltAll s u va f t d k)
include h

theorem BuiltAll.table_ge : 16 ≤ t.toNat := Nat.le_trans h.dir_ge (Nat.le_of_lt h.tableFree.1)

theorem BuiltAll.data_ge : 16 ≤ d.toNat := Nat.le_trans h.table_ge (Nat.le_of_lt h.dataFree.1)

theorem BuiltAll.table_ne_dir : t ≠ f := (BitVec.ne_of_lt h.tableFree.1).symm

theorem BuiltAll.data_ne_table : d ≠ t := (BitVec.ne_of_lt h.dataFree.1).symm

theorem BuiltAll.data_ne_dir : d ≠ f := (BitVec.ne_of_lt (BitVec.lt_trans h.tableFree.1 h.dataFree.1)).symm

theorem BuiltAll.curPid_eq : u.curPid = s.curPid := by rw [h.registers]

theorem BuiltAll.activeDir_eq : u.activeDir = f := by rw [h.registers]

theorem BuiltAll.rdata_eq : u.rdata = d.setWidth 32 := by rw [h.registers]

/-- The Directory's words: its entry for va and zeros. -/
theorem BuiltAll.dirWord (i : Offset) :
    u.mem (frameWord f i) = if i = dirIndex va then mapPte Config.params s.curPid t else 0#32 := by
  have hslot := (slotAddr_apart k h.slotFree.1).2.2 f i h.dir_ge
  rw [h.words _ (frameWord_ge f i (ne_zero_of_le f h.dir_ge)), if_neg hslot.symm, mapPte_eq, frameOf_frameWord]
  have hne := h.table_ne_dir
  simp only [frameWord_inj]
  grind

/-- The Table's words: its entry for va and zeros. -/
theorem BuiltAll.tableWord (j : Offset) :
    u.mem (frameWord t j) = if j = tabIndex va then mapPte Config.params s.curPid d else 0#32 := by
  have hslot := (slotAddr_apart k h.slotFree.1).2.2 t j h.table_ge
  rw [h.words _ (frameWord_ge t j (ne_zero_of_le t h.table_ge)), if_neg hslot.symm, mapPte_eq, frameOf_frameWord]
  have hne := h.table_ne_dir
  simp only [frameWord_inj]
  grind

/-- The registry: the new entry in slot k. -/
theorem BuiltAll.slot (j : Nat) (hj : j < 3584) :
    u.slot j = if j = k then regEntry Config.params s.curPid f else s.slot j := by
  obtain ⟨hframe, -, hentry⟩ := slotAddr_apart j hj
  rw [State.slot, h.words _ (slotAddr_ge j hj), if_neg (hentry f _ h.dir_ge), if_neg (hentry t _ h.table_ge),
    if_neg (not_or.2 ⟨hframe f h.dir_ge, hframe t h.table_ge⟩), regEntry_eq]
  by_cases hjk : j = k
  · rw [if_pos (by rw [hjk]), if_pos hjk]
  · rw [if_neg fun e => hjk (slotAddr_inj j k hj h.slotFree.1 e), if_neg hjk]
    rfl

/-- The entries that a walk of va's page reads. -/
theorem BuiltAll.entries {wa : VAddr} (hd : dirIndex wa = dirIndex va) (ht : tabIndex wa = tabIndex va) :
    u.dirEntry wa = mapPte Config.params s.curPid t ∧ u.tabEntry wa = mapPte Config.params s.curPid d := by
  have hdir : u.dirEntry wa = mapPte Config.params s.curPid t := by
    rw [State.dirEntry, State.dirEntryAddr, h.activeDir_eq, h.dirWord, if_pos hd]
  refine ⟨hdir, ?_⟩
  rw [State.tabEntry, State.tabEntryAddr, hdir, entryFrame_mapPte, h.tableWord, if_pos ht]

end built

/-! ### E1: MAP, WRITE, READ -/

/-- A WRITE and then a READ of one address, through two entries that pass the check and a data frame that is neither
the Directory nor the Table. -/
theorem read_after_write {s : State} {wa : VAddr} (hc : 16 ≤ s.activeDir.toNat)
    (hd : s.permits (s.dirEntry wa) = true) (ht : s.permits (s.tabEntry wa) = true)
    (hdir : s.activeDir ≠ entryFrame (s.tabEntry wa))
    (htab : entryFrame (s.dirEntry wa) ≠ entryFrame (s.tabEntry wa)) :
    ∃ v w : State, exec (.write wa) s = .next v ∧ exec (.read wa) v = .next w ∧
      v.status = 0#32 ∧ w.status = 0#32 ∧ w.rdata = s.wdata := by
  have hd16 := (firstFree_le _).1 (entryOk_frame _ _ _ hd)
  have ht16 := (firstFree_le _).1 (entryOk_frame _ _ _ ht)
  obtain ⟨v, hv, hmem, hreg⟩ := writeStoresWdataAtTheTranslatedWord s wa hc hd16 ht16
  have hpid : v.curPid = s.curPid := by rw [hreg]
  have hact : v.activeDir = s.activeDir := by rw [hreg]
  have hstatus : v.status = 0#32 := by rw [hreg, hd, ht]; rfl
  have same : ∀ (g : Frame) (i : Offset), g ≠ entryFrame (s.tabEntry wa) →
      v.mem (frameWord g i) = s.mem (frameWord g i) := fun g i hg => by
    rw [hmem, if_neg]
    exact fun e => hg ((frameWord_inj _ _ _ _).1 e).1
  have hd' : v.dirEntry wa = s.dirEntry wa := by
    rw [State.dirEntry, State.dirEntryAddr, hact, same _ _ hdir]
    rfl
  have ht' : v.tabEntry wa = s.tabEntry wa := by
    rw [State.tabEntry, State.tabEntryAddr, hd', same _ _ htab]
    rfl
  have hdata : v.dataAddr wa = s.dataAddr wa := by rw [State.dataAddr, ht', State.dataAddr]
  have hperm : ∀ e, v.permits e = s.permits e := fun e => by rw [State.permits, hpid, State.permits]
  refine ⟨v, _, hv, readReturnsTheTranslatedWord v wa (hact ▸ hc) (hd' ▸ hd16) (ht' ▸ ht16), hstatus, ?_, ?_⟩
  · rw [hperm, hperm, hd', ht', hd, ht]
    rfl
  · rw [hdata, hmem, if_pos rfl]

/-- The page of an address is its two indexes. -/
theorem index_of_page {va wa : VAddr} (h : wa.extractLsb' 8 16 = va.extractLsb' 8 16) :
    dirIndex wa = dirIndex va ∧ tabIndex wa = tabIndex va := by
  have h := congrArg BitVec.toNat h
  simp only [toNat_field] at h
  constructor <;> apply word_ext <;> simp only [dirIndex, tabIndex, toNat_field] <;> omega

/-- Settles O36: MAP's own entries pass the check, and its three frames are different ones. -/
theorem mapWriteReadGivesTheWordBack : Obligations.MapWriteReadGivesTheWordBack := by
  intro s u va wa x hun hres hu hok hpage
  obtain ⟨f, t, d, k, h⟩ := builtAll_of_ok hun hres hu hok
  obtain ⟨hdi, hti⟩ := index_of_page hpage
  obtain ⟨hdir, htab⟩ := h.entries hdi hti
  have hperm : ∀ g : Frame, 16 ≤ g.toNat → u.permits (mapPte Config.params s.curPid g) = true := fun g hg => by
    rw [State.permits, entryOk_mapPte, h.curPid_eq, decide_eq_true hg, beq_self_eq_true]
    rfl
  refine read_after_write (s := { u with wdata := x }) (wa := wa) ?_ ?_ ?_ ?_ ?_
  · exact h.activeDir_eq ▸ h.dir_ge
  · exact (congrArg u.permits hdir).trans (hperm t h.table_ge)
  · exact (congrArg u.permits htab).trans (hperm d h.data_ge)
  · change u.activeDir ≠ entryFrame (u.tabEntry wa)
    rw [h.activeDir_eq, htab, entryFrame_mapPte]
    exact h.data_ne_dir.symm
  · change entryFrame (u.dirEntry wa) ≠ entryFrame (u.tabEntry wa)
    rw [hdir, htab, entryFrame_mapPte, entryFrame_mapPte]
    exact h.data_ne_table.symm

/-! ### E3: MAP, UNMAP -/

/-- Settles O37: the cascade frees the three frames MAP took, and only MAP's own registry entry names the freed
Directory, since that frame was free before. -/
theorem mapThenUnmapRestoresTheAllocator : Obligations.MapThenUnmapRestoresTheAllocator := by
  intro s u va hun hres hdirs hu hok
  obtain ⟨f, t, d, k, h⟩ := builtAll_of_ok hun hres hu hok
  obtain ⟨hdir, htab⟩ := h.entries (wa := va) rfl rfl
  have htd : t = entryFrame (u.dirEntry va) := by rw [hdir, entryFrame_mapPte]
  have hdd : d = entryFrame (u.tabEntry va) := by rw [htab, entryFrame_mapPte]
  obtain ⟨v, hv, hreg, hused, hmem⟩ := unmapFreesAnEmptyDirectory u va f t d h.aligned h.activeDir_eq.symm h.dir_ge
    htd h.table_ge h.table_ne_dir hdd (fun j hj => by rw [h.tableWord, if_neg hj])
    (fun i hi => by rw [h.dirWord, if_neg hi])
  refine ⟨v, hv, by rw [hreg], by rw [hreg], fun g => ?_, fun j hj => ?_⟩
  · have hf := h.dirFree.1
    have ht := h.tableFree.2.1
    have hd := h.dataFree.2.1
    rw [hused, h.used]
    grind
  · obtain ⟨-, -, hentry⟩ := slotAddr_apart j hj
    have hreg : 0x100 ≤ (slotAddr Config.params j).toNat ∧ (slotAddr Config.params j).toNat < 0xF00 := by
      rw [slotAddr_toNat j hj]
      omega
    have hne : ¬ (slotAddr Config.params j = u.tabEntryAddr va ∨ slotAddr Config.params j = u.dirEntryAddr va) := by
      rw [State.tabEntryAddr, State.dirEntryAddr, ← htd, h.activeDir_eq]
      exact not_or.2 ⟨hentry t _ h.table_ge, hentry f _ h.dir_ge⟩
    have hslot : v.slot j = if entryFrame (u.slot j) = f then 0#32 else u.slot j := by
      rw [State.slot, hmem _ (slotAddr_ge j hj), if_neg hne]
      simp only [hreg.1, hreg.2, true_and]
      rfl
    rw [hslot, h.slot j hj]
    by_cases hjk : j = k
    · rw [if_pos hjk, entryFrame_regEntry, if_pos rfl, hjk, h.slotFree.2.1]
    · rw [if_neg hjk, if_neg]
      intro hf
      by_cases h0 : s.slot j = 0#32
      · rw [h0, entryFrame_zero] at hf
        exact ne_zero_of_le f h.dir_ge hf.symm
      · have hbusy := hdirs j hj h0
        rw [hf, h.dirFree.1] at hbusy
        cases hbusy

end Sys2Proof.Machine

/-! MAP in a sequence of commands: two processes (spec/95_test_vectors.md E4) and the first MAP after INIT
(spec/70_reset_and_hazards.md R126, R127). -/

namespace Sys2Proof.Machine

/-! ### E4: two processes -/

section built
variable {s u : State} {va : VAddr} {f t d : Frame} {k : Nat} (h : BuiltAll s u va f t d k)
include h

/-- The new registry entry carries the mapping process's tag, the others what they carried. -/
theorem BuiltAll.carries_iff {pid : Pid} {j : Nat} (hj : j < 3584) :
    u.carries pid j ↔ j = k ∧ s.curPid = pid ∨ s.carries pid j := by
  obtain ⟨-, hfree, -⟩ := h.slotFree
  rw [State.carries, h.slot j hj, State.carries]
  by_cases hjk : j = k
  · rw [if_pos hjk, entryOwner_regEntry, hjk, hfree]
    have hne := regEntry_ne_zero s.curPid f h.process
    simp [hne]
  · simp [hjk]

theorem BuiltAll.registered (hun : s.unregistered s.curPid) : u.registeredAt s.curPid k := by
  have hk := h.slotFree.1
  refine ⟨hk, (h.carries_iff hk).2 (.inl ⟨rfl, rfl⟩), fun j hj hcarries => ?_⟩
  rcases (h.carries_iff (Nat.lt_trans hj hk)).1 hcarries with ⟨rfl, -⟩ | hold
  · exact Nat.lt_irrefl j hj
  · exact hun j (Nat.lt_trans hj hk) hold

variable {pid : Pid} (hne : s.curPid ≠ pid)
include hne

theorem BuiltAll.carries_other_iff {j : Nat} (hj : j < 3584) : u.carries pid j ↔ s.carries pid j := by
  rw [h.carries_iff hj]
  exact or_iff_right fun hnew => hne hnew.2

theorem BuiltAll.unregistered_other (hun : s.unregistered pid) : u.unregistered pid :=
  fun j hj hcarries => hun j hj ((h.carries_other_iff hne hj).1 hcarries)

/-- Another process's entry stays where it was, with its Directory. -/
theorem BuiltAll.registeredAt_other {j : Nat} (hreg : s.registeredAt pid j) :
    u.registeredAt pid j ∧ u.slot j = s.slot j := by
  obtain ⟨hj, hcarries, hlow⟩ := hreg
  refine ⟨⟨hj, (h.carries_other_iff hne hj).2 hcarries, fun i hi hcarries =>
    hlow i hi ((h.carries_other_iff hne (Nat.lt_trans hi hj)).1 hcarries)⟩, ?_⟩
  rw [h.slot j hj, if_neg]
  rintro rfl
  exact hcarries.1 h.slotFree.2.1

end built

/-- A SWITCH that ends OK has set CUR_PID and nothing else. -/
theorem switch_of_ok {s v : State} {pid : Pid} (hv : exec (.switch pid) s = .next v) (hok : v.status = 0#32) :
    v = { s with curPid := pid }.finish 0#32 := by
  obtain rfl := Host.Outcome.next.inj hv
  rcases switchCmd_cases pid s with h | h
  · exact absurd ((congrArg State.status h).symm.trans hok) (raise_not_ok s (by decide))
  · exact h

/-- A frame number is its word. -/
theorem setWidth_frame_inj {f g : Frame} (h : f.setWidth 32 = g.setWidth 32) : f = g := by
  have h := congrArg (BitVec.setWidth 12) h
  rwa [BitVec.setWidth_setWidth_of_le _ (by decide), BitVec.setWidth_setWidth_of_le _ (by decide),
    BitVec.setWidth_eq, BitVec.setWidth_eq] at h

/-- Settles O38: the second MAP takes frames whose bits are 0, and the first MAP's are 1. -/
theorem twoProcessesGetDistinctFrames : Obligations.TwoProcessesGetDistinctFrames := by
  intro s u v w va pid hne hun hunp hres hu hok hv hvok hw hwok
  obtain ⟨f, t, d, k, h⟩ := builtAll_of_ok hun hres hu hok
  have hne' : s.curPid ≠ pid := hne.symm
  obtain rfl := switch_of_ok hv hvok
  have hun' : u.unregistered pid := h.unregistered_other hne' hunp
  have hres' : u.reservedUsed := fun g hg => by rw [h.used, hres g hg, Bool.or_true]
  obtain ⟨f', t', d', k', h'⟩ := builtAll_of_ok (s := { u with curPid := pid }.finish 0#32) hun' hres' hw hwok
  have hdir : f' ≠ f := by
    rintro rfl
    have hfree : u.frameUsed f' = false := h'.dirFree.1
    rw [h.used] at hfree
    simp at hfree
  have hdata : d' ≠ d := by
    rintro rfl
    have hfree : u.frameUsed d' = false := h'.dataFree.2.1
    rw [h.used] at hfree
    simp at hfree
  have hreg : ({ u with curPid := pid }.finish 0#32 : State).registeredAt s.curPid k := h.registered hun
  obtain ⟨hreg, hslot⟩ := h'.registeredAt_other hne hreg
  refine ⟨?_, ?_, ⟨k, hreg, ?_⟩, k', h'.registered hun', ?_⟩
  · rw [h.rdata_eq, h'.rdata_eq]
    exact fun e => hdata (setWidth_frame_inj e)
  · rw [h.activeDir_eq, h'.activeDir_eq]
    exact hdir
  · refine (congrArg entryFrame (hslot.trans ((h.slot k h.slotFree.1).trans (if_pos rfl)))).trans ?_
    rw [entryFrame_regEntry, h.activeDir_eq]
  · rw [h'.slot k' h'.slotFree.1, if_pos rfl, entryFrame_regEntry, h'.activeDir_eq]

/-! ### The first MAP after INIT -/

/-- INIT's bitmap: the reserved frames are used, no other is (R35, R42). -/
theorem frameUsed_initCmd (s : State) (f : Frame) :
    (initCmd Config.params s).frameUsed f = decide (f.toNat < 16) := by
  have hword := bitmapWord_toNat f
  have hlt := f.isLt
  rw [frameUsed_eq, mem_initCmd]
  by_cases h : f.toNat < 32
  · have hbits : ∀ n < 32, (0xFFFF#32).getLsbD n = decide (n < 16) := by decide
    have hzero : bitmapWord f = 0x00000#20 := BitVec.eq_of_toNat_eq (hword.trans (Nat.div_eq_of_lt h))
    rw [if_pos hzero, Nat.mod_eq_of_lt h]
    exact hbits _ h
  · have h0 : bitmapWord f ≠ 0x00000#20 := fun e => by
      rw [e] at hword
      change 0 = _ at hword
      omega
    have hF00 : bitmapWord f ≠ 0x00F00#20 := fun e => by
      rw [e] at hword
      change 0xF00 = _ at hword
      omega
    rw [if_neg h0, if_neg hF00, if_pos (by omega), BitVec.getLsbD_zero]
    exact (decide_eq_false (by omega)).symm

/-- INIT empties the registry (R35). -/
theorem slot_initCmd (s : State) {k : Nat} (hk : k < 3584) : (initCmd Config.params s).slot k = 0#32 := by
  have haddr := slotAddr_toNat k hk
  have h0 : slotAddr Config.params k ≠ 0x00000#20 := fun e => by
    rw [e] at haddr
    change 0 = _ at haddr
    omega
  have hF00 : slotAddr Config.params k ≠ 0x00F00#20 := fun e => by
    rw [e] at haddr
    change 0xF00 = _ at haddr
    omega
  rw [State.slot, mem_initCmd, if_neg h0, if_neg hF00, if_pos (by omega)]

/-- With frames 0 to 15 used and no other, the free frames in order start with 16, 17 and 18. -/
theorem free_of_reserved {s : State} (h : ∀ f, s.frameUsed f = decide (f.toNat < 16)) :
    s.lowestFree 16#12 ∧ s.nextFree 16#12 17#12 ∧ s.nextFree 17#12 18#12 := by
  refine ⟨⟨h _, fun g hg => ?_⟩, ⟨by decide, h _, fun g hlow hhigh => ?_⟩,
    by decide, h _, fun g hlow hhigh => ?_⟩
  · rw [h]
    exact decide_eq_true hg
  · exact absurd (show g.toNat < 17 from hhigh) (Nat.not_lt.2 hlow)
  · exact absurd (show g.toNat < 18 from hhigh) (Nat.not_lt.2 hlow)

/-- The first MAP of a machine with the reserved frames marked and an empty registry. -/
theorem first_map {s : State} {va : VAddr} (hp : s.curPid ≠ 0#8) (hw : wordOffset va = 0#8)
    (hused : ∀ f, s.frameUsed f = decide (f.toNat < 16)) (hslots : ∀ k, k < 3584 → s.slot k = 0#32) :
    ∃ u, exec (.map va) s = .next u ∧ u.status = 0#32 ∧ u.rdata = 18#32 ∧ u.activeDir = 16#12 ∧
      (∀ f, u.frameUsed f = decide (f.toNat ≤ 18)) ∧ u.slot 0 = s.curPid ++ 0#12 ++ 16#12 ∧
      (∀ k, 0 < k → k < 3584 → u.slot k = 0#32) := by
  obtain ⟨hf, ht, hd⟩ := free_of_reserved hused
  have hun : s.unregistered s.curPid := fun k hk hcarries => hcarries.1 (hslots k hk)
  have hk : s.lowestFreeSlot 0 := ⟨by decide, hslots 0 (by decide), fun j hj => absurd hj (Nat.not_lt_zero j)⟩
  obtain ⟨u, hu, h⟩ := exists_builtAll hw hp hun hk hf ht hd (by decide)
  refine ⟨u, hu, by rw [h.registers], h.rdata_eq, h.activeDir_eq, fun f => ?_, ?_, fun k hk hk' => ?_⟩
  · rw [h.used, hused, ← Bool.decide_or, decide_eq_decide, ← BitVec.toNat_inj, ← BitVec.toNat_inj,
      ← BitVec.toNat_inj]
    change (f.toNat = 16 ∨ f.toNat = 17 ∨ f.toNat = 18) ∨ f.toNat < 16 ↔ f.toNat ≤ 18
    omega
  · rw [h.slot 0 (by decide), if_pos rfl, regEntry_eq]
  · rw [h.slot k hk', if_neg (Nat.ne_of_gt hk), hslots k hk']

/-- INIT then SWITCH, from any state: what the first MAP needs. -/
theorem init_switch (s : State) {pid : Pid} (hpid : pid ≠ 0#8) :
    ∃ s1 s2 : State, exec .init s = .next s1 ∧ exec (.switch pid) s1 = .next s2 ∧ s2.curPid = pid ∧
      (∀ f, s2.frameUsed f = decide (f.toNat < 16)) ∧ ∀ k, k < 3584 → s2.slot k = 0#32 := by
  obtain ⟨s1, h1, hused, hslots⟩ : ∃ s1, exec .init s = .next s1 ∧
      (∀ f, s1.frameUsed f = decide (f.toNat < 16)) ∧ ∀ k, k < 3584 → s1.slot k = 0#32 :=
    ⟨_, rfl, frameUsed_initCmd s, fun _ => slot_initCmd s⟩
  exact ⟨s1, _, h1, congrArg Host.Outcome.next (switchCmd_of_ne_zero s1 hpid), rfl, hused, hslots⟩

/-- Settles O54: INIT leaves the state that the first MAP needs, whatever the stores held. -/
theorem bootThenFirstMap : Obligations.BootThenFirstMap := by
  intro m d pid va hpid hw
  obtain ⟨s1, s2, h1, h2, rfl, hused, hslots⟩ := init_switch (State.resetWith m d) hpid
  obtain ⟨s3, h3, hend⟩ := first_map hpid hw hused hslots
  exact ⟨s1, s2, s3, h1, h2, h3, hend⟩

end Sys2Proof.Machine

/-! The registry's one entry per process (spec/20_memory.md R67): UNMAP empties slots, MAP fills one where no entry
carries the process's tag. -/

namespace Sys2Proof.Machine

/-- No two of the registry's entries carry one tag (R67). -/
def State.oneEntryEach (s : State) : Prop :=
  ∀ pid j k, j < 3584 → k < 3584 → s.carries pid j → s.carries pid k → j = k

/-- The registry's entries name Directories that are not reserved, with Tables that are not. -/
def State.unreservedDirs (s : State) : Prop :=
  ∀ k, k < 3584 → s.slot k ≠ 0#32 → 16 ≤ (entryFrame (s.slot k)).toNat ∧
    ∀ i, entryFrame (s.mem (frameWord (entryFrame (s.slot k)) i)) = 0#12 ∨
      16 ≤ (entryFrame (s.mem (frameWord (entryFrame (s.slot k)) i))).toNat

/-- Emptying slots adds no entry. -/
theorem oneEntryEach_of_slots {s u : State} (hs : s.oneEntryEach)
    (h : ∀ k, k < 3584 → u.slot k = 0#32 ∨ u.slot k = s.slot k) : u.oneEntryEach := by
  have old : ∀ pid k, k < 3584 → u.carries pid k → s.carries pid k := by
    rintro pid k hk ⟨hne, hpid⟩
    have hslot := (h k hk).resolve_left hne
    exact ⟨hslot ▸ hne, hslot ▸ hpid⟩
  exact fun pid j k hj hk hcj hck => hs pid j k hj hk (old pid j hj hcj) (old pid k hk hck)

theorem oneEntryEach_of_sameSlots {s u : State} (hs : s.oneEntryEach) (h : s.sameSlots u) : u.oneEntryEach :=
  oneEntryEach_of_slots hs fun k hk => .inr (h k hk)

/-! ### UNMAP -/

/-- UNMAP's two entries lie outside the registry; the sweep empties slots. -/
theorem UnmapEnds.slot {s u : State} {va : VAddr} (hend : UnmapEnds s va u) {k : Nat} (hk : k < 3584) :
    u.slot k = 0#32 ∨ u.slot k = s.slot k := by
  have hhigh := slotAddr_ge k hk
  unfold State.slot
  cases hend with
  | turnedAway e he => exact .inr rfl
  | data hw hg ht ht' =>
    rw [mem_finish, mem_freedData_high hhigh]
    exact ite_eq_or_eq _ _ _
  | table hw hg ht ht' hg' =>
    rw [mem_finish, mem_freedTable_high hhigh]
    exact ite_eq_or_eq _ _ _
  | directory hw hg ht ht' hg' =>
    rw [mem_finish, mem_freedDirectory_high hg ht hhigh]
    by_cases hentry : slotAddr Config.params k = s.tabEntryAddr va ∨ slotAddr Config.params k = s.dirEntryAddr va
    · exact .inl (if_pos hentry)
    · rw [if_neg hentry]
      exact ite_eq_or_eq _ _ _

/-! ### MAP -/

/-- A new Directory's entry is the only one with the process's tag. -/
theorem newDirectory_oneEntryEach {s : State} {f : Frame} {k : Nat} (hs : s.oneEntryEach)
    (hun : s.unregistered s.curPid) (hf : 16 ≤ f.toNat) (hk : k < 3584) :
    (s.newDirectory f k).oneEntryEach := by
  have hsplit : ∀ pid j, j < 3584 → (s.newDirectory f k).carries pid j →
      j = k ∧ pid = s.curPid ∨ pid ≠ s.curPid ∧ s.carries pid j := by
    rintro pid j hj hcarries
    rw [State.carries, newDirectory_slot s f k j hf hk hj] at hcarries
    by_cases hjk : j = k
    · rw [if_pos hjk, entryOwner_regEntry] at hcarries
      exact .inl ⟨hjk, hcarries.2.symm⟩
    · rw [if_neg hjk] at hcarries
      refine .inr ⟨?_, hcarries⟩
      rintro rfl
      exact hun j hj hcarries
  intro pid i j hi hj hci hcj
  rcases hsplit pid i hi hci with ⟨hik, hpid⟩ | ⟨hpid, hci⟩ <;>
    rcases hsplit pid j hj hcj with ⟨hjk, hpid'⟩ | ⟨hpid', hcj⟩
  · rw [hik, hjk]
  · exact absurd hpid hpid'
  · exact absurd hpid' hpid
  · exact hs pid i j hi hj hci hcj

section map
variable {s u : State} (hres : s.reservedUsed)
include hres

/-- Step 1 keeps one entry per process, and the Directory it makes active is not reserved, with Tables that are not. -/
theorem mapDirectory_oneEntryEach (hs : s.oneEntryEach) (hdirs : s.unreservedDirs)
    (h : mapDirectory Config.params s = .ok u) :
    u.oneEntryEach ∧ u.reservedUsed ∧ 16 ≤ u.activeDir.toNat ∧
      ∀ i, entryFrame (u.mem (frameWord u.activeDir i)) = 0#12 ∨
        16 ≤ (entryFrame (u.mem (frameWord u.activeDir i))).toNat := by
  rcases mapDirectory_ok h with ⟨k, ⟨hk, hcarries, -⟩, rfl⟩ | ⟨f, k, hun, hf, ⟨hk, -⟩, rfl⟩
  · obtain ⟨hge, hentries⟩ := hdirs k hk hcarries.1
    exact ⟨hs, hres, hge, hentries⟩
  · have f16 := lowestFree_ge hres hf
    have hused := fun g => frameUsed_newDirectory s f g k hk (ne_zero_of_le f f16)
    refine ⟨newDirectory_oneEntryEach hs hun f16 hk, reservedUsed_of_marked hused hres, f16, fun i => .inl ?_⟩
    rw [State.newDirectory_activeDir, newDirectory_entry s f k f i hk f16, if_pos rfl, entryFrame_zero]

variable {role : Role} {g f : Frame} {i : Offset} (hg : 16 ≤ g.toNat)
  (h : mapEntry Config.params role (frameWord g i) s = .ok (u, f))
include hg h

/-- Steps 2 and 3 leave the registry and keep the reserved frames marked. -/
theorem mapEntry_sameSlots : s.sameSlots u ∧ u.reservedUsed := by
  have hea := frameWord_ge g i (ne_zero_of_le g hg)
  rcases mapEntry_ok h with ⟨-, hf, rfl⟩ | ⟨-, -, rfl⟩
  · have f16 := lowestFree_ge hres hf
    exact ⟨newEntry_sameSlots s role g i f hg f16,
      reservedUsed_of_marked (fun x => frameUsed_newEntry s role _ f x hea fun _ => ne_zero_of_le f f16) hres⟩
  · exact ⟨reusedEntry_sameSlots s role g i f hg,
      fun x hx => (frameUsed_reusedEntry s role _ f x hea).trans (hres x hx)⟩

omit hg in
/-- The frame of an entry that is empty or names no reserved frame is not reserved. -/
theorem mapEntry_ge (he : entryFrame (s.mem (frameWord g i)) = 0#12 ∨
    16 ≤ (entryFrame (s.mem (frameWord g i))).toNat) : 16 ≤ f.toNat := by
  rcases mapEntry_ok h with ⟨-, hf, -⟩ | ⟨h0, rfl, -⟩
  · exact lowestFree_ge hres hf
  · exact he.resolve_left h0

end map

/-- Wherever MAP ends, the steps it has taken keep one entry per process. -/
theorem MapEnds.oneEntryEach {s u : State} {va : VAddr} (hend : MapEnds s va u) (hs : s.oneEntryEach)
    (hres : s.reservedUsed) (hdirs : s.unreservedDirs) : u.oneEntryEach := by
  cases hend with
  | turnedAway e he => exact hs
  | noTable s1 hw hp h1 h2 =>
    obtain ⟨hs1, -⟩ := mapDirectory_oneEntryEach hres hs hdirs h1
    exact oneEntryEach_of_sameSlots hs1 fun _ _ => rfl
  | exhausted s1 s2 t hw hp h1 h2 => exact oneEntryEach_of_sameSlots hs fun _ _ => rfl
  | noData s1 s2 t hw hp h1 h2 hx h3 =>
    obtain ⟨hs1, hres1, hg, -⟩ := mapDirectory_oneEntryEach hres hs hdirs h1
    obtain ⟨hsame, -⟩ := mapEntry_sameSlots hres1 hg h2
    exact oneEntryEach_of_sameSlots hs1 hsame
  | done s1 s2 s3 t d hw hp h1 h2 hx h3 =>
    obtain ⟨hs1, hres1, hg, hentries⟩ := mapDirectory_oneEntryEach hres hs hdirs h1
    obtain ⟨hsame, hres2⟩ := mapEntry_sameSlots hres1 hg h2
    obtain ⟨hsame', -⟩ := mapEntry_sameSlots hres2 (mapEntry_ge hres1 h2 (hentries _)) h3
    exact oneEntryEach_of_sameSlots hs1 fun k hk => (hsame' k hk).trans (hsame k hk)

/-- Settles O60. -/
theorem registryKeepsOneEntryPerProcess : Obligations.RegistryKeepsOneEntryPerProcess := by
  rintro s u va hs (⟨⟨⟩⟩ | ⟨⟨⟨⟩⟩, hres, hdirs⟩)
  · exact oneEntryEach_of_slots hs fun k => (unmapCmd_ends s va).slot
  · exact (mapCmd_ends s va).oneEntryEach hs hres hdirs

end Sys2Proof.Machine
